-- ==== Sys2Proof/Word.lean ====
section
/-! DEFINITION. The words of the hardware: bits, bytes, nibbles, and the two tracks. -/

namespace Sys2Proof

/-- One bit: a line level, a sampled bit, a bit of a sequence. -/
abbrev Bit := Bool

/-- A protocol byte (R90). -/
abbrev Byte := BitVec 8

/-- The payload field `N` of a data byte (R95). -/
abbrev Nibble := BitVec 4

/-- A character group read as a number (R109): 7 bits for format 1, and for format 2 the five bits
of the group in the low end. -/
abbrev Group := BitVec 7

/-- The two tracks of R4. A track is also the name of a format: the format of track `t` is `t` (R221). -/
inductive Track where
  | t1
  | t2
  deriving DecidableEq, Repr, Inhabited

/-- "Every per-track piece of state exists twice, once per `t`" (R4). -/
structure PerTrack (α : Type) where
  t1 : α
  t2 : α
  deriving DecidableEq, Repr

def PerTrack.get {α : Type} (p : PerTrack α) : Track → α
  | .t1 => p.t1
  | .t2 => p.t2

def PerTrack.set {α : Type} (p : PerTrack α) : Track → α → PerTrack α
  | .t1, a => { p with t1 := a }
  | .t2, a => { p with t2 := a }

/-- The same value for both tracks. -/
def PerTrack.both {α : Type} (a : α) : PerTrack α := ⟨a, a⟩

/-- The other track. -/
def Track.other : Track → Track
  | .t1 => .t2
  | .t2 => .t1

end Sys2Proof
end

