-- ==== Sys2Proof/Syntax.lean ====
section
/-! DEFINITION. The instructions: one constructor for each row of spec/opcode_table.json. -/

namespace Sys2Proof

/-- The rows of spec/opcode_table.json, in its order. Four are protocol bytes (R91), one is the serial frame
(R105), six are character groups (R109, R110). -/
inductive Instr where
  /-- `START t` (R97). -/
  | start (t : Track)
  /-- `STOP t` (R98). -/
  | stop (t : Track)
  /-- `SIZE t, k` (R99). -/
  | size (t : Track) (k : Nibble)
  /-- `BITS t, v` (R100). -/
  | bits (t : Track) (v : Nibble)
  /-- The serial frame that carries the protocol byte `b` (R105). -/
  | frame (b : Byte)
  /-- A format-2 character group: parity bit `p`, data `d` (R109). -/
  | char2 (p : BitVec 1) (d : BitVec 4)
  /-- The format-2 sentinel (R110). -/
  | sent2
  /-- The format-2 terminator (R110). -/
  | term2
  /-- A format-1 character group: parity bit `p`, data `d` (R109). -/
  | char1 (p : BitVec 1) (d : BitVec 6)
  /-- The format-1 sentinel (R110). -/
  | sent1
  /-- The format-1 terminator (R110). -/
  | term1
  deriving DecidableEq, Repr

end Sys2Proof
end

