-- ==== Sys2Proof/WellFormed.lean ====
section
/-! DEFINITION. Which instructions are well formed: the terms that are the one name of their word. -/

namespace Sys2Proof

/-- A character group that equals the terminator is the row TERM2 or TERM1, not CHAR2 or CHAR1 (R228): the
terminator is 0x1F in both formats (R110), that is parity 1 and data 0xF in format 2, parity 0 and data 0x1F in
format 1. Every other operand is legal: no byte value is illegal (R103), a count is any of 0 to 15 (R99), a group of
wrong parity is still a group (R226). -/
def Instr.wf : Instr → Bool
  | .start _ => true
  | .stop _ => true
  | .size _ _ => true
  | .bits _ _ => true
  | .frame _ => true
  | .char2 p d => !(p == 1#1 && d == 0xF#4)
  | .sent2 => true
  | .term2 => true
  | .char1 p d => !(p == 0#1 && d == 0x1F#6)
  | .sent1 => true
  | .term1 => true

end Sys2Proof
end

