-- ==== Sys2Proof/Decode.lean ====
section
/-! DEFINITION. The three encodings of the hardware: the protocol byte (R90 to R104), the serial frame (R105, R106)
and the character group (R109 to R115). First the decoder, then the encoder, then the reading of a table word. -/

namespace Sys2Proof

/-! ## Bit sequences and numbers -/

/-- The number whose bits are the sequence, first bit least significant. -/
def bitsVal : List Bit → Nat
  | [] => 0
  | b :: bs => b.toNat + 2 * bitsVal bs

/-- The number whose bits are the sequence, first bit most significant (the table's pattern strings, R77 (2)). -/
def bitsValMsb (bs : List Bit) : Nat := bitsVal bs.reverse

/-- The low `n` bits of `w`, most significant first. -/
def bitsMsb (n w : Nat) : List Bit := (List.range n).map fun i => w.testBit (n - 1 - i)

/-- The low `n` bits of `w`, least significant first. -/
def bitsLsb (n w : Nat) : List Bit := (List.range n).map fun i => w.testBit i

/-! ## Format constants (R110) -/

/-- `W`, bits per character. -/
def fmtWidth : Track → Nat
  | .t2 => 5
  | .t1 => 7

/-- `SENT`, the sentinel group. -/
def fmtSent : Track → Group
  | .t2 => 0x0B#7
  | .t1 => 0x45#7

/-- `TERM`, the terminator group. -/
def fmtTerm : Track → Group
  | .t2 => 0x1F#7
  | .t1 => 0x1F#7

/-- `DMASK` = 2^(W-1) - 1. -/
def fmtDmask : Track → Group
  | .t2 => 0x0F#7
  | .t1 => 0x3F#7

/-- `OFF`, the character offset. -/
def fmtOff : Track → Byte
  | .t2 => 0x30#8
  | .t1 => 0x20#8

/-- The group value of a CHAR2 row: `g[4]` the parity bit, `g[3:0]` the data (R109). -/
def group2 (p : BitVec 1) (d : BitVec 4) : Group := BitVec.setWidth 7 (p ++ d)

/-- The group value of a CHAR1 row: `g[6]` the parity bit, `g[5:0]` the data (R109). -/
def group1 (p : BitVec 1) (d : BitVec 6) : Group := p ++ d

/-- The bits of group `g` in the order they stand in a sequence: bit 0 first, the parity bit last (R113). -/
def groupStream (f : Track) (g : Group) : List Bit := bitsLsb (fmtWidth f) g.toNat

/-! ## The decoder -/

/-- Why a unit is not an instruction. -/
inductive DecodeError where
  /-- More bits than the unit has. -/
  | badLength
  /-- The first period of a frame is not 0 (R105). -/
  | badStartBit
  /-- The last period of a frame is not 1 (R105). -/
  | badStopBit
  /-- A window of the sentinel search that is not `SENT` (R223): the search slides on by one bit. -/
  | notSentinel
  deriving DecidableEq, Repr

/-- What a protocol byte is by its own bits (R103): control START, control STOP, or DATA with its nibble. -/
inductive ByteKind where
  | start (t : Track)
  | stop (t : Track)
  | data (t : Track) (n : Nibble)
  deriving DecidableEq, Repr

/-- Where a unit is read, with the state that the reading depends on: a protocol byte on the host, under `pend`
(R102); a frame on the line; a window of the sentinel search (R223) or a group of the group loop (R225) of format `f`. -/
inductive Stream where
  | wire (pend : PerTrack (Option Nibble))
  | line
  | search (f : Track)
  | groups (f : Track)
  deriving DecidableEq, Repr

/-- The width of a unit in bits (R90, R105, R110). -/
def Stream.width : Stream → Nat
  | .wire _ => 8
  | .line => 10
  | .search f => fmtWidth f
  | .groups f => fmtWidth f

/-- Field `T`: 0 is track 1, 1 is track 2 (R93). -/
def trackOfBit (b : Bit) : Track := if b then .t2 else .t1

/-- `DecodeByte(b)` of R103, total on all 256 values; the reserved bits are not looked at. -/
def decodeByte (b : Byte) : ByteKind :=
  let t := trackOfBit (b.getLsbD 6)
  if b.getLsbD 7 then
    if b.getLsbD 5 then .stop t else .start t
  else .data t (BitVec.extractLsb' 0 4 b)

/-- The row of a protocol byte: a DATA byte of track `t` is SIZE if `pend[t]` is NONE and BITS otherwise (R102, R202). -/
def decodeWire (pend : PerTrack (Option Nibble)) (b : Byte) : Instr :=
  match decodeByte b with
  | .start t => .start t
  | .stop t => .stop t
  | .data t n =>
    match pend.get t with
    | none => .size t n
    | some _ => .bits t n

/-- `Unframe` of R106, on the ten line levels in time order. -/
def unframe : List Bit → Except DecodeError Byte
  | [s, b0, b1, b2, b3, b4, b5, b6, b7, p] =>
    if s then .error .badStartBit
    else if p then .ok (BitVec.ofNat 8 (bitsVal [b0, b1, b2, b3, b4, b5, b6, b7]))
    else .error .badStopBit
  | _ => .error .badLength

/-- The FRAME row: the table's pattern is read left to right in time, so the first period is the most significant of
the ten bits. DEDUCED (log 14), safe. -/
def decodeFrame (w : Nat) : Except DecodeError Instr :=
  match unframe (bitsMsb 10 w) with
  | .ok b => .ok (.frame b)
  | .error e => .error e

/-- A window of the sentinel search (R223). -/
def decodeSearch (f : Track) (g : Group) : Except DecodeError Instr :=
  if g = fmtSent f then
    match f with
    | .t2 => .ok .sent2
    | .t1 => .ok .sent1
  else .error .notSentinel

/-- A group of the group loop (R225 to R228): the terminator by its whole value, any other group a character. -/
def decodeGroup (f : Track) (g : Group) : Instr :=
  match f with
  | .t2 => if g = fmtTerm .t2 then .term2 else .char2 (BitVec.extractLsb' 4 1 g) (BitVec.extractLsb' 0 4 g)
  | .t1 => if g = fmtTerm .t1 then .term1 else .char1 (BitVec.extractLsb' 6 1 g) (BitVec.extractLsb' 0 6 g)

/-- The decoder: total on every stream and every number, rejecting by name. `w` is the unit as the table numbers
its bits, bit 0 least significant. -/
def decode (st : Stream) (w : Nat) : Except DecodeError Instr :=
  if 2 ^ st.width ≤ w then .error .badLength
  else
    match st with
    | .wire pend => .ok (decodeWire pend (BitVec.ofNat 8 w))
    | .line => decodeFrame w
    | .search f => decodeSearch f (BitVec.ofNat 7 w)
    | .groups f => .ok (decodeGroup f (BitVec.ofNat 7 w))

/-! ## The encoder -/

/-- `T = t - 1` (R93). -/
def trackBit : Track → Byte
  | .t1 => 0#8
  | .t2 => 1#8

/-- `MkStart(t) = 0x80 | ((t-1) << 6)` (R97). -/
def mkStart (t : Track) : Byte := 0x80#8 ||| (trackBit t <<< 6)

/-- `MkStop(t) = 0xA0 | ((t-1) << 6)` (R98). -/
def mkStop (t : Track) : Byte := 0xA0#8 ||| (trackBit t <<< 6)

/-- `MkData(t, n) = ((t-1) << 6) | (n & 0xF)` (R99, R100). -/
def mkData (t : Track) (n : Nibble) : Byte := (trackBit t <<< 6) ||| (BitVec.setWidth 8 n &&& 0x0F#8)

/-- `Frame(b)` of R106, the ten line levels in time order: start bit, eight data bits least significant first, stop bit. -/
def frameBits (b : Byte) : List Bit :=
  [false, b.getLsbD 0, b.getLsbD 1, b.getLsbD 2, b.getLsbD 3, b.getLsbD 4, b.getLsbD 5, b.getLsbD 6, b.getLsbD 7, true]

/-- The width of an instruction's word in bits. -/
def Instr.width : Instr → Nat
  | .start _ => 8
  | .stop _ => 8
  | .size _ _ => 8
  | .bits _ _ => 8
  | .frame _ => 10
  | .char2 _ _ => fmtWidth .t2
  | .sent2 => fmtWidth .t2
  | .term2 => fmtWidth .t2
  | .char1 _ _ => fmtWidth .t1
  | .sent1 => fmtWidth .t1
  | .term1 => fmtWidth .t1

/-- The word of an instruction, its bits numbered as the table numbers them. -/
def encode : Instr → Nat
  | .start t => (mkStart t).toNat
  | .stop t => (mkStop t).toNat
  | .size t k => (mkData t k).toNat
  | .bits t v => (mkData t v).toNat
  | .frame b => bitsValMsb (frameBits b)
  | .char2 p d => (group2 p d).toNat
  | .sent2 => (fmtSent .t2).toNat
  | .term2 => (fmtTerm .t2).toNat
  | .char1 p d => (group1 p d).toNat
  | .sent1 => (fmtSent .t1).toNat
  | .term1 => (fmtTerm .t1).toNat

/-- The streams in which a row is read: the `state` entry of the table's row, and for the groups the phase of the
decoder (R223, R225). -/
def Instr.readIn : Instr → Stream → Bool
  | .start _, .wire _ => true
  | .stop _, .wire _ => true
  | .size t _, .wire pend => (pend.get t).isNone
  | .bits t _, .wire pend => (pend.get t).isSome
  | .frame _, .line => true
  | .sent2, .search .t2 => true
  | .sent1, .search .t1 => true
  | .char2 _ _, .groups .t2 => true
  | .term2, .groups .t2 => true
  | .char1 _ _, .groups .t1 => true
  | .term1, .groups .t1 => true
  | _, _ => false

/-- The bits that the decoder looks at: R103 and the table's masks leave out bits 4:0 of a control byte and bits 5:4
of a data byte. -/
def examinedMask : Stream → Nat → Nat
  | .wire _, w => if w.testBit 7 then 0xE0 else 0xCF
  | .line, _ => 0x3FF
  | .search f, _ => 2 ^ fmtWidth f - 1
  | .groups f, _ => 2 ^ fmtWidth f - 1

/-! ## The wire sequences of the notation (R117) -/

/-- `SIZE t, k ; BITS t, v` (`FLUSH` of R117, R153). -/
def flushBytes (t : Track) (k v : Nat) : List Byte := [mkData t (BitVec.ofNat 4 k), mkData t (BitVec.ofNat 4 v)]

/-- `BITSEQ t, s` of R117 for groups of `g` bits: cut from the left, a shorter last group, nothing for the empty
sequence. The first argument bounds the number of groups. -/
def bitseqBytesUpTo (g : Nat) (t : Track) : Nat → List Bit → List Byte
  | 0, _ => []
  | n + 1, s =>
    if s = [] then []
    else flushBytes t (s.take g).length (bitsValMsb (s.take g)) ++ bitseqBytesUpTo g t n (s.drop g)

def bitseqBytes (g : Nat) (t : Track) (s : List Bit) : List Byte := bitseqBytesUpTo g t s.length s

/-- `SWIPE t, s` of R117. -/
def swipeBytes (g : Nat) (t : Track) (s : List Bit) : List Byte :=
  mkStart t :: (bitseqBytes g t s ++ [mkStop t])

/-! ## Table words -/

/-- The instruction of a word of spec/opcode_table.json. The table's words belong to three streams and the word does
not say which, so the width tells: 5 and 7 bits are a character group, 10 bits (16 in whole bytes) a frame, 8 bits a
protocol byte under `pend` = NONE. A group in whole bytes is 8 bits wide too: the three words that the table fixes
whole (0x0B, 0x1F, 0x45) are then read as the groups they are in the table, and every other 8-bit word as a protocol
byte. DESIGN CHOICE (log 13), safe: the machine never uses this reading, each agent decodes its own stream. -/
def decodeTableWord (nbits w : Nat) : Option Instr :=
  match nbits with
  | 5 => if w = (fmtSent .t2).toNat then some .sent2 else (decode (.groups .t2) w).toOption
  | 7 => if w = (fmtSent .t1).toNat then some .sent1 else (decode (.groups .t1) w).toOption
  | 8 =>
    if w = (fmtSent .t2).toNat then some .sent2
    else if w = (fmtTerm .t2).toNat then some .term2
    else if w = (fmtSent .t1).toNat then some .sent1
    else (decode (.wire ⟨none, none⟩) w).toOption
  | 10 => (decode .line w).toOption
  | 16 => (decode .line w).toOption
  | _ => none

end Sys2Proof
end

