-- ==== Sys2Proof/Config.lean ====
section
/-! DEFINITION. What an implementation or a run fixes (R8 to R12, R37, R45), and the free values of the model. -/

namespace Sys2Proof

/-- The direction of an edge on a line: of a card-present line (R23) or of a clock line (R11). -/
inductive EdgeDir where
  | falling
  | rising
  deriving DecidableEq, Repr

/-- `OUT_MODE` of R12. -/
inductive OutMode where
  | interpret
  | binary
  deriving DecidableEq, Repr

/-- What feeds the host (R45): the link, when the two sides are modelled together, or a free input. -/
inductive RxSource where
  | link
  | stream
  deriving DecidableEq, Repr

/-- The agents that may move without an event from outside. -/
inductive IdleAgent where
  | timer
  | mainLoop
  | hostLoop
  deriving DecidableEq, Repr, Inhabited

/-- The constants of a run (R37): "written by nobody after start-up". No step writes them, and every
statement about a step holds for all of them. -/
structure Params where
  /-- `G` of R8. -/
  g : Nat
  /-- `QCAP` of R9. -/
  qcap : Nat
  /-- `TBCAP` of R10, in bits. -/
  tbcap : Nat
  /-- `BIT_PERIOD` of R11 in microseconds, the content of the bit timer's compare register (R37). No rule
  depends on it. R11 gives a range and no unit of resolution: whole microseconds are a DESIGN CHOICE (log 23), unsafe. -/
  bitPeriod : Nat
  /-- `CLK_EDGE[t]` of R11. -/
  clkEdge : PerTrack EdgeDir
  /-- `OUT_MODE` of R12. -/
  outMode : OutMode
  /-- `OUT_EN[t]` of R12. -/
  outEn : PerTrack Bool
  /-- `OUT_LABELS` of R12. The label's text is not modelled (R44, R209), so no rule reads it. -/
  outLabels : Bool
  /-- Which of R45's two inputs feeds the host. -/
  rxSource : RxSource
  deriving DecidableEq, Repr

/-- The legal ranges of R8, R9, R10 and R11. -/
def Params.wf (c : Params) : Bool :=
  decide (1 ≤ c.g) && decide (c.g ≤ 4) && decide (1 ≤ c.qcap) && decide (c.tbcap % 8 = 0) &&
    decide (100 ≤ c.bitPeriod) && decide (c.bitPeriod ≤ 1000)

/-- The parameters of `State.reset`: `G` = 4 is R8's; 64 and 1024 are the suggested defaults of R9 and
R10. The others are OPEN or policy inputs. DESIGN CHOICE (log 1), unsafe. -/
def Params.default : Params where
  g := 4
  qcap := 64
  tbcap := 1024
  bitPeriod := 1000
  clkEdge := .both .falling
  outMode := .interpret
  outEn := .both true
  outLabels := false
  rxSource := .link

/-- FREE VALUE (log 6, safe): which agent moves next when no event from outside is waiting. The spec gives no
order (R15, R266), so nothing can be proved of it. The step applies it to a counter. -/
opaque Config.idleAgent : Nat → IdleAgent

/-- FREE VALUE (log 22, safe): the bytes of a free input that never ends (R45: "a finite or infinite sequence of bytes"),
numbered from 0. Nothing is known of them. -/
opaque Config.rxByte : Nat → Byte

end Sys2Proof
end

