-- ==== Sys2Proof/Machine/State.lean ====
section
/-! DEFINITION. The state of the machine as plain data, its value right after reset, and the reasons a step can stop. -/

namespace Sys2Proof.Machine

/-- A byte memory: pairs of address and byte, addresses strictly rising. An address that is not listed has no value
(R293: "a model may represent them as absent"), so no listed entry can equal what an unlisted address reads as.
DESIGN CHOICE (log 3), safe. -/
abbrev Memory := List Host.Cell

/-- TrackChannel (R21, R22) and the edge selector (R23) of one track. -/
structure Channel where
  /-- `acc_val[t]`, `G` bits in the low end (log 19). -/
  accVal : BitVec 4
  /-- `acc_cnt[t]`. -/
  accCnt : Nat
  /-- `cp_sel[t]`. -/
  cpSel : EdgeDir
  deriving DecidableEq, Repr

/-- PacketQueue of one track (R24 to R26). -/
structure Queue where
  /-- `q[t].buf`, keyed by slot number. -/
  buf : Memory
  /-- `q[t].wr`. -/
  wr : Nat
  /-- `q[t].rd`. -/
  rd : Nat
  deriving DecidableEq, Repr

/-- The eleven values of `tx_state` (R27). -/
inductive TxState where
  | idle
  | start
  | d0
  | d1
  | d2
  | d3
  | d4
  | d5
  | d6
  | d7
  | stop
  deriving DecidableEq, Repr

/-- The transmitter's registers (R27 to R30). -/
structure Tx where
  /-- `tx_state`. -/
  state : TxState
  /-- `tx_shift`. -/
  shift : Byte
  /-- `tx_line`, the level of TXD. -/
  line : Bit
  /-- `tx_done`. -/
  done : Bool
  /-- `timer_armed`. -/
  armed : Bool
  /-- The byte given to the `send` that started the frame, which R176 appends to the link. DEDUCED (log 9), safe. -/
  byte : Byte
  deriving DecidableEq, Repr

/-- The main loop's sequencing state (R32). -/
structure MainLoop where
  /-- `ml_track`. -/
  track : Track
  /-- `ml_wait`. -/
  wait : Bool
  deriving DecidableEq, Repr

/-- The five interrupt sources (R257). -/
inductive IrqSource where
  | clk (t : Track)
  | cp (t : Track)
  | tmr
  deriving DecidableEq, Repr

/-- `irq_pend[s]`, one request latch a source (R33). -/
structure IrqPend where
  clk : PerTrack Bool
  cp : PerTrack Bool
  tmr : Bool
  deriving DecidableEq, Repr

/-- TrackBuffer and reassembler state of one track (R41 to R43). -/
structure HostTrack where
  /-- `tb[t]`, keyed by byte index. -/
  tb : Memory
  /-- `raw_len[t]`. -/
  rawLen : Nat
  /-- `pend[t]`: NONE or a count. -/
  pend : Option Nibble
  /-- `ovf[t]`. -/
  ovf : Bool
  deriving DecidableEq, Repr

/-- The events of the host output stream (R44). A text is its list of character bytes (R112, log 18). -/
inductive OutEvent where
  | line (t : Track) (text : List Byte)
  | unreadable (t : Track)
  | overflowDiag (t : Track)
  deriving DecidableEq, Repr

/-- The causes of a failing orientation (R253). -/
inductive Cause where
  | noSentinel
  | parity
  | noTerminator
  deriving DecidableEq, Repr

/-- The orientation of a decoding attempt (R231). -/
inductive Orientation where
  | forward
  | reversed
  deriving DecidableEq, Repr

/-- Where a decoding attempt stands. -/
inductive Phase where
  | search
  | groups
  | ok
  | failed (c : Cause)
  deriving DecidableEq, Repr

/-- The decoder's transients inside one STOP step (R46). -/
structure Decoder where
  /-- The format `f`. -/
  fmt : Track
  orient : Orientation
  /-- The working sequence `s` of this orientation. -/
  seq : List Bit
  /-- The scan position `i` in the search, the group position `p` in the group loop. -/
  pos : Nat
  phase : Phase
  /-- The characters emitted so far. -/
  chars : List Byte
  deriving DecidableEq, Repr

/-- How the free input goes on after the bytes that `rx` lists: R45 gives the host "a finite or infinite sequence of bytes",
and R201 tells a host that waits for its next byte from one whose input has ended (log 15, log 22). -/
inductive RxRest where
  /-- No byte has arrived yet after those listed; more may arrive (R201: the host waits). -/
  | waiting
  /-- No further byte: the input ends after those listed (R211). -/
  | ended
  /-- Infinitely many bytes follow, the free bytes `Config.rxByte`. -/
  | unending
  deriving DecidableEq, Repr

/-- What the input holds, in the order of service (R34, R116, R262; log 5). -/
inductive Event where
  /-- `ClkEdge(t, d)`: the clock handler of track `t` is served and reads level `d`. -/
  | clkEdge (t : Track) (d : Bit)
  /-- `CpEdge(t)`: the card-present handler is served for track `t`. -/
  | cpEdge (t : Track)
  /-- `Tick`: one compare match of the bit timer is served. -/
  | tick
  /-- One turn of the main loop (`MAIN` of R116). -/
  | main
  /-- One turn of the host loop (R201). -/
  | host
  /-- An edge of direction `e` arrives on `CLK[t]`: it may set a request latch (R33, R258; log 8). -/
  | clkLine (t : Track) (e : EdgeDir)
  /-- An edge of direction `e` arrives on `CP[t]` (R33, R259; log 8). -/
  | cpLine (t : Track) (e : EdgeDir)
  /-- The bit timer's counter meets its compare register (R33, R260; log 8). -/
  | timerMatch
  /-- A further byte arrives on a free input that has not ended (R45). -/
  | rxByte (b : Byte)
  /-- A free input that has not ended ends (R45, R211). -/
  | rxEnd
  deriving DecidableEq, Repr

/-- Everything the spec gives the machine (INVENTORY.md, State), and the model's own `rxTaken`, `events` and `choices`. -/
structure State where
  /-- `acc_val`, `acc_cnt`, `cp_sel` (R21 to R23). -/
  chan : PerTrack Channel
  /-- `q[t]` (R24 to R26). -/
  queue : PerTrack Queue
  /-- The transmitter and its timer (R27 to R30). -/
  tx : Tx
  /-- `ml_track`, `ml_wait` (R32). -/
  ml : MainLoop
  /-- `irq_pend` (R33). -/
  irq : IrqPend
  /-- `link`, head first (R40). -/
  link : List Byte
  /-- `rx` as a free input, head first: the bytes that have arrived and are not yet consumed (R45). -/
  rx : List Byte
  /-- What follows those bytes (R45, R201, R211; log 15). -/
  rxRest : RxRest
  /-- The MODEL's own: how many bytes of an unending free input have been drawn (log 22). -/
  rxTaken : Nat
  /-- The host loop has ended (R211). -/
  hostStopped : Bool
  /-- `tb`, `raw_len`, `pend`, `ovf` (R41 to R43). -/
  host : PerTrack HostTrack
  /-- `out`, oldest first (R44). -/
  out : List OutEvent
  /-- The decoder's transients: none but inside a STOP step (R46, log 11). -/
  dec : Option Decoder
  /-- The constants of the run (R37). -/
  cfg : Params
  /-- The MODEL's own: the events still to be served (log 5). -/
  events : List Event
  /-- The MODEL's own: how many free choices of the next agent have been drawn (log 6). -/
  choices : Nat
  deriving DecidableEq, Repr

/-- One track's channel at reset (R47, R291). -/
def Channel.reset : Channel := ⟨0#4, 0, .falling⟩

/-- One queue at reset (R47, R291): both cursors 0, no slot written. -/
def Queue.reset : Queue := ⟨[], 0, 0⟩

/-- The transmitter at reset (R47, R291). `tx_shift` and the byte of the frame have no value in the spec: 0, DESIGN
CHOICE (log 2), unsafe. -/
def Tx.reset : Tx := ⟨.idle, 0x00#8, true, true, false, 0x00#8⟩

/-- One track's host state at reset (R47, R292). -/
def HostTrack.reset : HostTrack := ⟨[], 0, none, false⟩

/-- The machine right after reset (R47, R290 to R294). -/
def State.reset : State where
  chan := .both .reset
  queue := .both .reset
  tx := .reset
  ml := ⟨.t2, false⟩
  irq := ⟨.both false, .both false, false⟩
  link := []
  rx := []
  rxRest := .waiting
  rxTaken := 0
  hostStopped := false
  host := .both .reset
  out := []
  dec := none
  cfg := .default
  events := []
  choices := 0

/-- Why the machine stops with a fault. Each is raised in states that no run reaches only (`State.Inv` rules them out). -/
inductive Fault where
  /-- Raised by FRAME when `tx_state` is not IDLE: "A call in any other state is outside the hardware's contract and
  the model gives it no step" (R172); U5's treatment is `stuck`. Safe. -/
  | sendWhileBusy
  /-- Raised by the main loop's DEQUEUE when the slot to read has not been written since reset (R69 (a): no run does
  so). Safe. -/
  | unwrittenSlot
  /-- Raised by STOP when a bit below `raw_len[t]` lies in a byte that has not been written since reset (R70: no run
  does so). Safe. -/
  | unwrittenBit
  deriving DecidableEq, Repr

/-- Why the model gives a state no step for an instruction. -/
inductive Refusal where
  /-- Raised by the dispatch for an instruction whose meaning is still to be written. Safe. -/
  | notModelled (mnemonic : String)
  /-- Raised by SIZE when `pend[t]` is a count and by BITS when it is NONE: in that state the byte is the other row
  (R102, R202), so no decoding gives it (log 12). Safe. -/
  | rowNotSelected
  /-- Raised by a character group outside the phase of a decoding attempt of its format that reads it: the transients
  it acts on live inside a STOP step only (R46, log 11). Safe. -/
  | notDecoding
  deriving DecidableEq, Repr

end Sys2Proof.Machine
end

