-- ==== Sys2Proof/Machine/Operands.lean ====
section
/-! DEFINITION. The operand forms: how an operand's bits are read and placed. -/

namespace Sys2Proof.Machine

/-- The logical bit of a data-line level: `b = 1 - d` (R131). -/
def logicalBit (d : Bit) : Bit := !d

/-- The slot that cursor `c` designates (R61). -/
def slotOf (qcap c : Nat) : Nat := c % qcap

/-- A cursor advanced by one (R61). -/
def cursorNext (qcap c : Nat) : Nat := (c + 1) % (2 * qcap)

/-- The byte of the TrackBuffer that holds bit `i` (R70). -/
def tbByteOf (i : Nat) : Nat := i / 8

/-- The position of bit `i` inside its byte: MSB first (R70). -/
def tbBitOf (i : Nat) : Nat := 7 - i % 8

/-- Byte `x` with bit `j` replaced by `b`. -/
def setBit (x : Byte) (j : Nat) (b : Bit) : Byte :=
  if b then x ||| (1#8 <<< j) else x &&& ~~~(1#8 <<< j)

/-- Bit `i` of the nibble as a number: `zext_16(N)[i]` (R206, R208). -/
def nibbleBit (n : Nibble) (i : Nat) : Bit := (BitVec.setWidth 16 n).getLsbD i

/-- The `k` bits that BITS appends, in the order of appending: `x[k-1]` first, `x[0]` last (R206). -/
def fieldBits (n : Nibble) : Nat → List Bit
  | 0 => []
  | k + 1 => nibbleBit n k :: fieldBits n k

/-- The accumulator after one bit: `((acc_val << 1) | b)[G-1:0]` (R132). -/
def accShift (g : Nat) (a : BitVec 4) (b : Bit) : BitVec 4 :=
  ((a <<< 1) ||| (if b then 1#4 else 0#4)) &&& BitVec.ofNat 4 (2 ^ g - 1)

/-- `Win(s, p, W)`: the sum over k of `s[p+k] << k` (R113, R222). Used only where `p + W <= len(s)`. -/
def win (s : List Bit) (p w : Nat) : Group := BitVec.ofNat 7 (bitsVal ((s.drop p).take w))

/-- The character of a group: `(g & DMASK) + OFF` (R112). -/
def groupChar (f : Track) (g : Group) : Byte := BitVec.setWidth 8 (g &&& fmtDmask f) + fmtOff f

/-- The window or group value at the decoder's position (R46, R222). -/
def Decoder.window (d : Decoder) : Group := win d.seq d.pos (fmtWidth d.fmt)

/-- A whole window of real bits is left at the decoder's position (R223, R229). -/
def Decoder.hasWindow (d : Decoder) : Bool := decide (d.pos + fmtWidth d.fmt ≤ d.seq.length)

/-- `BinaryText(s)` of R234: `'1'` (0x31) for a 1, `'0'` (0x30) for a 0. -/
def binaryText (s : List Bit) : List Byte := s.map fun b => if b then 0x31#8 else 0x30#8

end Sys2Proof.Machine
end

