-- ==== Sys2Proof/Machine/Flags.lean ====
section
/-! DEFINITION. The tests and derived levels: occupancy, empty and full, parity, busy, quiescence. The hardware has no
condition codes (R36); these are computed where they are used. -/

namespace Sys2Proof.Machine

/-- `occ(t) = (wr - rd) mod (2*QCAP)` (R64), for cursors in their range [0, 2*QCAP) (R25, R26; log 21). -/
def Queue.occ (qcap : Nat) (q : Queue) : Nat := (q.wr + 2 * qcap - q.rd) % (2 * qcap)

/-- "empty when `occ(t)` = 0" (R65). -/
def Queue.empty (qcap : Nat) (q : Queue) : Bool := q.occ qcap == 0

/-- "full when `occ(t)` = QCAP" (R65). -/
def Queue.full (qcap : Nat) (q : Queue) : Bool := q.occ qcap == qcap

/-- The number of 1 bits of a group (R13). -/
def popcount (g : Group) : Nat := ((bitsLsb 7 g.toNat).filter id).length

/-- "A group `g` is valid when `popcount(g)` is odd, the parity bit counted" (R111). -/
def groupValid (g : Group) : Bool := popcount g % 2 == 1

/-- `busy` of R31: 1 while either track is mid-swipe. -/
def State.busy (s : State) : Bool := s.chan.t1.cpSel == .rising || s.chan.t2.cpSel == .rising

/-- The level of the status indicator: the inverse of `busy` (R31, R297). -/
def State.indicator (s : State) : Bool := !s.busy

/-- Quiescence of the capture side (R311). "The event input is exhausted" is read as: nothing waits in `events`, the one
merged list, so a host turn or an arrival on the free input that still waits there counts too. DESIGN CHOICE (log 24), safe
for claims that start from quiescence. -/
def State.quiescent (s : State) : Bool :=
  s.events.isEmpty && s.queue.t1.empty s.cfg.qcap && s.queue.t2.empty s.cfg.qcap && s.tx.state == .idle && !s.ml.wait

end Sys2Proof.Machine
end

