-- ==== Sys2Proof/Machine/Ops.lean ====
section
/-! DEFINITION. The named operations over registers and memories: the one writer of each part of State, the byte
memory, PacketQueue (R61 to R69), TrackBuffer (R70 to R76), conditions (R250), interrupts (R262, R268). -/

namespace Sys2Proof.Machine

/-! ## Writers of State -/

def State.setChan (s : State) (t : Track) (c : Channel) : State := { s with chan := s.chan.set t c }
def State.setQueue (s : State) (t : Track) (q : Queue) : State := { s with queue := s.queue.set t q }
def State.setTx (s : State) (x : Tx) : State := { s with tx := x }
def State.setMl (s : State) (m : MainLoop) : State := { s with ml := m }
def State.setIrq (s : State) (i : IrqPend) : State := { s with irq := i }
def State.setLink (s : State) (l : List Byte) : State := { s with link := l }
def State.setRx (s : State) (l : List Byte) : State := { s with rx := l }
def State.setRxRest (s : State) (r : RxRest) : State := { s with rxRest := r }
def State.setRxTaken (s : State) (n : Nat) : State := { s with rxTaken := n }
def State.setHostStopped (s : State) (b : Bool) : State := { s with hostStopped := b }
def State.setHost (s : State) (t : Track) (h : HostTrack) : State := { s with host := s.host.set t h }
def State.setDec (s : State) (d : Option Decoder) : State := { s with dec := d }
def State.setEvents (s : State) (l : List Event) : State := { s with events := l }
def State.setChoices (s : State) (n : Nat) : State := { s with choices := n }

/-- `emit(e)`: append event `e` to the host output stream (R14, R44). -/
def emit (e : OutEvent) (s : State) : State := { s with out := s.out ++ [e] }

/-! ## The byte memory -/

/-- The byte at address `a`, none if nothing has written it. -/
def Memory.read : Memory → Nat → Option Byte
  | [], _ => none
  | (x, y) :: m, a => if x = a then some y else Memory.read m a

/-- The memory with byte `v` at address `a`; the list stays strictly rising. -/
def Memory.write : Memory → Nat → Byte → Memory
  | [], a, v => [(a, v)]
  | (x, y) :: m, a, v =>
    if a < x then (a, v) :: (x, y) :: m
    else if a = x then (a, v) :: m
    else (x, y) :: Memory.write m a v

/-- The canonical form: addresses strictly rising. -/
def Memory.wf : Memory → Bool
  | [] => true
  | [_] => true
  | (x, _) :: (y, v) :: m => decide (x < y) && Memory.wf ((y, v) :: m)

/-! ## Conditions (R250) -/

/-- The conditions that the core can raise. Condition 4, ConfigurationFailure, belongs to the excluded layers (R254). -/
inductive Condition where
  | captureOverflow (t : Track)
  | reassemblyOverflow (t : Track)
  | decodeFailure (t : Track)
  deriving DecidableEq, Repr

/-- The condition's code, its number in the taxonomy (R250). -/
def Condition.code : Condition → Nat
  | .captureOverflow _ => 1
  | .reassemblyOverflow _ => 2
  | .decodeFailure _ => 3

/-- `raise`: "do what this table's 'recorded as' column says and go on with the rule" (R250): condition 1 records
nothing (R251), condition 2 sets `ovf[t]` and reports OverflowDiag (R252), condition 3 reports Unreadable (R253). -/
def raise (c : Condition) (s : State) : State :=
  match c with
  | .captureOverflow _ => s
  | .reassemblyOverflow t => emit (.overflowDiag t) (s.setHost t { s.host.get t with ovf := true })
  | .decodeFailure t => emit (.unreadable t) s

/-! ## PacketQueue -/

/-- `QRead(t, i)` (R62). -/
def qRead (t : Track) (i : Nat) (s : State) : Option Byte := (s.queue.get t).buf.read i

/-- `QWrite(t, i, v)` (R63). -/
def qWrite (t : Track) (i : Nat) (v : Byte) (s : State) : State :=
  s.setQueue t { s.queue.get t with buf := (s.queue.get t).buf.write i v }

/-- `q[t].wr <- (q[t].wr + 1) mod (2*QCAP)` (R61, R67). -/
def wrAdvance (t : Track) (s : State) : State :=
  s.setQueue t { s.queue.get t with wr := cursorNext s.cfg.qcap (s.queue.get t).wr }

/-- `q[t].rd <- (q[t].rd + 1) mod (2*QCAP)` (R61, R68). -/
def rdAdvance (t : Track) (s : State) : State :=
  s.setQueue t { s.queue.get t with rd := cursorNext s.cfg.qcap (s.queue.get t).rd }

/-- `Enqueue(t, v)` (R67): the newest byte is dropped at a full queue; else the slot first, then the cursor. -/
def enqueue (t : Track) (v : Byte) (s : State) : State :=
  if (s.queue.get t).full s.cfg.qcap then raise (.captureOverflow t) s
  else wrAdvance t (qWrite t (slotOf s.cfg.qcap (s.queue.get t).wr) v s)

/-- `Dequeue(t)` (R68): the slot first, then the cursor. None where the slot has not been written since reset. -/
def dequeue (t : Track) (s : State) : Option (Byte × State) :=
  match qRead t (slotOf s.cfg.qcap (s.queue.get t).rd) s with
  | some v => some (v, rdAdvance t s)
  | none => none

/-- `n` entries of a queue from cursor `c` on: entry `j` is `QRead(t, (c + j) mod QCAP)`. None if one of them has not
been written since reset. -/
def readSlots (qcap : Nat) (m : Memory) : Nat → Nat → Option (List Byte)
  | _, 0 => some []
  | c, n + 1 =>
    match m.read (slotOf qcap c), readSlots qcap m (c + 1) n with
    | some v, some vs => some (v :: vs)
    | _, _ => none

/-- The unread entries of queue `t`, oldest first (R64). -/
def unread (t : Track) (s : State) : Option (List Byte) :=
  readSlots s.cfg.qcap (s.queue.get t).buf (s.queue.get t).rd ((s.queue.get t).occ s.cfg.qcap)

/-! ## TrackBuffer -/

/-- Bit `i` of a TrackBuffer: `tb[i div 8][7 - (i mod 8)]` (R70, R73). None in a byte that nothing has written. -/
def tbBit (m : Memory) (i : Nat) : Option Bit :=
  match m.read (tbByteOf i) with
  | some x => some (x.getLsbD (tbBitOf i))
  | none => none

/-- The byte that a bit is put into when nothing has written that byte yet: the other bits are unspecified (R293) and
never read (R70). DESIGN CHOICE 0x00 (log 4), unsafe. -/
def tbFill : Byte := 0x00#8

/-- The TrackBuffer with bit `i` set to `b` (R74). -/
def tbPut (m : Memory) (i : Nat) (b : Bit) : Memory :=
  m.write (tbByteOf i) (setBit ((m.read (tbByteOf i)).getD tbFill) (tbBitOf i) b)

/-- `TBRead(t, i)` (R73). -/
def tbRead (t : Track) (i : Nat) (s : State) : Option Bit := tbBit (s.host.get t).tb i

/-- The first `n` bits of a TrackBuffer. None if one of them lies in a byte that nothing has written. -/
def readBits (m : Memory) : Nat → Option (List Bit)
  | 0 => some []
  | n + 1 =>
    match readBits m n, tbBit m n with
    | some l, some b => some (l ++ [b])
    | _, _ => none

/-- `raw[t][0 .. raw_len[t]-1]` (R41, R71, R204). -/
def rawSeq (t : Track) (s : State) : Option (List Bit) := readBits (s.host.get t).tb (s.host.get t).rawLen

/-- `TBAppend(t, b)` (R74). -/
def tbAppend (t : Track) (b : Bit) (s : State) : State :=
  let h := s.host.get t
  if h.ovf then s
  else if h.rawLen = s.cfg.tbcap then raise (.reassemblyOverflow t) s
  else s.setHost t { h with tb := tbPut h.tb h.rawLen b, rawLen := h.rawLen + 1 }

/-- `TBClear(t)` (R75): "Byte contents need not be erased", and they are not. -/
def tbClear (t : Track) (s : State) : State :=
  s.setHost t { s.host.get t with rawLen := 0, ovf := false }

/-- `Reverse(s)` of R76: `r[i] = s[n-1-i]`. -/
def reverseSeq (s : List Bit) : List Bit := s.reverse

/-! ## Interrupts -/

def IrqPend.get (i : IrqPend) : IrqSource → Bool
  | .clk t => i.clk.get t
  | .cp t => i.cp.get t
  | .tmr => i.tmr

def IrqPend.set (i : IrqPend) (src : IrqSource) (b : Bool) : IrqPend :=
  match src with
  | .clk t => { i with clk := i.clk.set t b }
  | .cp t => { i with cp := i.cp.set t b }
  | .tmr => { i with tmr := b }

/-- Taking an interrupt (R262): "No architectural state is saved or changed by entry itself"; the request latch is
"cleared when the handler for that source starts" (R33). -/
def takeInterrupt (src : IrqSource) (s : State) : State := s.setIrq (s.irq.set src false)

/-- The return from a handler (R268): "nothing is restored because nothing was saved". -/
def returnFromInterrupt (s : State) : State := s

/-- A request of source `src` reaches its latch (R33). A request that finds the latch set is lost (R267). -/
def latch (src : IrqSource) (s : State) : State := s.setIrq (s.irq.set src true)

/-! ## Outcomes -/

/-- Run `f` after an outcome that is a next state. -/
def andThen (o : Host.Outcome State Fault Refusal) (f : State → Host.Outcome State Fault Refusal) :
    Host.Outcome State Fault Refusal :=
  match o with
  | .next s => f s
  | .fault r => .fault r
  | .refused r => .refused r

end Sys2Proof.Machine
end

