-- ==== Sys2Proof/Machine/PacketFramer.lean ====
section
/-! DEFINITION. The Packet Framer (R150 to R157): `onStart`, `onStop`, `onFlush`. -/

namespace Sys2Proof.Machine

/-- `acc_val[t] <- 0; acc_cnt[t] <- 0`. -/
def clearAcc (t : Track) (s : State) : State :=
  s.setChan t { s.chan.get t with accVal := 0#4, accCnt := 0 }

/-- `onStart(t)` (R151). -/
def onStart (t : Track) (s : State) : State := enqueue t (mkStart t) s

/-- `onFlush(t, bitCount, bits)` (R153): the SIZE byte, then the BITS byte; each may be dropped on its own (R156). -/
def onFlush (t : Track) (bitCount : Nat) (bits : BitVec 4) (s : State) : State :=
  enqueue t (mkData t bits) (enqueue t (mkData t (BitVec.ofNat 4 bitCount)) s)

/-- `onStop(t)` (R152): a partial group is flushed, an empty accumulator produces no pair; then the STOP byte. -/
def onStop (t : Track) (s : State) : State :=
  let c := s.chan.get t
  enqueue t (mkStop t) (clearAcc t (if 0 < c.accCnt then onFlush t c.accCnt c.accVal s else s))

end Sys2Proof.Machine
end

