-- ==== Sys2Proof/Machine/BitSampler.lean ====
section
/-! DEFINITION. The Bit Sampler (R130 to R139): the clock handler and the card-present handler. -/

namespace Sys2Proof.Machine

/-- `sample(t, b)` (R132): for every clock event, whatever `cp_sel[t]` is (R135). -/
def sample (t : Track) (b : Bit) (s : State) : State :=
  let c := s.chan.get t
  let v := accShift s.cfg.g c.accVal b
  let s1 := s.setChan t { c with accVal := v, accCnt := c.accCnt + 1 }
  if c.accCnt + 1 = s.cfg.g then clearAcc t (onFlush t s.cfg.g v s1) else s1

/-- `cp_sel[t] <- e` (R23). -/
def setCpSel (t : Track) (e : EdgeDir) (s : State) : State :=
  s.setChan t { s.chan.get t with cpSel := e }

/-- `start(t)` (R137). -/
def startSwipe (t : Track) (s : State) : State := setCpSel t .rising (clearAcc t (onStart t s))

/-- `stop(t)` (R138). -/
def stopSwipe (t : Track) (s : State) : State := setCpSel t .falling (onStop t s)

/-- The card-present handler for track `t` (R136): the action is chosen by `cp_sel[t]` alone. -/
def cardPresent (t : Track) (s : State) : State :=
  match (s.chan.get t).cpSel with
  | .falling => startSwipe t s
  | .rising => stopSwipe t s

/-- `ClkEdge(t, d)` served: the clock handler of track `t` (R131, R132, R258). -/
def serveClkEdge (t : Track) (d : Bit) (s : State) : State :=
  returnFromInterrupt (sample t (logicalBit d) (takeInterrupt (.clk t) s))

/-- `CpEdge(t)` served: the shared card-present handler acting for track `t` (R136, R259). -/
def serveCpEdge (t : Track) (s : State) : State :=
  returnFromInterrupt (cardPresent t (takeInterrupt (.cp t) s))

/-- An edge on `CLK[t]`: only the active edge raises a request (R34, R258). -/
def lineClkEdge (t : Track) (e : EdgeDir) (s : State) : State :=
  if e = s.cfg.clkEdge.get t then latch (.clk t) s else s

/-- An edge on `CP[t]`: only the watched direction raises a request; "An edge of the direction not watched raises
nothing and is not remembered" (R259). -/
def lineCpEdge (t : Track) (e : EdgeDir) (s : State) : State :=
  if e = (s.chan.get t).cpSel then latch (.cp t) s else s

end Sys2Proof.Machine
end

