-- ==== Sys2Proof/Machine/LinkTransmitter.lean ====
section
/-! DEFINITION. The Link Transmitter (R170 to R186): `send`, which is the instruction FRAME, and the timer's `Tick`.
The main loop's steps stand in Machine/Agents.lean, since they run FRAME. -/

namespace Sys2Proof.Machine

/-- `send(b)` (R172). -/
def send (b : Byte) (s : State) : State :=
  s.setTx { state := .start, shift := b, line := false, done := false, armed := true, byte := b }

/-- FRAME: the frame of `b` begins (R172); ten Ticks later it is complete (R178). `send` is enabled in IDLE only: in
any other state it has no step (U5), a stuck state. -/
def execFrame (b : Byte) (s : State) : Host.Outcome State Fault Refusal :=
  if s.tx.state = .idle then .next (send b s) else .fault .sendWhileBusy

/-- The next data bit goes on the line: `tx_line <- tx_shift[0]; tx_shift <- tx_shift >> 1` (R173, R174). -/
def shiftOut (nextState : TxState) (x : Tx) : Tx :=
  { x with line := x.shift.getLsbD 0, shift := x.shift >>> 1, state := nextState }

/-- The stop bit goes on the line (R175). -/
def stopBit (x : Tx) : Tx := { x with line := true, state := .stop }

/-- The end of the stop bit (R176). -/
def frameEnd (x : Tx) : Tx := { x with state := .idle, armed := false, done := true }

/-- `Tick` by `tx_state` (R173 to R177). -/
def tick (s : State) : State :=
  match s.tx.state with
  | .idle => s
  | .start => s.setTx (shiftOut .d0 s.tx)
  | .d0 => s.setTx (shiftOut .d1 s.tx)
  | .d1 => s.setTx (shiftOut .d2 s.tx)
  | .d2 => s.setTx (shiftOut .d3 s.tx)
  | .d3 => s.setTx (shiftOut .d4 s.tx)
  | .d4 => s.setTx (shiftOut .d5 s.tx)
  | .d5 => s.setTx (shiftOut .d6 s.tx)
  | .d6 => s.setTx (shiftOut .d7 s.tx)
  | .d7 => s.setTx (stopBit s.tx)
  | .stop => (s.setTx (frameEnd s.tx)).setLink (s.link ++ [s.tx.byte])

/-- `Tick` served. While `timer_armed` = 0 no Tick occurs (R173, R177, R179): such an event changes nothing (log 7). -/
def serveTick (s : State) : State :=
  if s.tx.armed then returnFromInterrupt (tick (takeInterrupt .tmr s)) else s

/-- A compare match of the bit timer, "while `timer_armed` = 1" (R33, R260). -/
def compareMatch (s : State) : State := if s.tx.armed then latch .tmr s else s

end Sys2Proof.Machine
end

