-- ==== Sys2Proof/Machine/TrackDecoder.lean ====
section
/-! DEFINITION. The Track Decoder (R220 to R236): `DecodeOne` and `Decode` as functions of a bit sequence and a
format, as R46 allows, and the meanings of the character-group rows, which act on the decoder's transients. -/

namespace Sys2Proof.Machine

/-! ## The decoder as a function -/

/-- The least `i` with `Win(s, i, W) = SENT` and `i + W <= len(s)` (R223). -/
def findSentinel (f : Track) : List Bit → Option Nat
  | [] => none
  | b :: bs =>
    if fmtWidth f ≤ (b :: bs).length ∧ win (b :: bs) 0 (fmtWidth f) = fmtSent f then some 0
    else (findSentinel f bs).map (· + 1)

/-- The group loop of `DecodeOne` (R225 to R230) from position `p` with the characters so far. The second argument
bounds the number of groups; `len(s)` of them never run out. -/
def groupLoop (f : Track) (s : List Bit) : Nat → Nat → List Byte → Except Cause (List Byte)
  | 0, _, _ => .error .noTerminator
  | n + 1, p, chars =>
    if s.length < p + fmtWidth f then .error .noTerminator
    else
      let g := win s p (fmtWidth f)
      if groupValid g then
        let chars' := chars ++ [groupChar f g]
        if g = fmtTerm f then .ok chars' else groupLoop f s n (p + fmtWidth f) chars'
      else .error .parity

/-- `DecodeOne(s, f)` (R230). -/
def decodeOne (s : List Bit) (f : Track) : Except Cause (List Byte) :=
  match findSentinel f s with
  | none => .error .noSentinel
  | some i0 => groupLoop f s s.length (i0 + fmtWidth f) [groupChar f (fmtSent f)]

/-- `Decode(s, f)` (R232): forward, then once reversed. A failure carries the cause of each orientation (R253). -/
def decodeTrack (s : List Bit) (f : Track) : Except (Cause × Cause) (List Byte) :=
  match decodeOne s f with
  | .ok chars => .ok chars
  | .error c =>
    match decodeOne (reverseSeq s) f with
    | .ok chars => .ok chars
    | .error c' => .error (c, c')

/-! ## The decoder's transients (R46) -/

/-- The start of an attempt in one orientation (R223, R231). -/
def Decoder.start (f : Track) (o : Orientation) (s : List Bit) : Decoder :=
  { fmt := f, orient := o, seq := s, pos := 0, phase := .search, chars := [] }

/-- The attempt fails: "The result of a failing orientation carries no characters" (R230). -/
def Decoder.fail (c : Cause) (d : Decoder) : Decoder := { d with phase := .failed c, chars := [] }

/-- The search slides on by one bit (R223). -/
def Decoder.slide (d : Decoder) : Decoder := { d with pos := d.pos + 1 }

/-- The sentinel is found: it is the first character and anchors the groups (R223 to R225). -/
def Decoder.sentinel (d : Decoder) : Decoder :=
  { d with phase := .groups, pos := d.pos + fmtWidth d.fmt, chars := [groupChar d.fmt (fmtSent d.fmt)] }

/-- One group of the group loop: parity, emit, compare with the terminator, advance (R225 to R228). -/
def Decoder.group (g : Group) (d : Decoder) : Decoder :=
  if groupValid g then
    if g = fmtTerm d.fmt then { d with chars := d.chars ++ [groupChar d.fmt g], phase := .ok }
    else { d with chars := d.chars ++ [groupChar d.fmt g], pos := d.pos + fmtWidth d.fmt }
  else d.fail .parity

/-- The sentinel row of format `f`, in the search of an attempt of that format. -/
def sentinelRow (f : Track) (s : State) : Host.Outcome State Fault Refusal :=
  match s.dec with
  | some d => if d.fmt = f ∧ d.phase = .search then .next (s.setDec (some d.sentinel)) else .refused .notDecoding
  | none => .refused .notDecoding

/-- A group row of format `f`, in the group loop of an attempt of that format. -/
def groupRow (f : Track) (g : Group) (s : State) : Host.Outcome State Fault Refusal :=
  match s.dec with
  | some d => if d.fmt = f ∧ d.phase = .groups then .next (s.setDec (some (d.group g))) else .refused .notDecoding
  | none => .refused .notDecoding

/-- CHAR2 (R226, R227). -/
def execChar2 (p : BitVec 1) (d : BitVec 4) (s : State) : Host.Outcome State Fault Refusal := groupRow .t2 (group2 p d) s

/-- SENT2 (R223, R224). -/
def execSent2 (s : State) : Host.Outcome State Fault Refusal := sentinelRow .t2 s

/-- TERM2 (R226 to R228). -/
def execTerm2 (s : State) : Host.Outcome State Fault Refusal := groupRow .t2 (fmtTerm .t2) s

/-- CHAR1 (R226, R227). -/
def execChar1 (p : BitVec 1) (d : BitVec 6) (s : State) : Host.Outcome State Fault Refusal := groupRow .t1 (group1 p d) s

/-- SENT1 (R223, R224). -/
def execSent1 (s : State) : Host.Outcome State Fault Refusal := sentinelRow .t1 s

/-- TERM1 (R226 to R228). -/
def execTerm1 (s : State) : Host.Outcome State Fault Refusal := groupRow .t1 (fmtTerm .t1) s

end Sys2Proof.Machine
end

