-- ==== Sys2Proof/Machine/PacketReassembler.lean ====
section
/-! DEFINITION. The Packet Reassembler (R200 to R213): the meanings of START, STOP, SIZE and BITS. Taking the byte from
the input is the host loop's (R201; Machine/Agents.lean). -/

namespace Sys2Proof.Machine

/-- `pend[t] <- p` (R42). -/
def setPend (t : Track) (p : Option Nibble) (s : State) : State := s.setHost t { s.host.get t with pend := p }

/-- START (R203). -/
def execStart (t : Track) (s : State) : Host.Outcome State Fault Refusal := .next (setPend t none (tbClear t s))

/-- What STOP reports of the sequence `raw[t]` (R204, R233, R234). -/
def report (t : Track) (seq : List Bit) (s : State) : State :=
  match s.cfg.outMode with
  | .interpret =>
    match decodeTrack seq t with
    | .ok chars => emit (.line t chars) s
    | .error _ => raise (.decodeFailure t) s
  | .binary => emit (.line t (binaryText seq)) s

/-- STOP (R204): nothing changes but `out`. -/
def execStop (t : Track) (s : State) : Host.Outcome State Fault Refusal :=
  if s.cfg.outEn.get t then
    match rawSeq t s with
    | some seq => .next (report t seq s)
    | none => .fault .unwrittenBit
  else .next s

/-- SIZE (R205), selected when `pend[t]` = NONE (R202). -/
def execSize (t : Track) (k : Nibble) (s : State) : Host.Outcome State Fault Refusal :=
  match (s.host.get t).pend with
  | none => .next (setPend t (some k) s)
  | some _ => .refused .rowNotSelected

/-- The appends of BITS, first bit first (R206). -/
def appendBits (t : Track) : List Bit → State → State
  | [], s => s
  | b :: bs, s => appendBits t bs (tbAppend t b s)

/-- BITS (R206), selected when `pend[t]` is a count (R202); a count above 4 reads the nibble zero-extended (R208). -/
def execBits (t : Track) (v : Nibble) (s : State) : Host.Outcome State Fault Refusal :=
  match (s.host.get t).pend with
  | some k => .next (setPend t none (appendBits t (fieldBits v k.toNat) s))
  | none => .refused .rowNotSelected

end Sys2Proof.Machine
end

