-- ==== Sys2Proof/Machine/Dispatch.lean ====
section
/-! DEFINITION. The dispatch: one arm for each row of spec/opcode_table.json. -/

namespace Sys2Proof.Machine

def exec (i : Instr) (s : State) : Host.Outcome State Fault Refusal :=
  match i with
  | .start t => Sys2Proof.Machine.execStart t s
  | .stop t => Sys2Proof.Machine.execStop t s
  | .size t k => Sys2Proof.Machine.execSize t k s
  | .bits t v => Sys2Proof.Machine.execBits t v s
  | .frame b => Sys2Proof.Machine.execFrame b s
  | .char2 p d => Sys2Proof.Machine.execChar2 p d s
  | .sent2 => Sys2Proof.Machine.execSent2 s
  | .term2 => Sys2Proof.Machine.execTerm2 s
  | .char1 p d => Sys2Proof.Machine.execChar1 p d s
  | .sent1 => Sys2Proof.Machine.execSent1 s
  | .term1 => Sys2Proof.Machine.execTerm1 s

end Sys2Proof.Machine
end

