-- ==== Sys2Proof/Machine/Agents.lean ====
section
/-! DEFINITION. The agents' steps around `exec`: the main loop (R182, R183), the host loop (R201), the decoder's walk
over a sequence (R223 to R232), and the service of one event. -/

namespace Sys2Proof.Machine

/-! ## The main loop -/

/-- `ml_track <- (1 if t == 2 else 2)` (R182). -/
def turnTrack (s : State) : State := s.setMl { s.ml with track := s.ml.track.other }

/-- `ml_wait <- w` (R182, R183). -/
def setWait (w : Bool) (s : State) : State := s.setMl { s.ml with wait := w }

/-- The step DEQUEUE (R182): the next byte of the track in turn is taken and its FRAME is run; an empty queue passes the
turn. -/
def mainDequeue (s : State) : Host.Outcome State Fault Refusal :=
  if (s.queue.get s.ml.track).empty s.cfg.qcap then .next (turnTrack s)
  else
    match dequeue s.ml.track s with
    | some (b, s1) => andThen (exec (.frame b) s1) fun s2 => .next (setWait true s2)
    | none => .fault .unwrittenSlot

/-- One turn of the main loop: DEQUEUE, or WAIT (R183). "While `ml_wait` = 1 and `tx_done` = 0 the main loop has no
enabled step": the turn changes nothing (V-T3; log 7). -/
def mainStep (s : State) : Host.Outcome State Fault Refusal :=
  if s.ml.wait then
    if s.tx.done then .next (setWait false s) else .next s
  else mainDequeue s

/-! ## The host loop -/

/-- `pend` of both tracks: the mode bits of the wire decoder (R102). -/
def pendOf (s : State) : PerTrack (Option Nibble) := ⟨s.host.t1.pend, s.host.t2.pend⟩

/-- The first byte of the free input and the state with that byte removed (R45): a byte that has arrived, or the next free
byte of an input that never ends (log 22). -/
def streamInput (s : State) : Option (Byte × State) :=
  match s.rx with
  | b :: l => some (b, s.setRx l)
  | [] =>
    match s.rxRest with
    | .unending => some (Config.rxByte s.rxTaken, s.setRxTaken (s.rxTaken + 1))
    | .waiting => none
    | .ended => none

/-- The first byte of the host's input and the state with that byte removed (R45, R201). -/
def hostInput (s : State) : Option (Byte × State) :=
  match s.cfg.rxSource with
  | .link =>
    match s.link with
    | [] => none
    | b :: l => some (b, s.setLink l)
  | .stream => streamInput s

/-- The host's input has ended: a free input after its last byte. The link never ends (R40; log 15). -/
def inputEnded (s : State) : Bool := s.cfg.rxSource == .stream && s.rxRest == .ended

/-- No byte is there: "it is waiting", or, "when `rx` has ended the host stops" (R201, R211; log 15). -/
def hostNoInput (s : State) : State := if inputEnded s then s.setHostStopped true else s

/-- A byte arrives on the free input, while more may arrive (R45). -/
def rxArrive (b : Byte) (s : State) : State :=
  match s.rxRest with
  | .waiting => s.setRx (s.rx ++ [b])
  | .ended => s
  | .unending => s

/-- The free input ends, while more may arrive (R45, R211). -/
def rxFinish (s : State) : State :=
  match s.rxRest with
  | .waiting => s.setRxRest .ended
  | .ended => s
  | .unending => s

/-- One piece of a decoding attempt in progress: the window or group at the position is decoded and run; the ends of an
attempt, the reversed retry and the report are R223, R229, R232 and R204. Between two steps of a run no attempt is in
progress (R46; log 11). -/
def decoderStep (d : Decoder) (s : State) : Host.Outcome State Fault Refusal :=
  match d.phase with
  | .search =>
    if d.hasWindow then
      match decodeSearch d.fmt d.window with
      | .ok i => exec i s
      | .error _ => .next (s.setDec (some d.slide))
    else .next (s.setDec (some (d.fail .noSentinel)))
  | .groups =>
    if d.hasWindow then exec (decodeGroup d.fmt d.window) s
    else .next (s.setDec (some (d.fail .noTerminator)))
  | .ok => .next (emit (.line d.fmt d.chars) (s.setDec none))
  | .failed _ =>
    match d.orient with
    | .forward => .next (s.setDec (some (Decoder.start d.fmt .reversed (reverseSeq d.seq))))
    | .reversed => .next (raise (.decodeFailure d.fmt) (s.setDec none))

/-- One turn of the host loop (R201): the first byte of the input is removed, decoded under `pend` and run. A host that
has stopped takes no step (R211). -/
def hostStep (s : State) : Host.Outcome State Fault Refusal :=
  if s.hostStopped then .next s
  else
    match s.dec with
    | some d => decoderStep d s
    | none =>
      match hostInput s with
      | some (b, s1) => exec (decodeWire (pendOf s) b) s1
      | none => .next (hostNoInput s)

/-! ## The service of one event -/

/-- One event of the input (R262): one whole step of one agent, a request that reaches its latch, or the
arrival of a byte or of the end on the free input (R45). -/
def serve (e : Event) (s : State) : Host.Outcome State Fault Refusal :=
  match e with
  | .clkEdge t d => .next (serveClkEdge t d s)
  | .cpEdge t => .next (serveCpEdge t s)
  | .tick => .next (serveTick s)
  | .main => mainStep s
  | .host => hostStep s
  | .clkLine t e => .next (lineClkEdge t e s)
  | .cpLine t e => .next (lineCpEdge t e s)
  | .timerMatch => .next (compareMatch s)
  | .rxByte b => .next (rxArrive b s)
  | .rxEnd => .next (rxFinish s)

/-- The event of an agent that moves without one from outside. -/
def idleEvent : IdleAgent → Event
  | .timer => .tick
  | .mainLoop => .main
  | .hostLoop => .host

/-! ## Placing a unit where it is fetched next -/

/-- The queue of the track in turn with `b` as its next byte. -/
def stageQueue (b : Byte) (s : State) : State :=
  let t := s.ml.track
  let q := s.queue.get t
  let s1 := qWrite t (slotOf s.cfg.qcap q.rd) b s
  if q.empty s.cfg.qcap then wrAdvance t s1 else s1

/-- Byte `b` as the next byte of the host's input. -/
def stageByte (b : Byte) (s : State) : State :=
  match s.cfg.rxSource with
  | .link => s.setLink (b :: s.link)
  | .stream => s.setRx (b :: s.rx)

/-- The state in which the next step runs `i` (log 16): a protocol byte is the next of the host's input and the host has
the turn; a frame's byte is the next of the queue in turn, the transmitter is idle and the main loop has the turn; a
character group stands at the position of an attempt of its format, in the phase that reads it, and the host has the
turn. -/
def State.stage (i : Instr) (s : State) : State :=
  let host (s : State) : State := (s.setHostStopped false).setEvents (.host :: s.events)
  let wire (b : Byte) : State := stageByte b (host (s.setDec none))
  let search (f : Track) : State := host (s.setDec (some (Decoder.start f .forward (groupStream f (fmtSent f)))))
  let group (f : Track) (g : Group) : State :=
    host (s.setDec (some (Decoder.start f .forward (groupStream f (fmtSent f) ++ groupStream f g)).sentinel))
  match i with
  | .start t => wire (mkStart t)
  | .stop t => wire (mkStop t)
  | .size t k => wire (mkData t k)
  | .bits t v => wire (mkData t v)
  | .frame b =>
    ((stageQueue b (setWait false s)).setTx { s.tx with state := .idle, line := true, done := true, armed := false }).setEvents
      (.main :: s.events)
  | .sent2 => search .t2
  | .sent1 => search .t1
  | .char2 p d => group .t2 (group2 p d)
  | .term2 => group .t2 (fmtTerm .t2)
  | .char1 p d => group .t1 (group1 p d)
  | .term1 => group .t1 (fmtTerm .t1)

end Sys2Proof.Machine
end

