-- ==== Sys2Proof/Machine/Step.lean ====
section
/-! DEFINITION. One step of the machine, and the placing of a table word where the next step runs it. -/

namespace Sys2Proof.Machine

/-- One step: the first event of the input is served (R262); when none is waiting, an agent chosen by the free value
moves (R15, R265, R266; log 6). -/
def step (s : State) : Host.Outcome State Fault Refusal :=
  match s.events with
  | e :: es => serve e (s.setEvents es)
  | [] => serve (idleEvent (Config.idleAgent s.choices)) (s.setChoices (s.choices + 1))

/-- `s` with the instruction of a table word placed where the next step runs it (log 16); unchanged for a word that no
row of the table has. -/
def State.withFetchWord (s : State) (nbits w : Nat) : State :=
  match decodeTableWord nbits w with
  | some i => s.stage i
  | none => s

end Sys2Proof.Machine
end

