-- ==== Sys2Proof/Safety.lean ====
section
/-! DEFINITION. What counts as a safe run: the invariant of reachable states, and runs of events in the terms that claims
use. -/

namespace Sys2Proof.Machine

/-- An outcome that is a next state: the machine neither faults nor refuses. -/
def Answers (o : Host.Outcome State Fault Refusal) : Prop := ∃ s', o = .next s'

/-- The events of a list served one after the other. -/
def serveAll : List Event → State → Host.Outcome State Fault Refusal
  | [], s => .next s
  | e :: es, s => andThen (serve e s) (serveAll es)

/-- The host fed with a list of bytes: each is decoded under `pend` and run (R201, R202). -/
def consume : List Byte → State → Host.Outcome State Fault Refusal
  | [], s => .next s
  | b :: bs, s => andThen (exec (decodeWire (pendOf s) b) s) (consume bs)

/-- The track that a protocol byte is tagged with (R93). -/
def byteTrack (b : Byte) : Track := trackOfBit (b.getLsbD 6)

/-- The number of the bit period that a state of the transmitter is: the period from `send` to the first Tick is 0, the
stop bit's is 9 (R178). -/
def TxState.period : TxState → Nat
  | .idle => 0
  | .start => 0
  | .d0 => 1
  | .d1 => 2
  | .d2 => 3
  | .d3 => 4
  | .d4 => 5
  | .d5 => 6
  | .d6 => 7
  | .d7 => 8
  | .stop => 9

/-- R21 and R22: the count is in `[0, G)` and `acc_val[t] < 2^acc_cnt[t]`. -/
structure ChanInv (g : Nat) (c : Channel) : Prop where
  count : c.accCnt < g
  value : c.accVal.toNat < 2 ^ c.accCnt

/-- R25, R26, R64, R69 for the queue of track `t`, and the track tag of its bytes (R150). -/
structure QueueInv (t : Track) (qcap : Nat) (q : Queue) : Prop where
  wrRange : q.wr < 2 * qcap
  rdRange : q.rd < 2 * qcap
  notOver : q.occ qcap ≤ qcap
  canonical : q.buf.wf = true
  slots : ∀ c ∈ q.buf, c.1 < qcap
  tagged : ∀ c ∈ q.buf, byteTrack c.2 = t
  written : ∀ j, j < q.occ qcap → (q.buf.read (slotOf qcap (q.rd + j))).isSome = true

/-- R30, R29, R174, R178 and R182: the flags follow `tx_state`; the line and the shift register follow the byte; the main
loop is not waiting in IDLE only. -/
structure TxInv (x : Tx) (m : MainLoop) : Prop where
  armed : x.armed = true ↔ x.state ≠ .idle
  done : x.done = true ↔ x.state = .idle
  lineIdle : x.state = .idle → x.line = true
  lineBusy : x.state ≠ .idle → (frameBits x.byte)[x.state.period]? = some x.line
  shift : x.state ≠ .idle → x.shift = x.byte >>> min x.state.period 8
  wait : m.wait = false → x.state = .idle

/-- R41, R43 and R70 for the host state of one track. -/
structure HostInv (tbcap : Nat) (h : HostTrack) : Prop where
  len : h.rawLen ≤ tbcap
  canonical : h.tb.wf = true
  bytes : ∀ c ∈ h.tb, c.1 < tbcap / 8
  written : ∀ i, i < h.rawLen → (h.tb.read (tbByteOf i)).isSome = true
  overflow : h.ovf = true → h.rawLen = tbcap

/-- The invariant of every reachable state. -/
structure State.Inv (s : State) : Prop where
  cfg : s.cfg.wf = true
  chan : ∀ t, ChanInv s.cfg.g (s.chan.get t)
  queue : ∀ t, QueueInv t s.cfg.qcap (s.queue.get t)
  tx : TxInv s.tx s.ml
  host : ∀ t, HostInv s.cfg.tbcap (s.host.get t)
  dec : s.dec = none

/-- The track of an event of the output stream (R44). -/
def OutEvent.track : OutEvent → Track
  | .line t _ => t
  | .unreadable t => t
  | .overflowDiag t => t

/-- The events of track `t` in an output stream, in order. -/
def outOf (t : Track) (l : List OutEvent) : List OutEvent := l.filter fun e => decide (e.track = t)

/-- How many reports of STOP (Line or Unreadable) of track `t` an output stream holds (R312). -/
def reports (t : Track) (l : List OutEvent) : Nat :=
  (outOf t l).countP fun e => !decide (e = .overflowDiag t)

/-- How many overflow diagnostics of track `t` an output stream holds (R312). -/
def diagnostics (t : Track) (l : List OutEvent) : Nat := l.countP fun e => decide (e = .overflowDiag t)

/-- Two states that differ at most in the bits of the TrackBuffers at or beyond `raw_len[t]`, which "are unspecified and
never read" (R70, U8). -/
def AlikeBelowRawLen (s u : State) : Prop :=
  u = { s with host := u.host } ∧
    ∀ t, (u.host.get t).rawLen = (s.host.get t).rawLen ∧ (u.host.get t).pend = (s.host.get t).pend ∧
      (u.host.get t).ovf = (s.host.get t).ovf ∧ ∃ l, rawSeq t s = some l ∧ rawSeq t u = some l

/-- The bytes of track `t` on their way from its queue to the host, oldest first: on the link, on the line, in the
queue (R185). None if an unread slot has never been written. -/
def pipeline (t : Track) (s : State) : Option (List Byte) :=
  (unread t s).map fun l =>
    s.link.filter (fun b => decide (byteTrack b = t)) ++
      ((if s.tx.state = .idle then [] else [s.tx.byte]).filter fun b => decide (byteTrack b = t)) ++ l

end Sys2Proof.Machine
end

