-- ==== Sys2Proof/Certificates/Slice0/Obligations.lean ====
section
/-! DEFINITION. The statements for the provers. Each docstring names the rules it formalises. -/

open Sys2Proof Sys2Proof.Machine

/-! ## Reset -/

/-- R47, with R291 and R292: the reset values that the spec states. The elements it leaves unspecified (queue slots,
`tx_shift`, buffer bytes) and the constants of the run are not named. -/
def Obligations.ResetLeavesTheStatedValues : Prop :=
  (∀ t, State.reset.chan.get t = { accVal := 0#4, accCnt := 0, cpSel := .falling }) ∧
  (∀ t, (State.reset.queue.get t).wr = 0 ∧ (State.reset.queue.get t).rd = 0) ∧
  State.reset.tx.state = .idle ∧ State.reset.tx.line = true ∧ State.reset.tx.done = true ∧ State.reset.tx.armed = false ∧
  State.reset.ml = { track := .t2, wait := false } ∧ (∀ src, State.reset.irq.get src = false) ∧
  State.reset.link = [] ∧
  (∀ t, (State.reset.host.get t).rawLen = 0 ∧ (State.reset.host.get t).pend = none ∧ (State.reset.host.get t).ovf = false) ∧
  State.reset.out = [] ∧ State.reset.busy = false

/-- The invariant of reachable states holds right after reset. -/
def Obligations.ResetMeetsTheInvariant : Prop := State.reset.Inv

/-! ## Encodings -/

/-- For every well-formed instruction, with every operand at every value, and every stream in which its row is read:
decoding its encoding gives it back. -/
def Obligations.DecodeOfEncodeIsTheInstruction : Prop :=
  ∀ (i : Instr) (st : Stream), i.wf = true → i.readIn st = true → decode st (encode i) = .ok i

/-- The other direction: what the decoder gives is well formed and belongs to the stream, and its encoding is the word
with the bits that the decoder does not look at cleared (R96, R103). -/
def Obligations.EncodeOfDecodeIsTheExaminedWord : Prop :=
  ∀ (st : Stream) (w : Nat) (i : Instr), decode st w = .ok i →
    i.wf = true ∧ i.readIn st = true ∧ encode i = w &&& examinedMask st w

/-- Words written out from the spec's encodings: V-E2, V-E3 (R97 to R104), V-E4 (R106), V-E5 (R110, R114, R115). -/
def Obligations.SampleWordsDecode : Prop :=
  decode (.wire ⟨none, none⟩) 0b10000000 = .ok (.start .t1) ∧
  decode (.wire ⟨none, none⟩) 0b11011111 = .ok (.start .t2) ∧
  decode (.wire ⟨none, none⟩) 0b11100000 = .ok (.stop .t2) ∧
  decode (.wire ⟨none, none⟩) 0b00000111 = .ok (.size .t1 7#4) ∧
  decode (.wire ⟨none, some 4#4⟩) 0b01001101 = .ok (.bits .t2 0b1101#4) ∧
  decode .line 0b0101100101 = .ok (.frame 0x4D#8) ∧
  decode .line 0b0101100100 = .error .badStopBit ∧
  decode (.search .t2) 0b01011 = .ok .sent2 ∧
  decode (.search .t1) 0b1000101 = .ok .sent1 ∧
  decode (.groups .t2) 0b10101 = .ok (.char2 1#1 5#4) ∧
  decode (.groups .t2) 0b11111 = .ok .term2 ∧
  decode (.groups .t1) 0b1100001 = .ok (.char1 1#1 0x21#6) ∧
  decode (.groups .t1) 0b0011111 = .ok .term1

/-- R97 to R100 and R101: the values of the four constructors, and control apart from data by bit 7. -/
def Obligations.ConstructorsGiveTheStatedBytes : Prop :=
  mkStart .t1 = 0x80#8 ∧ mkStart .t2 = 0xC0#8 ∧ mkStop .t1 = 0xA0#8 ∧ mkStop .t2 = 0xE0#8 ∧
  (∀ n : Nibble, (mkData .t1 n).toNat = n.toNat) ∧ (∀ n : Nibble, (mkData .t2 n).toNat = 0x40 + n.toNat) ∧
  ∀ t u : Track, ∀ n : Nibble, mkStart t ≠ mkData u n ∧ mkStop t ≠ mkData u n ∧ mkStart t ≠ mkStop u

/-- R103 with R102 and R202: every one of the 256 byte values decodes, in every state of `pend`, by its bits 7, 6, 5 and
3:0 alone. -/
def Obligations.EveryByteDecodesByItsFields : Prop :=
  ∀ (b : Byte) (pend : PerTrack (Option Nibble)),
    let t : Track := if b.getLsbD 6 then .t2 else .t1
    let n : Nibble := b.extractLsb' 0 4
    decode (.wire pend) b.toNat =
      .ok (if b.getLsbD 7 then (if b.getLsbD 5 then .stop t else .start t)
           else if pend.get t = none then .size t n else .bits t n)

/-- R104 (and R96): a byte with reserved bits set is decoded as if they were 0. -/
def Obligations.ReservedBitsAreDecodedAsZero : Prop :=
  ∀ (b : Byte) (pend : PerTrack (Option Nibble)),
    decode (.wire pend) b.toNat =
      decode (.wire pend) (b &&& (if b.getLsbD 7 then 0b11100000#8 else 0b11001111#8)).toNat

/-- R106: `Unframe` gives the byte of its frame, and only a frame of the byte gives the byte. -/
def Obligations.UnframeInvertsFrame : Prop :=
  ∀ (b : Byte) (f : List Bit), unframe f = .ok b ↔ f = frameBits b

/-- R111, R112: for every data value of a format exactly one parity bit makes a valid group, and the group's character is
the data plus the format's offset. -/
def Obligations.EveryDataValueHasOneValidGroup : Prop :=
  (∀ d : BitVec 4, (groupValid (group2 0#1 d) = !groupValid (group2 1#1 d)) ∧
    ∀ p, (groupChar .t2 (group2 p d)).toNat = d.toNat + 0x30) ∧
  (∀ d : BitVec 6, (groupValid (group1 0#1 d) = !groupValid (group1 1#1 d)) ∧
    ∀ p, (groupChar .t1 (group1 p d)).toNat = d.toNat + 0x20)

/-- R226: "flipping any one bit of a valid group, the parity bit or a data bit, makes `popcount(g)` even". -/
def Obligations.OneFlippedBitBreaksParity : Prop :=
  ∀ (g : Group) (k : Nat), k < 7 → groupValid g = true → groupValid (g ^^^ (1#7 <<< k)) = false

/-! ## A step runs the decoded instruction -/

/-- R262, R265, R266: a step serves the first event of the input; when no event is waiting it is the turn of one of the three
agents that move by themselves, whichever the free value names (log 5, log 6). -/
def Obligations.StepServesTheNextEvent : Prop :=
  ∀ (s : State),
    (∀ e es, s.events = e :: es → step s = serve e { s with events := es }) ∧
    (s.events = [] → ∃ e ∈ [Event.tick, .main, .host], step s = serve e { s with choices := s.choices + 1 })

/-- R201, R45: on a host event the first byte of the input is removed and, when it decodes under `pend` to `i`, the step
is `exec i`; from the link, from the free input, and from a free input that never ends, whose next byte is the free value
`Config.rxByte` (log 22). -/
def Obligations.HostStepRunsTheDecodedByte : Prop :=
  ∀ (s : State) (b : Byte) (l : List Byte) (es : List Event) (i : Instr),
    s.events = .host :: es → s.hostStopped = false → s.dec = none → decode (.wire (pendOf s)) b.toNat = .ok i →
    (s.cfg.rxSource = .link → s.link = b :: l → step s = exec i { s with events := es, link := l }) ∧
    (s.cfg.rxSource = .stream → s.rx = b :: l → step s = exec i { s with events := es, rx := l }) ∧
    (s.cfg.rxSource = .stream → s.rx = [] → s.rxRest = .unending → b = Config.rxByte s.rxTaken →
      step s = exec i { s with events := es, rxTaken := s.rxTaken + 1 })

/-- R182: on a main-loop event with `ml_wait` = 0 and a byte in the queue in turn, the slot is read, `rd` advances, the
byte's FRAME is run, and `ml_wait` becomes 1. -/
def Obligations.MainStepRunsTheFrame : Prop :=
  ∀ (s : State) (b : Byte) (es : List Event),
    let t := s.ml.track
    let q := s.queue.get t
    s.events = .main :: es → s.ml.wait = false → q.occ s.cfg.qcap ≠ 0 → q.buf.read (q.rd % s.cfg.qcap) = some b →
    step s =
      andThen (exec (.frame b)
          { s with events := es, queue := s.queue.set t { q with rd := (q.rd + 1) % (2 * s.cfg.qcap) } })
        fun s' => .next { s' with ml := { s'.ml with wait := true } }

/-- R223, R225: inside a decoding attempt, a window that decodes to `i` in the attempt's phase is run by the step. -/
def Obligations.DecoderStepRunsTheGroup : Prop :=
  ∀ (s : State) (d : Decoder) (es : List Event) (i : Instr),
    s.events = .host :: es → s.hostStopped = false → s.dec = some d → d.pos + fmtWidth d.fmt ≤ d.seq.length →
    (d.phase = .search → decode (.search d.fmt) (win d.seq d.pos (fmtWidth d.fmt)).toNat = .ok i →
      step s = exec i { s with events := es }) ∧
    (d.phase = .groups → decode (.groups d.fmt) (win d.seq d.pos (fmtWidth d.fmt)).toNat = .ok i →
      step s = exec i { s with events := es })

/-! ## The protocol bytes -/

/-- R203: START empties the buffer, clears the overflow flag and the pending count, and changes nothing else. -/
def Obligations.StartEmptiesTheTrack : Prop :=
  ∀ (s : State) (t : Track),
    exec (.start t) s =
      .next { s with host := s.host.set t { tb := (s.host.get t).tb, rawLen := 0, pend := none, ovf := false } }

/-- R205: SIZE stores its nibble, with no range check, and changes nothing else. -/
def Obligations.SizeStoresTheCount : Prop :=
  ∀ (s : State) (t : Track) (k : Nibble), (s.host.get t).pend = none →
    exec (.size t k) s = .next { s with host := s.host.set t { s.host.get t with pend := some k } }

/-- R206, R208: BITS appends `x[k-1]` to `x[0]` of the zero-extended nibble to `raw[t]` where there is room, clears
`pend[t]`, writes only the bytes of the appended bits, and changes nothing else. -/
def Obligations.BitsAppendsItsField : Prop :=
  ∀ (s : State) (t : Track) (v k : Nibble) (l : List Bit),
    (s.host.get t).pend = some k → (s.host.get t).ovf = false → rawSeq t s = some l →
    (s.host.get t).rawLen + k.toNat ≤ s.cfg.tbcap →
    ∃ h : HostTrack, exec (.bits t v) s = .next { s with host := s.host.set t h } ∧
      h.pend = none ∧ h.ovf = false ∧ h.rawLen = (s.host.get t).rawLen + k.toNat ∧
      readBits h.tb h.rawLen =
        some (l ++ (List.range k.toNat).map fun i => (BitVec.setWidth 16 v).getLsbD (k.toNat - 1 - i)) ∧
      ∀ a, (∀ i, i < k.toNat → a ≠ ((s.host.get t).rawLen + i) / 8) → h.tb.read a = (s.host.get t).tb.read a

/-- R207, R252: where the field does not fit, the bits that fit are kept, `ovf[t]` is set and one OverflowDiag is
emitted; `pend[t]` is cleared all the same. -/
def Obligations.BitsOverflowKeepsWhatFitsAndReportsOnce : Prop :=
  ∀ (s : State) (t : Track) (v k : Nibble) (l : List Bit),
    (s.host.get t).pend = some k → (s.host.get t).ovf = false → rawSeq t s = some l →
    (s.host.get t).rawLen ≤ s.cfg.tbcap → s.cfg.tbcap < (s.host.get t).rawLen + k.toNat →
    ∃ h : HostTrack,
      exec (.bits t v) s = .next { s with host := s.host.set t h, out := s.out ++ [.overflowDiag t] } ∧
      h.pend = none ∧ h.ovf = true ∧ h.rawLen = s.cfg.tbcap ∧
      readBits h.tb h.rawLen =
        some (l ++ ((List.range k.toNat).map fun i => (BitVec.setWidth 16 v).getLsbD (k.toNat - 1 - i)).take
          (s.cfg.tbcap - (s.host.get t).rawLen)) ∧
      ∀ a, (∀ i, (s.host.get t).rawLen + i < s.cfg.tbcap → a ≠ ((s.host.get t).rawLen + i) / 8) →
        h.tb.read a = (s.host.get t).tb.read a

/-- R206: "while `ovf[t]` = 1 nothing is appended but `pend[t]` is still cleared". -/
def Obligations.BitsAfterOverflowOnlyClearsPend : Prop :=
  ∀ (s : State) (t : Track) (v k : Nibble), (s.host.get t).pend = some k → (s.host.get t).ovf = true →
    exec (.bits t v) s = .next { s with host := s.host.set t { s.host.get t with pend := none } }

/-- R204: STOP writes only `out`: nothing for a disabled track; in INTERPRET mode the line of the decoded sequence or
Unreadable; in BINARY mode the sequence as text (R234). -/
def Obligations.StopReportsTheSequence : Prop :=
  ∀ (s : State) (t : Track),
    (s.cfg.outEn.get t = false → exec (.stop t) s = .next s) ∧
    (∀ l chars, s.cfg.outEn.get t = true → s.cfg.outMode = .interpret → rawSeq t s = some l →
      decodeTrack l t = .ok chars → exec (.stop t) s = .next { s with out := s.out ++ [.line t chars] }) ∧
    (∀ l c, s.cfg.outEn.get t = true → s.cfg.outMode = .interpret → rawSeq t s = some l →
      decodeTrack l t = .error c → exec (.stop t) s = .next { s with out := s.out ++ [.unreadable t] }) ∧
    (∀ l, s.cfg.outEn.get t = true → s.cfg.outMode = .binary → rawSeq t s = some l →
      exec (.stop t) s = .next { s with out := s.out ++ [.line t (l.map fun b => if b then 0x31#8 else 0x30#8)] })

/-- The model's choice (log 12, log 3), in states that no decoding or no run gives: SIZE while a count is pending and BITS
while none is stop by refusal, and STOP of an enabled track stops where a bit of `raw[t]` has never been written. -/
def Obligations.ProtocolBytesStopOutOfTheirState : Prop :=
  ∀ (s : State) (t : Track) (n : Nibble),
    ((s.host.get t).pend ≠ none → exec (.size t n) s = .refused .rowNotSelected) ∧
    ((s.host.get t).pend = none → exec (.bits t n) s = .refused .rowNotSelected) ∧
    (s.cfg.outEn.get t = true → rawSeq t s = none → exec (.stop t) s = .fault .unwrittenBit)

/-! ## The character groups -/

/-- R224 (with R223, R225): the sentinel row emits the sentinel's character as the first character and puts the group
position just after its window; nothing but the decoder's transients changes. -/
def Obligations.SentinelRowsAnchorTheGroups : Prop :=
  ∀ (s : State) (d : Decoder), s.dec = some d → d.phase = .search →
    (d.fmt = .t2 →
      exec .sent2 s = .next { s with dec := some { d with phase := .groups, pos := d.pos + 5, chars := [0x3B#8] } }) ∧
    (d.fmt = .t1 →
      exec .sent1 s = .next { s with dec := some { d with phase := .groups, pos := d.pos + 7, chars := [0x25#8] } })

/-- R227 (with R225, R226): a well-formed character group with an odd number of 1 bits adds the character
`data + OFF` and advances the position; nothing but the decoder's transients changes. -/
def Obligations.ValidCharacterRowsEmitTheirCharacter : Prop :=
  ∀ (s : State) (d : Decoder) (p : BitVec 1), s.dec = some d → d.phase = .groups →
    (∀ x : BitVec 4, d.fmt = .t2 → (Instr.char2 p x).wf = true → popcount (group2 p x) % 2 = 1 →
      exec (.char2 p x) s =
        .next { s with dec := some { d with pos := d.pos + 5, chars := d.chars ++ [BitVec.setWidth 8 x + 0x30#8] } }) ∧
    (∀ x : BitVec 6, d.fmt = .t1 → (Instr.char1 p x).wf = true → popcount (group1 p x) % 2 = 1 →
      exec (.char1 p x) s =
        .next { s with dec := some { d with pos := d.pos + 7, chars := d.chars ++ [BitVec.setWidth 8 x + 0x20#8] } })

/-- R226: a group with an even number of 1 bits fails the orientation at once with cause PARITY, and the characters
emitted so far are discarded (R230); nothing but the decoder's transients changes. -/
def Obligations.EvenGroupsFailTheOrientation : Prop :=
  ∀ (s : State) (d : Decoder) (p : BitVec 1), s.dec = some d → d.phase = .groups →
    (∀ x : BitVec 4, d.fmt = .t2 → popcount (group2 p x) % 2 = 0 →
      exec (.char2 p x) s = .next { s with dec := some { d with phase := .failed .parity, chars := [] } }) ∧
    (∀ x : BitVec 6, d.fmt = .t1 → popcount (group1 p x) % 2 = 0 →
      exec (.char1 p x) s = .next { s with dec := some { d with phase := .failed .parity, chars := [] } })

/-- R228: the terminator row adds `?` and the orientation succeeds; nothing but the decoder's transients changes. -/
def Obligations.TerminatorRowsEndTheTrack : Prop :=
  ∀ (s : State) (d : Decoder), s.dec = some d → d.phase = .groups →
    (d.fmt = .t2 → exec .term2 s = .next { s with dec := some { d with phase := .ok, chars := d.chars ++ [0x3F#8] } }) ∧
    (d.fmt = .t1 → exec .term1 s = .next { s with dec := some { d with phase := .ok, chars := d.chars ++ [0x3F#8] } })

/-- The model's choice (log 11): a character group outside an attempt of its format and phase stops by refusal. -/
def Obligations.GroupRowsStopOutsideTheirAttempt : Prop :=
  ∀ (s : State) (p : BitVec 1) (x : BitVec 4) (y : BitVec 6),
    ((∀ d, s.dec = some d → ¬(d.fmt = .t2 ∧ d.phase = .search)) → exec .sent2 s = .refused .notDecoding) ∧
    ((∀ d, s.dec = some d → ¬(d.fmt = .t1 ∧ d.phase = .search)) → exec .sent1 s = .refused .notDecoding) ∧
    ((∀ d, s.dec = some d → ¬(d.fmt = .t2 ∧ d.phase = .groups)) →
      exec (.char2 p x) s = .refused .notDecoding ∧ exec .term2 s = .refused .notDecoding) ∧
    ((∀ d, s.dec = some d → ¬(d.fmt = .t1 ∧ d.phase = .groups)) →
      exec (.char1 p y) s = .refused .notDecoding ∧ exec .term1 s = .refused .notDecoding)

/-- R204, R232 against R223 to R229: from the start of an attempt on `raw[t]`, the host's turns that fetch, decode and run
the windows and groups one by one end in the very state that STOP leaves in one step (log 11). -/
def Obligations.RunningTheGroupsIsStop : Prop :=
  ∀ (s : State) (t : Track) (l : List Bit), s.dec = none → s.hostStopped = false → s.cfg.outEn.get t = true →
    s.cfg.outMode = .interpret → rawSeq t s = some l →
    ∃ n, serveAll (List.replicate n .host)
      { s with dec := some { fmt := t, orient := .forward, seq := l, pos := 0, phase := .search, chars := [] } } =
        exec (.stop t) s

/-! ## The decoder as a function -/

/-- R223: the search gives the least position whose window of `W` real bits is `SENT`; where there is none, the orientation
fails with cause NO_SENTINEL. -/
def Obligations.SearchTakesTheFirstSentinel : Prop :=
  ∀ (f : Track) (s : List Bit),
    (∀ i, findSentinel f s = some i ↔
      (i + fmtWidth f ≤ s.length ∧ win s i (fmtWidth f) = fmtSent f ∧ ∀ j, j < i → win s j (fmtWidth f) ≠ fmtSent f)) ∧
    (findSentinel f s = none ↔ ∀ i, i + fmtWidth f ≤ s.length → win s i (fmtWidth f) ≠ fmtSent f) ∧
    (findSentinel f s = none → decodeOne s f = .error .noSentinel)

/-- R230: "A successful result has at least two characters, starts with the sentinel character and ends with `?`". -/
def Obligations.DecodedTextIsBracketed : Prop :=
  ∀ (s : List Bit) (f : Track) (chars : List Byte), decodeOne s f = .ok chars →
    2 ≤ chars.length ∧ chars.head? = some (match f with | .t2 => 0x3B#8 | .t1 => 0x25#8) ∧
      chars.getLast? = some 0x3F#8

/-- R235: an encoding of a track (the sentinel, valid groups other than the terminator, the terminator), after a prefix in
which with the encoding's first bits the sentinel does not occur and before anything, decodes to its characters. A prefix of
zeros is such a one. `Decode` of the reversal gives the same characters when the forward attempt on the reversal fails, and
that attempt's characters when it succeeds. -/
def Obligations.EncodedTracksDecodeInBothDirections : Prop :=
  ∀ (f : Track) (gs : List Group) (z y : List Bit),
    (∀ g ∈ gs, groupValid g = true ∧ g ≠ fmtTerm f ∧ g.toNat < 2 ^ fmtWidth f) →
    let s := z ++ groupStream f (fmtSent f) ++ gs.flatMap (groupStream f) ++ groupStream f (fmtTerm f) ++ y
    let chars := groupChar f (fmtSent f) :: (gs.map (groupChar f) ++ [groupChar f (fmtTerm f)])
    ((∀ b ∈ z, b = false) → ∀ j, j < z.length → win s j (fmtWidth f) ≠ fmtSent f) ∧
    ((∀ j, j < z.length → win s j (fmtWidth f) ≠ fmtSent f) →
      decodeOne s f = .ok chars ∧ decodeTrack s f = .ok chars ∧
        (∀ c, decodeOne s.reverse f = .error c → decodeTrack s.reverse f = .ok chars) ∧
        (∀ other, decodeOne s.reverse f = .ok other → decodeTrack s.reverse f = .ok other))

/-! ## The transmitter and the main loop -/

/-- R172, U5: FRAME in IDLE loads the byte, drives the start bit and arms the timer, and changes nothing else; in any
other state it has no step. The row FRAME as `send` is log 10; the model writes "no step" as the fault `sendWhileBusy`, which
is the model's choice (log 17). -/
def Obligations.FrameStartsInIdleOnly : Prop :=
  ∀ (s : State) (b : Byte),
    (s.tx.state = .idle → exec (.frame b) s =
      .next { s with tx := { state := .start, shift := b, line := false, done := false, armed := true, byte := b } }) ∧
    (s.tx.state ≠ .idle → exec (.frame b) s = .fault .sendWhileBusy)

/-- R171 with R173 to R176: each Tick takes the one transition of its state. -/
def Obligations.TickTakesTheTransitionOfItsState : Prop :=
  ∀ (s : State), s.tx.armed = true →
    (∀ p ∈ [(TxState.start, TxState.d0), (.d0, .d1), (.d1, .d2), (.d2, .d3), (.d3, .d4), (.d4, .d5), (.d5, .d6), (.d6, .d7)],
      s.tx.state = p.1 → serve .tick s =
        .next { s with irq := { s.irq with tmr := false },
                       tx := { s.tx with line := s.tx.shift.getLsbD 0, shift := s.tx.shift >>> 1, state := p.2 } }) ∧
    (s.tx.state = .d7 → serve .tick s =
      .next { s with irq := { s.irq with tmr := false }, tx := { s.tx with line := true, state := .stop } }) ∧
    (s.tx.state = .stop → serve .tick s =
      .next { s with irq := { s.irq with tmr := false }, link := s.link ++ [s.tx.byte],
                     tx := { s.tx with state := .idle, armed := false, done := true } })

/-- R178: after FRAME the line carries `Frame(b)` in ten periods, the transmitter being busy in each, and the tenth Tick
ends in IDLE with `b` on the link; nothing else changes but the timer's request latch. -/
def Obligations.TenTicksSendTheFrame : Prop :=
  ∀ (s : State) (b : Byte), s.tx.state = .idle → ∃ s0, exec (.frame b) s = .next s0 ∧
    (∀ k, k < 10 → ∃ s', serveAll (List.replicate k .tick) s0 = .next s' ∧
      (frameBits b)[k]? = some s'.tx.line ∧ s'.tx.state ≠ .idle ∧ s'.link = s.link) ∧
    serveAll (List.replicate 10 .tick) s0 =
      .next { s with irq := { s.irq with tmr := false }, link := s.link ++ [b],
                     tx := { state := .idle, shift := 0#8, line := true, done := true, armed := false, byte := b } }

/-- R177, R179: while the timer is not armed a Tick event has no effect, and no compare match reaches the latch. -/
def Obligations.NoTickWhileTheTimerIsUnarmed : Prop :=
  ∀ (s : State), s.tx.armed = false → serve .tick s = .next s ∧ serve .timerMatch s = .next s

/-- R182, R183: the main loop's turns. With `ml_wait` = 0 an empty queue passes the turn and a byte is dequeued and sent;
with `ml_wait` = 1 the loop waits for `tx_done`. -/
def Obligations.MainLoopTurns : Prop :=
  ∀ (s : State),
    let t := s.ml.track
    let q := s.queue.get t
    let occ := (q.wr + 2 * s.cfg.qcap - q.rd) % (2 * s.cfg.qcap)
    (s.ml.wait = false → occ = 0 → serve .main s = .next { s with ml := { track := t.other, wait := false } }) ∧
    (∀ b, s.ml.wait = false → 0 < occ → q.buf.read (q.rd % s.cfg.qcap) = some b → s.tx.state = .idle →
      serve .main s =
        .next { s with queue := s.queue.set t { q with rd := (q.rd + 1) % (2 * s.cfg.qcap) },
                       tx := { state := .start, shift := b, line := false, done := false, armed := true, byte := b },
                       ml := { track := t, wait := true } }) ∧
    (s.ml.wait = true → s.tx.done = true → serve .main s = .next { s with ml := { track := t, wait := false } }) ∧
    (s.ml.wait = true → s.tx.done = false → serve .main s = .next s)

/-- R311: from a quiescent state the capture side stays quiescent and only `ml_track` can change on it.
That the event input of R311 is the whole merged list `events` is the model's choice (log 24). -/
def Obligations.QuiescenceLasts : Prop :=
  ∀ (s s' : State), s.Inv → s.quiescent = true → step s = .next s' →
    s'.quiescent = true ∧ s'.chan = s.chan ∧ s'.queue = s.queue ∧ s'.tx = s.tx ∧ s'.irq = s.irq ∧ s'.ml.wait = s.ml.wait

/-! ## The sampler and the framer -/

/-- R132, R131: a bit that does not fill the group enters at bit 0 after a left shift; only the channel of the track and the
request latch of its clock change. -/
def Obligations.SampleAccumulatesTheBit : Prop :=
  ∀ (s : State) (t : Track) (d : Bit), s.cfg.g ≤ 4 → ChanInv s.cfg.g (s.chan.get t) → (s.chan.get t).accCnt + 1 < s.cfg.g →
    ∃ a : BitVec 4, a.toNat = 2 * (s.chan.get t).accVal.toNat + (if d then 0 else 1) ∧
      serve (.clkEdge t d) s =
        .next { s with chan := s.chan.set t { s.chan.get t with accVal := a, accCnt := (s.chan.get t).accCnt + 1 },
                       irq := s.irq.set (.clk t) false }

/-- R132, R153, R154: the bit that fills the group flushes a SIZE byte with `G` and a BITS byte with the group's value, of
which the queue takes those that fit, and clears the accumulator; nothing else changes but the request latch. -/
def Obligations.SampleFlushesTheFullGroup : Prop :=
  ∀ (s : State) (t : Track) (d : Bit) (l : List Byte), s.cfg.wf = true → ChanInv s.cfg.g (s.chan.get t) →
    QueueInv t s.cfg.qcap (s.queue.get t) → (s.chan.get t).accCnt + 1 = s.cfg.g → unread t s = some l →
    ∃ q : Queue,
      serve (.clkEdge t d) s =
        .next { s with chan := s.chan.set t { s.chan.get t with accVal := 0#4, accCnt := 0 },
                       queue := s.queue.set t q, irq := s.irq.set (.clk t) false } ∧
      q.rd = (s.queue.get t).rd ∧
      readSlots s.cfg.qcap q.buf q.rd (q.occ s.cfg.qcap) =
        some (l ++ [mkData t (BitVec.ofNat 4 s.cfg.g),
          mkData t (BitVec.ofNat 4 (2 * (s.chan.get t).accVal.toNat + (if d then 0 else 1)))].take (s.cfg.qcap - l.length))

/-- R137, R151: the edge that FALLING watches enqueues START (lost at a full queue), discards the accumulated bits and
watches RISING; the entries already in the queue stay. -/
def Obligations.CardArrivalStartsTheSwipe : Prop :=
  ∀ (s : State) (t : Track) (l : List Byte), s.cfg.wf = true → QueueInv t s.cfg.qcap (s.queue.get t) →
    (s.chan.get t).cpSel = .falling → unread t s = some l →
    ∃ q : Queue,
      serve (.cpEdge t) s =
        .next { s with chan := s.chan.set t { accVal := 0#4, accCnt := 0, cpSel := .rising },
                       queue := s.queue.set t q, irq := s.irq.set (.cp t) false } ∧
      q.rd = (s.queue.get t).rd ∧
      readSlots s.cfg.qcap q.buf q.rd (q.occ s.cfg.qcap) = some (l ++ [mkStart t].take (s.cfg.qcap - l.length))

/-- R138, R152: the edge that RISING watches flushes a partial group (none when the accumulator is empty), enqueues STOP,
clears the accumulator and watches FALLING. -/
def Obligations.CardRemovalStopsTheSwipe : Prop :=
  ∀ (s : State) (t : Track) (l : List Byte), s.cfg.wf = true → QueueInv t s.cfg.qcap (s.queue.get t) →
    (s.chan.get t).cpSel = .rising → unread t s = some l →
    let bytes := (if (s.chan.get t).accCnt = 0 then []
      else [mkData t (BitVec.ofNat 4 (s.chan.get t).accCnt), mkData t (s.chan.get t).accVal]) ++ [mkStop t]
    ∃ q : Queue,
      serve (.cpEdge t) s =
        .next { s with chan := s.chan.set t { accVal := 0#4, accCnt := 0, cpSel := .falling },
                       queue := s.queue.set t q, irq := s.irq.set (.cp t) false } ∧
      q.rd = (s.queue.get t).rd ∧
      readSlots s.cfg.qcap q.buf q.rd (q.occ s.cfg.qcap) = some (l ++ bytes.take (s.cfg.qcap - l.length))

/-- R134, R150, R257: the handlers of one track always complete and touch nothing but that track's channel, queue and
request latch. -/
def Obligations.CaptureHandlersTouchOneTrack : Prop :=
  ∀ (s : State) (t : Track) (d : Bit),
    (∃ c q, serve (.clkEdge t d) s =
      .next { s with chan := s.chan.set t c, queue := s.queue.set t q, irq := s.irq.set (.clk t) false } ∧
      c.cpSel = (s.chan.get t).cpSel ∧ q.rd = (s.queue.get t).rd) ∧
    (∃ c q, serve (.cpEdge t) s =
      .next { s with chan := s.chan.set t c, queue := s.queue.set t q, irq := s.irq.set (.cp t) false } ∧
      c.cpSel ≠ (s.chan.get t).cpSel ∧ q.rd = (s.queue.get t).rd)

/-- R135: sampling does not depend on `cp_sel[t]`: with another value of it the step is the same but for that value. -/
def Obligations.SamplingIsNotGated : Prop :=
  ∀ (s s' : State) (t : Track) (d : Bit) (e : EdgeDir), serve (.clkEdge t d) s = .next s' →
    serve (.clkEdge t d) { s with chan := s.chan.set t { s.chan.get t with cpSel := e } } =
      .next { s' with chan := s'.chan.set t { s'.chan.get t with cpSel := e } }

/-- R67, R69: whatever is enqueued, the queue keeps its unread bytes and takes the first of the new ones that fit, in order;
the newest are dropped. -/
def Obligations.EnqueueDropsTheNewest : Prop :=
  ∀ (s : State) (t : Track) (l vs : List Byte), 1 ≤ s.cfg.qcap → (s.queue.get t).wr < 2 * s.cfg.qcap →
    (s.queue.get t).rd < 2 * s.cfg.qcap → (s.queue.get t).occ s.cfg.qcap ≤ s.cfg.qcap → unread t s = some l →
    unread t (vs.foldl (fun u v => enqueue t v u) s) = some (l ++ vs.take (s.cfg.qcap - l.length))

/-- R68: a dequeue returns the oldest unread byte and leaves the others in order. -/
def Obligations.DequeueReturnsTheOldest : Prop :=
  ∀ (s : State) (t : Track) (v : Byte) (l : List Byte), 1 ≤ s.cfg.qcap → (s.queue.get t).wr < 2 * s.cfg.qcap →
    (s.queue.get t).rd < 2 * s.cfg.qcap → unread t s = some (v :: l) →
    ∃ s', dequeue t s = some (v, s') ∧ unread t s' = some l ∧
      s' = { s with queue := s.queue.set t { s.queue.get t with rd := ((s.queue.get t).rd + 1) % (2 * s.cfg.qcap) } }

/-- R157: a swipe with room in the queue enqueues exactly `SWIPE t, s`, which is 2 + 2*ceil(n/G) bytes, and leaves the
channel as before it. -/
def Obligations.SwipeEnqueuesItsBytes : Prop :=
  ∀ (s : State) (t : Track) (bits : List Bit) (l : List Byte), s.cfg.wf = true → QueueInv t s.cfg.qcap (s.queue.get t) →
    (s.chan.get t).cpSel = .falling → unread t s = some l →
    l.length + (2 + 2 * ((bits.length + s.cfg.g - 1) / s.cfg.g)) ≤ s.cfg.qcap →
    (swipeBytes s.cfg.g t bits).length = 2 + 2 * ((bits.length + s.cfg.g - 1) / s.cfg.g) ∧
    ∃ s', serveAll (.cpEdge t :: (bits.map (fun b => Event.clkEdge t (!b)) ++ [.cpEdge t])) s = .next s' ∧
      unread t s' = some (l ++ swipeBytes s.cfg.g t bits) ∧
      s'.chan.get t = { accVal := 0#4, accCnt := 0, cpSel := .falling } ∧
      s'.chan.get t.other = s.chan.get t.other ∧ s'.queue.get t.other = s.queue.get t.other

/-! ## Interrupt requests -/

/-- R33, R258, R259: an edge sets the latch of its source when it has the active or the watched direction, and is not
remembered otherwise; nothing else changes. -/
def Obligations.LineEdgesSetTheirLatch : Prop :=
  ∀ (s : State) (t : Track) (e : EdgeDir),
    serve (.clkLine t e) s = .next (if e = s.cfg.clkEdge.get t then { s with irq := s.irq.set (.clk t) true } else s) ∧
    serve (.cpLine t e) s = .next (if e = (s.chan.get t).cpSel then { s with irq := s.irq.set (.cp t) true } else s) ∧
    serve .timerMatch s = .next (if s.tx.armed = true then { s with irq := s.irq.set .tmr true } else s)

/-- R267: an edge of a source whose latch is set is lost: it changes nothing at all. -/
def Obligations.SecondEdgeBeforeServiceIsLost : Prop :=
  ∀ (s : State) (t : Track) (e : EdgeDir),
    (s.irq.get (.clk t) = true → serve (.clkLine t e) s = .next s) ∧
    (s.irq.get (.cp t) = true → serve (.cpLine t e) s = .next s) ∧
    (s.irq.get .tmr = true → serve .timerMatch s = .next s)

/-! ## Invariants of every step -/

/-- Every step keeps the invariant of reachable states: R21, R22, R25, R26, R30, R41, R43, R64, R69, R46. -/
def Obligations.EveryStepKeepsTheInvariant : Prop :=
  ∀ s s' : State, s.Inv → step s = .next s' → s'.Inv

/-- R256 with R202 and R103: in a state that meets the invariant no step stops, whatever the next event or byte is. -/
def Obligations.NoStepStopsUnderTheInvariant : Prop :=
  ∀ s : State, s.Inv → ∃ s', step s = .next s'

/-- R37: no step writes a constant of the run. -/
def Obligations.ConstantsAreWrittenByNoStep : Prop :=
  ∀ s s' : State, step s = .next s' → s'.cfg = s.cfg

/-- R44: `out` is append-only. -/
def Obligations.OutputIsAppendOnly : Prop :=
  ∀ s s' : State, step s = .next s' → ∃ l, s'.out = s.out ++ l

/-- R20, R273: a host event leaves the capture side alone and only removes from the link; any other event leaves the host
side alone and only appends to the link. The free input, which is neither side's state (R45), is written by the host's own
turn and by its two arrival events, and those events write nothing else (log 15). -/
def Obligations.SidesShareOnlyTheLink : Prop :=
  ∀ (e : Event) (s s' : State), serve e s = .next s' →
    (e = .host → s'.chan = s.chan ∧ s'.queue = s.queue ∧ s'.tx = s.tx ∧ s'.ml = s.ml ∧ s'.irq = s.irq ∧
      ∃ l, s.link = l ++ s'.link) ∧
    (e ≠ .host → s'.host = s.host ∧ s'.out = s.out ∧ s'.hostStopped = s.hostStopped ∧ s'.dec = s.dec ∧
      s'.rxTaken = s.rxTaken ∧ ∃ l, s'.link = s.link ++ l) ∧
    (e ≠ .host → e ≠ .rxEnd → (∀ b, e ≠ .rxByte b) → s'.rx = s.rx ∧ s'.rxRest = s.rxRest) ∧
    (∀ b, e = .rxEnd ∨ e = .rxByte b → s' = { s with rx := s'.rx, rxRest := s'.rxRest })

/-- R185: per track, the bytes on their way to the host keep their order and each is delivered once: the main loop and
the timer only move them along, the handlers only append to them, and the host takes the oldest. -/
def Obligations.BytesKeepTheirOrderPerTrack : Prop :=
  ∀ (s s' : State) (t : Track), s.Inv →
    (∀ e, e = .main ∨ e = .tick → serve e s = .next s' → pipeline t s' = pipeline t s) ∧
    (∀ u d, serve (.clkEdge u d) s = .next s' ∨ serve (.cpEdge u) s = .next s' →
      ∃ p vs, pipeline t s = some p ∧ pipeline t s' = some (p ++ vs)) ∧
    (∀ b l, s.hostStopped = false → s.cfg.rxSource = .link → s.link = b :: l → serve .host s = .next s' →
      ∃ p, pipeline t s' = some p ∧ pipeline t s = some (if byteTrack b = t then b :: p else p))

/-! ## The host over a byte stream -/

/-- R212: whatever bytes of the other track stand in between, feeding the bytes of a swipe up to its STOP leaves exactly
the sampled sequence in `raw[t]`. -/
def Obligations.ReassemblyRestoresTheBits : Prop :=
  ∀ (s : State) (t : Track) (g : Nat) (bits : List Bit) (bs : List Byte), 1 ≤ g → g ≤ 4 →
    (∀ u, HostInv s.cfg.tbcap (s.host.get u)) → bits.length ≤ s.cfg.tbcap →
    bs.filter (fun b => decide (byteTrack b = t)) = mkStart t :: bitseqBytes g t bits →
    ∃ s', consume bs s = .next s' ∧ rawSeq t s' = some bits ∧ (s'.host.get t).rawLen = bits.length ∧
      (s'.host.get t).pend = none ∧ (s'.host.get t).ovf = false

/-- R213: two interleavings of the same two per-track byte sequences leave the same per-track state and the same output
events per track. -/
def Obligations.InterleavingDoesNotMatter : Prop :=
  ∀ (s s1 : State) (bs cs : List Byte),
    (∀ t, bs.filter (fun b => decide (byteTrack b = t)) = cs.filter (fun b => decide (byteTrack b = t))) →
    consume bs s = .next s1 →
    ∃ s2, consume cs s = .next s2 ∧ s2.host = s1.host ∧ ∀ t, outOf t s2.out = outOf t s1.out

/-- R70 (U8): the bits at or beyond `raw_len[t]` are never read: two hosts that differ in them only consume every byte
stream alike, with the same output. The model's fill of an unwritten byte (log 4) cannot show. -/
def Obligations.BitsBeyondTheLengthDoNotShow : Prop :=
  ∀ (s u s' : State) (bs : List Byte), AlikeBelowRawLen s u → consume bs s = .next s' →
    ∃ u', consume bs u = .next u' ∧ AlikeBelowRawLen s' u'

/-- R312: one report for each STOP of an enabled track, and none of a disabled one. -/
def Obligations.OneReportForEachStop : Prop :=
  ∀ (s s' : State) (t : Track) (bs : List Byte), consume bs s = .next s' →
    reports t s'.out =
      reports t s.out + (if s.cfg.outEn.get t then bs.countP (fun b => decide (decodeByte b = .stop t)) else 0)

/-- R252: between two STARTs of a track at most one overflow diagnostic of it is emitted, and none once `ovf[t]` is set. -/
def Obligations.OneDiagnosticBetweenStarts : Prop :=
  ∀ (s s' : State) (t : Track) (bs : List Byte), consume bs s = .next s' → (∀ b ∈ bs, decodeByte b ≠ .start t) →
    diagnostics t s'.out ≤ diagnostics t s.out + 1 ∧
      ((s.host.get t).ovf = true → diagnostics t s'.out = diagnostics t s.out)

/-- R45, R201, R211. With no byte on the link, or on a free input that has not ended, the host waits; at the end of a free
input it stops and nothing is flushed; a host that has stopped takes no further step. A byte that arrives on a free input
joins its end, and the input may end, while more may arrive. The model's choices: that the link never ends, the flag
`hostStopped` and the arrival events (log 15); that a turn without a step changes nothing (log 7). -/
def Obligations.HostWaitsOrStopsWithoutInput : Prop :=
  ∀ (s : State) (b : Byte),
    (s.dec = none → s.hostStopped = false →
      (s.cfg.rxSource = .link → s.link = [] → serve .host s = .next s) ∧
      (s.cfg.rxSource = .stream → s.rx = [] → s.rxRest = .waiting → serve .host s = .next s) ∧
      (s.cfg.rxSource = .stream → s.rx = [] → s.rxRest = .ended → serve .host s = .next { s with hostStopped := true })) ∧
    (s.hostStopped = true → serve .host s = .next s) ∧
    serve (.rxByte b) s = .next (if s.rxRest = .waiting then { s with rx := s.rx ++ [b] } else s) ∧
    serve .rxEnd s = .next (if s.rxRest = .waiting then { s with rxRest := .ended } else s)
end

