-- ==== Sys2Proof/Laws/PerInstr.lean ====
section
/-! SUPPORT. Statements for all instructions, made one constructor at a time. -/

namespace Sys2Proof.Laws.EncodeFits

/-- An instruction's word fits in its width (R90, R105, R110). -/
def Statement (i : Instr) : Prop := encode i < 2 ^ i.width

theorem start (t : Track) : Statement (.start t) := (mkStart t).isLt

theorem stop (t : Track) : Statement (.stop t) := (mkStop t).isLt

theorem size (t : Track) (k : Nibble) : Statement (.size t k) := (mkData t k).isLt

theorem bits (t : Track) (v : Nibble) : Statement (.bits t v) := (mkData t v).isLt

theorem frame (b : Byte) : Statement (.frame b) := by unfold Statement; revert b; decide

theorem char2 (p : BitVec 1) (d : BitVec 4) : Statement (.char2 p d) := by unfold Statement; revert p d; decide

theorem sent2 : Statement .sent2 := by unfold Statement; decide

theorem term2 : Statement .term2 := by unfold Statement; decide

theorem char1 (p : BitVec 1) (d : BitVec 6) : Statement (.char1 p d) := (group1 p d).isLt

theorem sent1 : Statement .sent1 := by unfold Statement; decide

theorem term1 : Statement .term1 := by unfold Statement; decide

end Sys2Proof.Laws.EncodeFits
end

