-- ==== Sys2Proof/Laws/Encoding.lean ====
section
/-! SUPPORT. The laws of the encodings: numbers and bit sequences, and the decoder's parts on the encoder's words. -/

namespace Sys2Proof

theorem bitsVal_lt (l : List Bit) : bitsVal l < 2 ^ l.length := by
  induction l with
  | nil => simp [bitsVal]
  | cons b l ih => simp only [bitsVal, List.length_cons, Nat.pow_succ]; cases b <;> simp <;> omega

@[simp] theorem bitsLsb_length (n w : Nat) : (bitsLsb n w).length = n := by simp [bitsLsb]

@[simp] theorem bitsMsb_length (n w : Nat) : (bitsMsb n w).length = n := by simp [bitsMsb]

/-- The bits of a number below 2^n give the number back. -/
theorem bitsVal_bitsLsb (n w : Nat) (h : w < 2 ^ n) : bitsVal (bitsLsb n w) = w := by
  induction n generalizing w with
  | zero => simp [bitsLsb, bitsVal] at *; omega
  | succ n ih =>
    have hs : bitsLsb (n + 1) w = w.testBit 0 :: bitsLsb n (w / 2) := by
      unfold bitsLsb
      rw [List.range_succ_eq_map]
      simp [Function.comp_def, Nat.testBit_succ]
    rw [hs, bitsVal, ih (w / 2) (by rw [Nat.pow_succ] at h; omega)]
    have : (w.testBit 0).toNat = w % 2 := by
      rw [Nat.testBit_zero]
      rcases Nat.mod_two_eq_zero_or_one w with h2 | h2 <;> simp [h2]
    omega

/-- A data byte's fields (R99, R100, R103). -/
theorem decodeByte_mkData (t : Track) (n : Nibble) : decodeByte (mkData t n) = .data t n := by
  cases t <;> revert n <;> decide

/-- The host's decoder gives every byte a row (R103, R202). -/
theorem decode_wire_byte (pend : PerTrack (Option Nibble)) (b : Byte) : decode (.wire pend) b.toNat = .ok (decodeWire pend b) := by
  have h : ¬ 2 ^ 8 ≤ b.toNat := by have := b.isLt; omega
  simp only [decode, Stream.width, h, if_false, BitVec.ofNat_toNat, BitVec.setWidth_eq]

theorem decodeByte_mkStart (t : Track) : decodeByte (mkStart t) = .start t := by cases t <;> rfl

theorem decodeByte_mkStop (t : Track) : decodeByte (mkStop t) = .stop t := by cases t <;> rfl

/-- The ten levels of a frame, read from the frame's number (R77 (2), R105). -/
theorem bitsMsb_frame (b : Byte) : bitsMsb 10 (bitsValMsb (frameBits b)) = frameBits b := by revert b; decide

/-- The stream of a group has the format's width and is read back by its window (R113). -/
@[simp] theorem groupStream_length (f : Track) (g : Group) : (groupStream f g).length = fmtWidth f := by
  simp [groupStream]

end Sys2Proof
end

