-- ==== Sys2Proof/Laws/State.lean ====
section
/-! SUPPORT. The small lemmas of State: one for each field under each writer, and the laws of per-track pairs. -/

namespace Sys2Proof

@[simp] theorem PerTrack.get_set_same {α : Type} (p : PerTrack α) (t : Track) (a : α) : (p.set t a).get t = a := by
  cases t <;> rfl

theorem PerTrack.get_set_ne {α : Type} (p : PerTrack α) {t u : Track} (h : u ≠ t) (a : α) :
    (p.set t a).get u = p.get u := by
  cases t <;> cases u <;> first | rfl | exact absurd rfl h

@[simp] theorem PerTrack.get_set_other {α : Type} (p : PerTrack α) (t : Track) (a : α) :
    (p.set t a).get t.other = p.get t.other := by
  cases t <;> rfl

@[simp] theorem PerTrack.set_set {α : Type} (p : PerTrack α) (t : Track) (a b : α) : (p.set t a).set t b = p.set t b := by
  cases t <;> rfl

@[simp] theorem PerTrack.set_get {α : Type} (p : PerTrack α) (t : Track) : p.set t (p.get t) = p := by
  cases t <;> rfl

theorem PerTrack.ext_get {α : Type} {p q : PerTrack α} (h : ∀ t, p.get t = q.get t) : p = q := by
  have h1 := h .t1
  have h2 := h .t2
  cases p; cases q
  simp only [PerTrack.get] at h1 h2
  simp [h1, h2]

@[simp] theorem Track.other_ne (t : Track) : t.other ≠ t := by cases t <;> decide

@[simp] theorem Track.other_other (t : Track) : t.other.other = t := by cases t <;> rfl

theorem Track.eq_or_other (t u : Track) : u = t ∨ u = t.other := by cases t <;> cases u <;> simp [Track.other]

end Sys2Proof

namespace Sys2Proof.Machine

@[simp] theorem State.setChan_chan (s : State) (t : Track) (c : Channel) : (s.setChan t c).chan = s.chan.set t c := rfl
@[simp] theorem State.setChan_queue (s : State) (t : Track) (c : Channel) : (s.setChan t c).queue = s.queue := rfl
@[simp] theorem State.setChan_tx (s : State) (t : Track) (c : Channel) : (s.setChan t c).tx = s.tx := rfl
@[simp] theorem State.setChan_ml (s : State) (t : Track) (c : Channel) : (s.setChan t c).ml = s.ml := rfl
@[simp] theorem State.setChan_irq (s : State) (t : Track) (c : Channel) : (s.setChan t c).irq = s.irq := rfl
@[simp] theorem State.setChan_link (s : State) (t : Track) (c : Channel) : (s.setChan t c).link = s.link := rfl
@[simp] theorem State.setChan_rx (s : State) (t : Track) (c : Channel) : (s.setChan t c).rx = s.rx := rfl
@[simp] theorem State.setChan_rxRest (s : State) (t : Track) (c : Channel) : (s.setChan t c).rxRest = s.rxRest := rfl
@[simp] theorem State.setChan_rxTaken (s : State) (t : Track) (c : Channel) : (s.setChan t c).rxTaken = s.rxTaken := rfl
@[simp] theorem State.setChan_hostStopped (s : State) (t : Track) (c : Channel) : (s.setChan t c).hostStopped = s.hostStopped := rfl
@[simp] theorem State.setChan_host (s : State) (t : Track) (c : Channel) : (s.setChan t c).host = s.host := rfl
@[simp] theorem State.setChan_out (s : State) (t : Track) (c : Channel) : (s.setChan t c).out = s.out := rfl
@[simp] theorem State.setChan_dec (s : State) (t : Track) (c : Channel) : (s.setChan t c).dec = s.dec := rfl
@[simp] theorem State.setChan_cfg (s : State) (t : Track) (c : Channel) : (s.setChan t c).cfg = s.cfg := rfl
@[simp] theorem State.setChan_events (s : State) (t : Track) (c : Channel) : (s.setChan t c).events = s.events := rfl
@[simp] theorem State.setChan_choices (s : State) (t : Track) (c : Channel) : (s.setChan t c).choices = s.choices := rfl

@[simp] theorem State.setQueue_chan (s : State) (t : Track) (q : Queue) : (s.setQueue t q).chan = s.chan := rfl
@[simp] theorem State.setQueue_queue (s : State) (t : Track) (q : Queue) : (s.setQueue t q).queue = s.queue.set t q := rfl
@[simp] theorem State.setQueue_tx (s : State) (t : Track) (q : Queue) : (s.setQueue t q).tx = s.tx := rfl
@[simp] theorem State.setQueue_ml (s : State) (t : Track) (q : Queue) : (s.setQueue t q).ml = s.ml := rfl
@[simp] theorem State.setQueue_irq (s : State) (t : Track) (q : Queue) : (s.setQueue t q).irq = s.irq := rfl
@[simp] theorem State.setQueue_link (s : State) (t : Track) (q : Queue) : (s.setQueue t q).link = s.link := rfl
@[simp] theorem State.setQueue_rx (s : State) (t : Track) (q : Queue) : (s.setQueue t q).rx = s.rx := rfl
@[simp] theorem State.setQueue_rxRest (s : State) (t : Track) (q : Queue) : (s.setQueue t q).rxRest = s.rxRest := rfl
@[simp] theorem State.setQueue_rxTaken (s : State) (t : Track) (q : Queue) : (s.setQueue t q).rxTaken = s.rxTaken := rfl
@[simp] theorem State.setQueue_hostStopped (s : State) (t : Track) (q : Queue) : (s.setQueue t q).hostStopped = s.hostStopped := rfl
@[simp] theorem State.setQueue_host (s : State) (t : Track) (q : Queue) : (s.setQueue t q).host = s.host := rfl
@[simp] theorem State.setQueue_out (s : State) (t : Track) (q : Queue) : (s.setQueue t q).out = s.out := rfl
@[simp] theorem State.setQueue_dec (s : State) (t : Track) (q : Queue) : (s.setQueue t q).dec = s.dec := rfl
@[simp] theorem State.setQueue_cfg (s : State) (t : Track) (q : Queue) : (s.setQueue t q).cfg = s.cfg := rfl
@[simp] theorem State.setQueue_events (s : State) (t : Track) (q : Queue) : (s.setQueue t q).events = s.events := rfl
@[simp] theorem State.setQueue_choices (s : State) (t : Track) (q : Queue) : (s.setQueue t q).choices = s.choices := rfl

@[simp] theorem State.setTx_chan (s : State) (x : Tx) : (s.setTx x).chan = s.chan := rfl
@[simp] theorem State.setTx_queue (s : State) (x : Tx) : (s.setTx x).queue = s.queue := rfl
@[simp] theorem State.setTx_tx (s : State) (x : Tx) : (s.setTx x).tx = x := rfl
@[simp] theorem State.setTx_ml (s : State) (x : Tx) : (s.setTx x).ml = s.ml := rfl
@[simp] theorem State.setTx_irq (s : State) (x : Tx) : (s.setTx x).irq = s.irq := rfl
@[simp] theorem State.setTx_link (s : State) (x : Tx) : (s.setTx x).link = s.link := rfl
@[simp] theorem State.setTx_rx (s : State) (x : Tx) : (s.setTx x).rx = s.rx := rfl
@[simp] theorem State.setTx_rxRest (s : State) (x : Tx) : (s.setTx x).rxRest = s.rxRest := rfl
@[simp] theorem State.setTx_rxTaken (s : State) (x : Tx) : (s.setTx x).rxTaken = s.rxTaken := rfl
@[simp] theorem State.setTx_hostStopped (s : State) (x : Tx) : (s.setTx x).hostStopped = s.hostStopped := rfl
@[simp] theorem State.setTx_host (s : State) (x : Tx) : (s.setTx x).host = s.host := rfl
@[simp] theorem State.setTx_out (s : State) (x : Tx) : (s.setTx x).out = s.out := rfl
@[simp] theorem State.setTx_dec (s : State) (x : Tx) : (s.setTx x).dec = s.dec := rfl
@[simp] theorem State.setTx_cfg (s : State) (x : Tx) : (s.setTx x).cfg = s.cfg := rfl
@[simp] theorem State.setTx_events (s : State) (x : Tx) : (s.setTx x).events = s.events := rfl
@[simp] theorem State.setTx_choices (s : State) (x : Tx) : (s.setTx x).choices = s.choices := rfl

@[simp] theorem State.setMl_chan (s : State) (m : MainLoop) : (s.setMl m).chan = s.chan := rfl
@[simp] theorem State.setMl_queue (s : State) (m : MainLoop) : (s.setMl m).queue = s.queue := rfl
@[simp] theorem State.setMl_tx (s : State) (m : MainLoop) : (s.setMl m).tx = s.tx := rfl
@[simp] theorem State.setMl_ml (s : State) (m : MainLoop) : (s.setMl m).ml = m := rfl
@[simp] theorem State.setMl_irq (s : State) (m : MainLoop) : (s.setMl m).irq = s.irq := rfl
@[simp] theorem State.setMl_link (s : State) (m : MainLoop) : (s.setMl m).link = s.link := rfl
@[simp] theorem State.setMl_rx (s : State) (m : MainLoop) : (s.setMl m).rx = s.rx := rfl
@[simp] theorem State.setMl_rxRest (s : State) (m : MainLoop) : (s.setMl m).rxRest = s.rxRest := rfl
@[simp] theorem State.setMl_rxTaken (s : State) (m : MainLoop) : (s.setMl m).rxTaken = s.rxTaken := rfl
@[simp] theorem State.setMl_hostStopped (s : State) (m : MainLoop) : (s.setMl m).hostStopped = s.hostStopped := rfl
@[simp] theorem State.setMl_host (s : State) (m : MainLoop) : (s.setMl m).host = s.host := rfl
@[simp] theorem State.setMl_out (s : State) (m : MainLoop) : (s.setMl m).out = s.out := rfl
@[simp] theorem State.setMl_dec (s : State) (m : MainLoop) : (s.setMl m).dec = s.dec := rfl
@[simp] theorem State.setMl_cfg (s : State) (m : MainLoop) : (s.setMl m).cfg = s.cfg := rfl
@[simp] theorem State.setMl_events (s : State) (m : MainLoop) : (s.setMl m).events = s.events := rfl
@[simp] theorem State.setMl_choices (s : State) (m : MainLoop) : (s.setMl m).choices = s.choices := rfl

@[simp] theorem State.setIrq_chan (s : State) (i : IrqPend) : (s.setIrq i).chan = s.chan := rfl
@[simp] theorem State.setIrq_queue (s : State) (i : IrqPend) : (s.setIrq i).queue = s.queue := rfl
@[simp] theorem State.setIrq_tx (s : State) (i : IrqPend) : (s.setIrq i).tx = s.tx := rfl
@[simp] theorem State.setIrq_ml (s : State) (i : IrqPend) : (s.setIrq i).ml = s.ml := rfl
@[simp] theorem State.setIrq_irq (s : State) (i : IrqPend) : (s.setIrq i).irq = i := rfl
@[simp] theorem State.setIrq_link (s : State) (i : IrqPend) : (s.setIrq i).link = s.link := rfl
@[simp] theorem State.setIrq_rx (s : State) (i : IrqPend) : (s.setIrq i).rx = s.rx := rfl
@[simp] theorem State.setIrq_rxRest (s : State) (i : IrqPend) : (s.setIrq i).rxRest = s.rxRest := rfl
@[simp] theorem State.setIrq_rxTaken (s : State) (i : IrqPend) : (s.setIrq i).rxTaken = s.rxTaken := rfl
@[simp] theorem State.setIrq_hostStopped (s : State) (i : IrqPend) : (s.setIrq i).hostStopped = s.hostStopped := rfl
@[simp] theorem State.setIrq_host (s : State) (i : IrqPend) : (s.setIrq i).host = s.host := rfl
@[simp] theorem State.setIrq_out (s : State) (i : IrqPend) : (s.setIrq i).out = s.out := rfl
@[simp] theorem State.setIrq_dec (s : State) (i : IrqPend) : (s.setIrq i).dec = s.dec := rfl
@[simp] theorem State.setIrq_cfg (s : State) (i : IrqPend) : (s.setIrq i).cfg = s.cfg := rfl
@[simp] theorem State.setIrq_events (s : State) (i : IrqPend) : (s.setIrq i).events = s.events := rfl
@[simp] theorem State.setIrq_choices (s : State) (i : IrqPend) : (s.setIrq i).choices = s.choices := rfl

@[simp] theorem State.setLink_chan (s : State) (l : List Byte) : (s.setLink l).chan = s.chan := rfl
@[simp] theorem State.setLink_queue (s : State) (l : List Byte) : (s.setLink l).queue = s.queue := rfl
@[simp] theorem State.setLink_tx (s : State) (l : List Byte) : (s.setLink l).tx = s.tx := rfl
@[simp] theorem State.setLink_ml (s : State) (l : List Byte) : (s.setLink l).ml = s.ml := rfl
@[simp] theorem State.setLink_irq (s : State) (l : List Byte) : (s.setLink l).irq = s.irq := rfl
@[simp] theorem State.setLink_link (s : State) (l : List Byte) : (s.setLink l).link = l := rfl
@[simp] theorem State.setLink_rx (s : State) (l : List Byte) : (s.setLink l).rx = s.rx := rfl
@[simp] theorem State.setLink_rxRest (s : State) (l : List Byte) : (s.setLink l).rxRest = s.rxRest := rfl
@[simp] theorem State.setLink_rxTaken (s : State) (l : List Byte) : (s.setLink l).rxTaken = s.rxTaken := rfl
@[simp] theorem State.setLink_hostStopped (s : State) (l : List Byte) : (s.setLink l).hostStopped = s.hostStopped := rfl
@[simp] theorem State.setLink_host (s : State) (l : List Byte) : (s.setLink l).host = s.host := rfl
@[simp] theorem State.setLink_out (s : State) (l : List Byte) : (s.setLink l).out = s.out := rfl
@[simp] theorem State.setLink_dec (s : State) (l : List Byte) : (s.setLink l).dec = s.dec := rfl
@[simp] theorem State.setLink_cfg (s : State) (l : List Byte) : (s.setLink l).cfg = s.cfg := rfl
@[simp] theorem State.setLink_events (s : State) (l : List Byte) : (s.setLink l).events = s.events := rfl
@[simp] theorem State.setLink_choices (s : State) (l : List Byte) : (s.setLink l).choices = s.choices := rfl

@[simp] theorem State.setRx_chan (s : State) (l : List Byte) : (s.setRx l).chan = s.chan := rfl
@[simp] theorem State.setRx_queue (s : State) (l : List Byte) : (s.setRx l).queue = s.queue := rfl
@[simp] theorem State.setRx_tx (s : State) (l : List Byte) : (s.setRx l).tx = s.tx := rfl
@[simp] theorem State.setRx_ml (s : State) (l : List Byte) : (s.setRx l).ml = s.ml := rfl
@[simp] theorem State.setRx_irq (s : State) (l : List Byte) : (s.setRx l).irq = s.irq := rfl
@[simp] theorem State.setRx_link (s : State) (l : List Byte) : (s.setRx l).link = s.link := rfl
@[simp] theorem State.setRx_rx (s : State) (l : List Byte) : (s.setRx l).rx = l := rfl
@[simp] theorem State.setRx_rxRest (s : State) (l : List Byte) : (s.setRx l).rxRest = s.rxRest := rfl
@[simp] theorem State.setRx_rxTaken (s : State) (l : List Byte) : (s.setRx l).rxTaken = s.rxTaken := rfl
@[simp] theorem State.setRx_hostStopped (s : State) (l : List Byte) : (s.setRx l).hostStopped = s.hostStopped := rfl
@[simp] theorem State.setRx_host (s : State) (l : List Byte) : (s.setRx l).host = s.host := rfl
@[simp] theorem State.setRx_out (s : State) (l : List Byte) : (s.setRx l).out = s.out := rfl
@[simp] theorem State.setRx_dec (s : State) (l : List Byte) : (s.setRx l).dec = s.dec := rfl
@[simp] theorem State.setRx_cfg (s : State) (l : List Byte) : (s.setRx l).cfg = s.cfg := rfl
@[simp] theorem State.setRx_events (s : State) (l : List Byte) : (s.setRx l).events = s.events := rfl
@[simp] theorem State.setRx_choices (s : State) (l : List Byte) : (s.setRx l).choices = s.choices := rfl

@[simp] theorem State.setRxRest_chan (s : State) (r : RxRest) : (s.setRxRest r).chan = s.chan := rfl
@[simp] theorem State.setRxRest_queue (s : State) (r : RxRest) : (s.setRxRest r).queue = s.queue := rfl
@[simp] theorem State.setRxRest_tx (s : State) (r : RxRest) : (s.setRxRest r).tx = s.tx := rfl
@[simp] theorem State.setRxRest_ml (s : State) (r : RxRest) : (s.setRxRest r).ml = s.ml := rfl
@[simp] theorem State.setRxRest_irq (s : State) (r : RxRest) : (s.setRxRest r).irq = s.irq := rfl
@[simp] theorem State.setRxRest_link (s : State) (r : RxRest) : (s.setRxRest r).link = s.link := rfl
@[simp] theorem State.setRxRest_rx (s : State) (r : RxRest) : (s.setRxRest r).rx = s.rx := rfl
@[simp] theorem State.setRxRest_rxRest (s : State) (r : RxRest) : (s.setRxRest r).rxRest = r := rfl
@[simp] theorem State.setRxRest_rxTaken (s : State) (r : RxRest) : (s.setRxRest r).rxTaken = s.rxTaken := rfl
@[simp] theorem State.setRxRest_hostStopped (s : State) (r : RxRest) : (s.setRxRest r).hostStopped = s.hostStopped := rfl
@[simp] theorem State.setRxRest_host (s : State) (r : RxRest) : (s.setRxRest r).host = s.host := rfl
@[simp] theorem State.setRxRest_out (s : State) (r : RxRest) : (s.setRxRest r).out = s.out := rfl
@[simp] theorem State.setRxRest_dec (s : State) (r : RxRest) : (s.setRxRest r).dec = s.dec := rfl
@[simp] theorem State.setRxRest_cfg (s : State) (r : RxRest) : (s.setRxRest r).cfg = s.cfg := rfl
@[simp] theorem State.setRxRest_events (s : State) (r : RxRest) : (s.setRxRest r).events = s.events := rfl
@[simp] theorem State.setRxRest_choices (s : State) (r : RxRest) : (s.setRxRest r).choices = s.choices := rfl

@[simp] theorem State.setRxTaken_chan (s : State) (n : Nat) : (s.setRxTaken n).chan = s.chan := rfl
@[simp] theorem State.setRxTaken_queue (s : State) (n : Nat) : (s.setRxTaken n).queue = s.queue := rfl
@[simp] theorem State.setRxTaken_tx (s : State) (n : Nat) : (s.setRxTaken n).tx = s.tx := rfl
@[simp] theorem State.setRxTaken_ml (s : State) (n : Nat) : (s.setRxTaken n).ml = s.ml := rfl
@[simp] theorem State.setRxTaken_irq (s : State) (n : Nat) : (s.setRxTaken n).irq = s.irq := rfl
@[simp] theorem State.setRxTaken_link (s : State) (n : Nat) : (s.setRxTaken n).link = s.link := rfl
@[simp] theorem State.setRxTaken_rx (s : State) (n : Nat) : (s.setRxTaken n).rx = s.rx := rfl
@[simp] theorem State.setRxTaken_rxRest (s : State) (n : Nat) : (s.setRxTaken n).rxRest = s.rxRest := rfl
@[simp] theorem State.setRxTaken_rxTaken (s : State) (n : Nat) : (s.setRxTaken n).rxTaken = n := rfl
@[simp] theorem State.setRxTaken_hostStopped (s : State) (n : Nat) : (s.setRxTaken n).hostStopped = s.hostStopped := rfl
@[simp] theorem State.setRxTaken_host (s : State) (n : Nat) : (s.setRxTaken n).host = s.host := rfl
@[simp] theorem State.setRxTaken_out (s : State) (n : Nat) : (s.setRxTaken n).out = s.out := rfl
@[simp] theorem State.setRxTaken_dec (s : State) (n : Nat) : (s.setRxTaken n).dec = s.dec := rfl
@[simp] theorem State.setRxTaken_cfg (s : State) (n : Nat) : (s.setRxTaken n).cfg = s.cfg := rfl
@[simp] theorem State.setRxTaken_events (s : State) (n : Nat) : (s.setRxTaken n).events = s.events := rfl
@[simp] theorem State.setRxTaken_choices (s : State) (n : Nat) : (s.setRxTaken n).choices = s.choices := rfl

@[simp] theorem State.setHostStopped_chan (s : State) (b : Bool) : (s.setHostStopped b).chan = s.chan := rfl
@[simp] theorem State.setHostStopped_queue (s : State) (b : Bool) : (s.setHostStopped b).queue = s.queue := rfl
@[simp] theorem State.setHostStopped_tx (s : State) (b : Bool) : (s.setHostStopped b).tx = s.tx := rfl
@[simp] theorem State.setHostStopped_ml (s : State) (b : Bool) : (s.setHostStopped b).ml = s.ml := rfl
@[simp] theorem State.setHostStopped_irq (s : State) (b : Bool) : (s.setHostStopped b).irq = s.irq := rfl
@[simp] theorem State.setHostStopped_link (s : State) (b : Bool) : (s.setHostStopped b).link = s.link := rfl
@[simp] theorem State.setHostStopped_rx (s : State) (b : Bool) : (s.setHostStopped b).rx = s.rx := rfl
@[simp] theorem State.setHostStopped_rxRest (s : State) (b : Bool) : (s.setHostStopped b).rxRest = s.rxRest := rfl
@[simp] theorem State.setHostStopped_rxTaken (s : State) (b : Bool) : (s.setHostStopped b).rxTaken = s.rxTaken := rfl
@[simp] theorem State.setHostStopped_hostStopped (s : State) (b : Bool) : (s.setHostStopped b).hostStopped = b := rfl
@[simp] theorem State.setHostStopped_host (s : State) (b : Bool) : (s.setHostStopped b).host = s.host := rfl
@[simp] theorem State.setHostStopped_out (s : State) (b : Bool) : (s.setHostStopped b).out = s.out := rfl
@[simp] theorem State.setHostStopped_dec (s : State) (b : Bool) : (s.setHostStopped b).dec = s.dec := rfl
@[simp] theorem State.setHostStopped_cfg (s : State) (b : Bool) : (s.setHostStopped b).cfg = s.cfg := rfl
@[simp] theorem State.setHostStopped_events (s : State) (b : Bool) : (s.setHostStopped b).events = s.events := rfl
@[simp] theorem State.setHostStopped_choices (s : State) (b : Bool) : (s.setHostStopped b).choices = s.choices := rfl

@[simp] theorem State.setHost_chan (s : State) (t : Track) (h : HostTrack) : (s.setHost t h).chan = s.chan := rfl
@[simp] theorem State.setHost_queue (s : State) (t : Track) (h : HostTrack) : (s.setHost t h).queue = s.queue := rfl
@[simp] theorem State.setHost_tx (s : State) (t : Track) (h : HostTrack) : (s.setHost t h).tx = s.tx := rfl
@[simp] theorem State.setHost_ml (s : State) (t : Track) (h : HostTrack) : (s.setHost t h).ml = s.ml := rfl
@[simp] theorem State.setHost_irq (s : State) (t : Track) (h : HostTrack) : (s.setHost t h).irq = s.irq := rfl
@[simp] theorem State.setHost_link (s : State) (t : Track) (h : HostTrack) : (s.setHost t h).link = s.link := rfl
@[simp] theorem State.setHost_rx (s : State) (t : Track) (h : HostTrack) : (s.setHost t h).rx = s.rx := rfl
@[simp] theorem State.setHost_rxRest (s : State) (t : Track) (h : HostTrack) : (s.setHost t h).rxRest = s.rxRest := rfl
@[simp] theorem State.setHost_rxTaken (s : State) (t : Track) (h : HostTrack) : (s.setHost t h).rxTaken = s.rxTaken := rfl
@[simp] theorem State.setHost_hostStopped (s : State) (t : Track) (h : HostTrack) : (s.setHost t h).hostStopped = s.hostStopped := rfl
@[simp] theorem State.setHost_host (s : State) (t : Track) (h : HostTrack) : (s.setHost t h).host = s.host.set t h := rfl
@[simp] theorem State.setHost_out (s : State) (t : Track) (h : HostTrack) : (s.setHost t h).out = s.out := rfl
@[simp] theorem State.setHost_dec (s : State) (t : Track) (h : HostTrack) : (s.setHost t h).dec = s.dec := rfl
@[simp] theorem State.setHost_cfg (s : State) (t : Track) (h : HostTrack) : (s.setHost t h).cfg = s.cfg := rfl
@[simp] theorem State.setHost_events (s : State) (t : Track) (h : HostTrack) : (s.setHost t h).events = s.events := rfl
@[simp] theorem State.setHost_choices (s : State) (t : Track) (h : HostTrack) : (s.setHost t h).choices = s.choices := rfl

@[simp] theorem State.setDec_chan (s : State) (d : Option Decoder) : (s.setDec d).chan = s.chan := rfl
@[simp] theorem State.setDec_queue (s : State) (d : Option Decoder) : (s.setDec d).queue = s.queue := rfl
@[simp] theorem State.setDec_tx (s : State) (d : Option Decoder) : (s.setDec d).tx = s.tx := rfl
@[simp] theorem State.setDec_ml (s : State) (d : Option Decoder) : (s.setDec d).ml = s.ml := rfl
@[simp] theorem State.setDec_irq (s : State) (d : Option Decoder) : (s.setDec d).irq = s.irq := rfl
@[simp] theorem State.setDec_link (s : State) (d : Option Decoder) : (s.setDec d).link = s.link := rfl
@[simp] theorem State.setDec_rx (s : State) (d : Option Decoder) : (s.setDec d).rx = s.rx := rfl
@[simp] theorem State.setDec_rxRest (s : State) (d : Option Decoder) : (s.setDec d).rxRest = s.rxRest := rfl
@[simp] theorem State.setDec_rxTaken (s : State) (d : Option Decoder) : (s.setDec d).rxTaken = s.rxTaken := rfl
@[simp] theorem State.setDec_hostStopped (s : State) (d : Option Decoder) : (s.setDec d).hostStopped = s.hostStopped := rfl
@[simp] theorem State.setDec_host (s : State) (d : Option Decoder) : (s.setDec d).host = s.host := rfl
@[simp] theorem State.setDec_out (s : State) (d : Option Decoder) : (s.setDec d).out = s.out := rfl
@[simp] theorem State.setDec_dec (s : State) (d : Option Decoder) : (s.setDec d).dec = d := rfl
@[simp] theorem State.setDec_cfg (s : State) (d : Option Decoder) : (s.setDec d).cfg = s.cfg := rfl
@[simp] theorem State.setDec_events (s : State) (d : Option Decoder) : (s.setDec d).events = s.events := rfl
@[simp] theorem State.setDec_choices (s : State) (d : Option Decoder) : (s.setDec d).choices = s.choices := rfl

@[simp] theorem State.setEvents_chan (s : State) (l : List Event) : (s.setEvents l).chan = s.chan := rfl
@[simp] theorem State.setEvents_queue (s : State) (l : List Event) : (s.setEvents l).queue = s.queue := rfl
@[simp] theorem State.setEvents_tx (s : State) (l : List Event) : (s.setEvents l).tx = s.tx := rfl
@[simp] theorem State.setEvents_ml (s : State) (l : List Event) : (s.setEvents l).ml = s.ml := rfl
@[simp] theorem State.setEvents_irq (s : State) (l : List Event) : (s.setEvents l).irq = s.irq := rfl
@[simp] theorem State.setEvents_link (s : State) (l : List Event) : (s.setEvents l).link = s.link := rfl
@[simp] theorem State.setEvents_rx (s : State) (l : List Event) : (s.setEvents l).rx = s.rx := rfl
@[simp] theorem State.setEvents_rxRest (s : State) (l : List Event) : (s.setEvents l).rxRest = s.rxRest := rfl
@[simp] theorem State.setEvents_rxTaken (s : State) (l : List Event) : (s.setEvents l).rxTaken = s.rxTaken := rfl
@[simp] theorem State.setEvents_hostStopped (s : State) (l : List Event) : (s.setEvents l).hostStopped = s.hostStopped := rfl
@[simp] theorem State.setEvents_host (s : State) (l : List Event) : (s.setEvents l).host = s.host := rfl
@[simp] theorem State.setEvents_out (s : State) (l : List Event) : (s.setEvents l).out = s.out := rfl
@[simp] theorem State.setEvents_dec (s : State) (l : List Event) : (s.setEvents l).dec = s.dec := rfl
@[simp] theorem State.setEvents_cfg (s : State) (l : List Event) : (s.setEvents l).cfg = s.cfg := rfl
@[simp] theorem State.setEvents_events (s : State) (l : List Event) : (s.setEvents l).events = l := rfl
@[simp] theorem State.setEvents_choices (s : State) (l : List Event) : (s.setEvents l).choices = s.choices := rfl

@[simp] theorem State.setChoices_chan (s : State) (n : Nat) : (s.setChoices n).chan = s.chan := rfl
@[simp] theorem State.setChoices_queue (s : State) (n : Nat) : (s.setChoices n).queue = s.queue := rfl
@[simp] theorem State.setChoices_tx (s : State) (n : Nat) : (s.setChoices n).tx = s.tx := rfl
@[simp] theorem State.setChoices_ml (s : State) (n : Nat) : (s.setChoices n).ml = s.ml := rfl
@[simp] theorem State.setChoices_irq (s : State) (n : Nat) : (s.setChoices n).irq = s.irq := rfl
@[simp] theorem State.setChoices_link (s : State) (n : Nat) : (s.setChoices n).link = s.link := rfl
@[simp] theorem State.setChoices_rx (s : State) (n : Nat) : (s.setChoices n).rx = s.rx := rfl
@[simp] theorem State.setChoices_rxRest (s : State) (n : Nat) : (s.setChoices n).rxRest = s.rxRest := rfl
@[simp] theorem State.setChoices_rxTaken (s : State) (n : Nat) : (s.setChoices n).rxTaken = s.rxTaken := rfl
@[simp] theorem State.setChoices_hostStopped (s : State) (n : Nat) : (s.setChoices n).hostStopped = s.hostStopped := rfl
@[simp] theorem State.setChoices_host (s : State) (n : Nat) : (s.setChoices n).host = s.host := rfl
@[simp] theorem State.setChoices_out (s : State) (n : Nat) : (s.setChoices n).out = s.out := rfl
@[simp] theorem State.setChoices_dec (s : State) (n : Nat) : (s.setChoices n).dec = s.dec := rfl
@[simp] theorem State.setChoices_cfg (s : State) (n : Nat) : (s.setChoices n).cfg = s.cfg := rfl
@[simp] theorem State.setChoices_events (s : State) (n : Nat) : (s.setChoices n).events = s.events := rfl
@[simp] theorem State.setChoices_choices (s : State) (n : Nat) : (s.setChoices n).choices = n := rfl

@[simp] theorem emit_chan (e : OutEvent) (s : State) : (emit e s).chan = s.chan := rfl
@[simp] theorem emit_queue (e : OutEvent) (s : State) : (emit e s).queue = s.queue := rfl
@[simp] theorem emit_tx (e : OutEvent) (s : State) : (emit e s).tx = s.tx := rfl
@[simp] theorem emit_ml (e : OutEvent) (s : State) : (emit e s).ml = s.ml := rfl
@[simp] theorem emit_irq (e : OutEvent) (s : State) : (emit e s).irq = s.irq := rfl
@[simp] theorem emit_link (e : OutEvent) (s : State) : (emit e s).link = s.link := rfl
@[simp] theorem emit_rx (e : OutEvent) (s : State) : (emit e s).rx = s.rx := rfl
@[simp] theorem emit_rxRest (e : OutEvent) (s : State) : (emit e s).rxRest = s.rxRest := rfl
@[simp] theorem emit_rxTaken (e : OutEvent) (s : State) : (emit e s).rxTaken = s.rxTaken := rfl
@[simp] theorem emit_hostStopped (e : OutEvent) (s : State) : (emit e s).hostStopped = s.hostStopped := rfl
@[simp] theorem emit_host (e : OutEvent) (s : State) : (emit e s).host = s.host := rfl
@[simp] theorem emit_out (e : OutEvent) (s : State) : (emit e s).out = s.out ++ [e] := rfl
@[simp] theorem emit_dec (e : OutEvent) (s : State) : (emit e s).dec = s.dec := rfl
@[simp] theorem emit_cfg (e : OutEvent) (s : State) : (emit e s).cfg = s.cfg := rfl
@[simp] theorem emit_events (e : OutEvent) (s : State) : (emit e s).events = s.events := rfl
@[simp] theorem emit_choices (e : OutEvent) (s : State) : (emit e s).choices = s.choices := rfl

end Sys2Proof.Machine
end

