-- ==== Sys2Proof/Laws/Memory.lean ====
section
/-! SUPPORT. The laws of the byte memory: read after write, and the canonical form. -/

namespace Sys2Proof.Machine

@[simp] theorem Memory.read_nil (a : Nat) : Memory.read [] a = none := rfl

@[simp] theorem Memory.read_write_same (m : Memory) (a : Nat) (v : Byte) : (Memory.write m a v).read a = some v := by
  induction m with
  | nil => simp [Memory.write, Memory.read]
  | cons c m ih =>
    obtain ⟨x, y⟩ := c
    simp only [Memory.write]
    split
    · simp [Memory.read]
    · split
      · simp [Memory.read]
      · rename_i h1 h2
        have h3 : x ≠ a := fun h => h2 h.symm
        simp [Memory.read, h3, ih]

theorem Memory.read_write_ne (m : Memory) {a b : Nat} (v : Byte) (h : b ≠ a) :
    (Memory.write m a v).read b = m.read b := by
  induction m with
  | nil => simp [Memory.write, Memory.read, Ne.symm h]
  | cons c m ih =>
    obtain ⟨x, y⟩ := c
    simp only [Memory.write]
    split
    · simp [Memory.read, Ne.symm h]
    · split
      · rename_i h1 h2
        subst h2
        simp [Memory.read, Ne.symm h]
      · simp [Memory.read, ih]

/-- Every entry after a write is an old one or the written one. -/
theorem Memory.mem_write {m : Memory} {a : Nat} {v : Byte} {c : Host.Cell} (h : c ∈ Memory.write m a v) :
    c ∈ m ∨ c = (a, v) := by
  induction m with
  | nil => simpa [Memory.write] using h
  | cons d m ih =>
    obtain ⟨x, y⟩ := d
    simp only [Memory.write] at h
    split at h
    · simp only [List.mem_cons] at h ⊢
      tauto
    · split at h
      · simp only [List.mem_cons] at h ⊢
        tauto
      · simp only [List.mem_cons] at h ⊢
        rcases h with h | h
        · tauto
        · rcases ih h with h | h <;> tauto

/-- Every value read is an entry of the list. -/
theorem Memory.mem_of_read {m : Memory} {a : Nat} {v : Byte} (h : m.read a = some v) : (a, v) ∈ m := by
  induction m with
  | nil => simp at h
  | cons c m ih =>
    obtain ⟨x, y⟩ := c
    simp only [Memory.read] at h
    split at h
    · simp_all
    · exact List.mem_cons_of_mem _ (ih h)

/-- A canonical list says that each entry's address lies below the next one's. -/
theorem Memory.wf_cons {x : Nat} {y : Byte} {m : Memory} :
    Memory.wf ((x, y) :: m) = true ↔ (∀ c, m.head? = some c → x < c.1) ∧ Memory.wf m = true := by
  cases m with
  | nil => simp [Memory.wf]
  | cons c m => obtain ⟨z, w⟩ := c; simp [Memory.wf]

/-- A write puts a lower bound of the old addresses and of the written one under every address. -/
theorem Memory.head_write (m : Memory) (a : Nat) (v : Byte) (x : Nat) (hm : ∀ c, m.head? = some c → x < c.1) (ha : x < a) :
    ∀ c, (Memory.write m a v).head? = some c → x < c.1 := by
  cases m with
  | nil => intro c hc; simp [Memory.write] at hc; subst hc; exact ha
  | cons d m =>
    obtain ⟨z, w⟩ := d
    intro c hc
    have hz : x < z := hm (z, w) (by simp)
    simp only [Memory.write] at hc
    split at hc
    · simp at hc; subst hc; exact ha
    · split at hc <;> simp at hc <;> subst hc <;> assumption

/-- A write keeps the canonical form. -/
theorem Memory.wf_write (m : Memory) (a : Nat) (v : Byte) (h : m.wf = true) : (Memory.write m a v).wf = true := by
  induction m with
  | nil => rfl
  | cons c m ih =>
    obtain ⟨x, y⟩ := c
    obtain ⟨hhead, hm⟩ := Memory.wf_cons.1 h
    simp only [Memory.write]
    split
    · rename_i h1
      refine Memory.wf_cons.2 ⟨?_, h⟩
      intro c hc
      simp at hc
      subst hc
      exact h1
    · split
      · rename_i h1 h2
        subst h2
        exact Memory.wf_cons.2 ⟨hhead, hm⟩
      · rename_i h1 h2
        exact Memory.wf_cons.2 ⟨Memory.head_write m a v x hhead (by omega), ih hm⟩

@[simp] theorem Memory.wf_nil : Memory.wf [] = true := rfl

/-- The memories right after reset are canonical. -/
theorem reset_memories_wf (t : Track) :
    (State.reset.queue.get t).buf.wf = true ∧ (State.reset.host.get t).tb.wf = true := by
  cases t <;> exact ⟨rfl, rfl⟩

/-- `QWrite` keeps the canonical form of every queue's memory. -/
theorem wf_qWrite (t u : Track) (i : Nat) (v : Byte) (s : State) (h : (s.queue.get u).buf.wf = true) :
    ((qWrite t i v s).queue.get u).buf.wf = true := by
  unfold qWrite State.setQueue
  rcases Track.eq_or_other t u with rfl | rfl
  · simpa using Memory.wf_write _ i v h
  · simpa using h

/-- Putting a bit keeps the canonical form of a TrackBuffer. -/
theorem wf_tbPut (m : Memory) (i : Nat) (b : Bit) (h : m.wf = true) : (tbPut m i b).wf = true :=
  Memory.wf_write _ _ _ h

end Sys2Proof.Machine
end

