-- ==== Sys2Proof/Laws/TrackBuffer.lean ====
section
/-! SUPPORT. The laws of the TrackBuffer: the bit written is read back, the other bits stay, and what an append does. -/

namespace Sys2Proof.Machine

theorem setBit_getLsbD (x : Byte) (j k : Nat) (b : Bit) (hj : j < 8) (hk : k < 8) :
    (setBit x j b).getLsbD k = if k = j then b else x.getLsbD k := by
  unfold setBit
  by_cases h : k = j
  · subst h
    cases b <;> simp [hk]
  · by_cases hlt : k < j
    · cases b <;> simp [h, hk, hlt]
    · have : k - j ≠ 0 := by omega
      cases b <;> simp [h, hk, hlt, this]

/-- R70: the bit that was put is read back. -/
@[simp] theorem tbBit_tbPut_same (m : Memory) (i : Nat) (b : Bit) : tbBit (tbPut m i b) i = some b := by
  have hi : tbBitOf i < 8 := by unfold tbBitOf; omega
  simp [tbBit, tbPut, setBit_getLsbD _ _ _ _ hi hi]

/-- R70: the other bits that can be read stay as they were. -/
theorem tbBit_tbPut_ne (m : Memory) {i j : Nat} (b c : Bit) (h : j ≠ i) (hj : tbBit m j = some c) :
    tbBit (tbPut m i b) j = some c := by
  have hi : tbBitOf i < 8 := by unfold tbBitOf; omega
  have hj8 : tbBitOf j < 8 := by unfold tbBitOf; omega
  by_cases hb : tbByteOf j = tbByteOf i
  · have hne : tbBitOf j ≠ tbBitOf i := by unfold tbBitOf tbByteOf at *; omega
    unfold tbBit at hj ⊢
    unfold tbPut
    rw [hb] at hj ⊢
    cases hr : m.read (tbByteOf i) with
    | none => simp [hr] at hj
    | some x =>
      simp only [hr, Option.some.injEq] at hj
      simp [setBit_getLsbD _ _ _ _ hi hj8, hne, hj]
  · unfold tbBit tbPut at *
    rw [Memory.read_write_ne _ _ hb]
    exact hj

/-- Reading the first `n` bits gives `n` bits. -/
theorem readBits_length {m : Memory} {n : Nat} {l : List Bit} (h : readBits m n = some l) : l.length = n := by
  induction n generalizing l with
  | zero => simp [readBits] at h; simp [← h]
  | succ n ih =>
    simp only [readBits] at h
    split at h
    · rename_i l' b h1 h2
      simp only [Option.some.injEq] at h
      simp [← h, ih h1]
    · simp at h

/-- The first `n` bits stay when a bit at or beyond `n` is put. -/
theorem readBits_tbPut {m : Memory} {n : Nat} {l : List Bit} (i : Nat) (b : Bit) (hi : n ≤ i) (h : readBits m n = some l) :
    readBits (tbPut m i b) n = some l := by
  induction n generalizing l with
  | zero => simpa [readBits] using h
  | succ n ih =>
    simp only [readBits] at h ⊢
    split at h
    · rename_i l' c h1 h2
      rw [ih (by omega) h1, tbBit_tbPut_ne m b c (by omega) h2]
      exact h
    · simp at h

/-- R74: appending a bit extends the sequence by it. -/
theorem readBits_append {m : Memory} {n : Nat} {l : List Bit} (b : Bit) (h : readBits m n = some l) :
    readBits (tbPut m n b) (n + 1) = some (l ++ [b]) := by
  simp [readBits, readBits_tbPut n b (Nat.le_refl n) h]

/-- A byte that a put does not touch reads as before. -/
theorem read_tbPut_ne (m : Memory) (i : Nat) (b : Bit) {a : Nat} (h : a ≠ i / 8) : (tbPut m i b).read a = m.read a := by
  unfold tbPut
  exact Memory.read_write_ne _ _ h

/-- Everything `TBAppend` can do (R74). -/
theorem tbAppend_cases (t : Track) (b : Bit) (s : State) :
    ((s.host.get t).ovf = true ∧ tbAppend t b s = s) ∨
    ((s.host.get t).ovf = false ∧ (s.host.get t).rawLen = s.cfg.tbcap ∧
      tbAppend t b s = emit (.overflowDiag t) (s.setHost t { s.host.get t with ovf := true })) ∨
    ((s.host.get t).ovf = false ∧ (s.host.get t).rawLen ≠ s.cfg.tbcap ∧
      tbAppend t b s = s.setHost t { s.host.get t with
        tb := tbPut (s.host.get t).tb (s.host.get t).rawLen b, rawLen := (s.host.get t).rawLen + 1 }) := by
  unfold tbAppend
  cases h : (s.host.get t).ovf
  · by_cases hl : (s.host.get t).rawLen = s.cfg.tbcap <;> simp [h, hl, raise]
  · simp [h]

/-- What is in the byte `n` bits are read from is written. -/
theorem tbBit_isSome {m : Memory} {i : Nat} : (tbBit m i).isSome = (m.read (tbByteOf i)).isSome := by
  unfold tbBit
  cases m.read (tbByteOf i) <;> rfl

/-- The first `n` bits can be read exactly when each of their bytes has been written. -/
theorem readBits_isSome {m : Memory} {n : Nat} :
    (readBits m n).isSome = true ↔ ∀ i, i < n → (m.read (tbByteOf i)).isSome = true := by
  induction n with
  | zero => simp [readBits]
  | succ n ih =>
    have key : (readBits m (n + 1)).isSome = true ↔ (readBits m n).isSome = true ∧ (tbBit m n).isSome = true := by
      simp only [readBits]
      cases readBits m n <;> cases tbBit m n <;> simp
    rw [key, ih, tbBit_isSome]
    constructor
    · rintro ⟨h1, h2⟩ i hi
      rcases Nat.lt_succ_iff_lt_or_eq.1 hi with h | h
      · exact h1 i h
      · subst h; exact h2
    · intro h
      exact ⟨fun i hi => h i (by omega), h n (by omega)⟩

/-! ## The appends of BITS -/

/-- The field of BITS as its positions read it, the most significant position first (R206). -/
theorem fieldBits_eq_map (v : Nibble) (k : Nat) :
    fieldBits v k = (List.range k).map fun i => (BitVec.setWidth 16 v).getLsbD (k - 1 - i) := by
  induction k with
  | zero => rfl
  | succ k ih =>
    rw [fieldBits, ih, List.range_succ_eq_map]
    simp only [nibbleBit, Nat.add_sub_cancel, List.map_cons, Nat.sub_zero, List.map_map, List.cons.injEq, true_and]
    refine List.map_congr_left fun a _ => ?_
    simp only [Function.comp]
    congr 1
    omega

@[simp] theorem fieldBits_length (v : Nibble) (k : Nat) : (fieldBits v k).length = k := by
  simp [fieldBits_eq_map]

theorem appendBits_append (t : Track) (as bs : List Bit) (s : State) :
    appendBits t (as ++ bs) s = appendBits t bs (appendBits t as s) := by
  induction as generalizing s with
  | nil => rfl
  | cons a as ih => simp [appendBits, ih]

/-- Nothing is appended while `ovf[t]` = 1 (R74, R206). -/
theorem appendBits_of_ovf (t : Track) (bs : List Bit) (s : State) (h : (s.host.get t).ovf = true) :
    appendBits t bs s = s := by
  induction bs with
  | nil => rfl
  | cons b bs ih => rw [appendBits, show tbAppend t b s = s by simp [tbAppend, h], ih]

/-- Appends that all fit: the sequence grows by the bits, and only the bytes they stand in are written. -/
theorem appendBits_of_room (t : Track) (bs : List Bit) (s : State) (l : List Bit) (ho : (s.host.get t).ovf = false)
    (hl : rawSeq t s = some l) (hn : (s.host.get t).rawLen + bs.length ≤ s.cfg.tbcap) :
    ∃ h : HostTrack, appendBits t bs s = { s with host := s.host.set t h } ∧ h.pend = (s.host.get t).pend ∧
      h.ovf = false ∧ h.rawLen = (s.host.get t).rawLen + bs.length ∧ readBits h.tb h.rawLen = some (l ++ bs) ∧
      ∀ a, (∀ i, i < bs.length → a ≠ ((s.host.get t).rawLen + i) / 8) → h.tb.read a = (s.host.get t).tb.read a := by
  induction bs generalizing s l with
  | nil => exact ⟨s.host.get t, by simp [appendBits], rfl, ho, by simp, by simpa [rawSeq] using hl, fun _ _ => rfl⟩
  | cons b bs ih =>
    simp only [List.length_cons] at hn
    rcases tbAppend_cases t b s with ⟨h, _⟩ | ⟨_, h, _⟩ | ⟨_, _, he⟩
    · simp [h] at ho
    · omega
    · obtain ⟨h, e1, e2, e3, e4, e5, e6⟩ :=
        ih (tbAppend t b s) (l ++ [b]) (by simpa [he] using ho) (by simpa [he, rawSeq] using readBits_append b hl)
          (by simp [he]; omega)
      refine ⟨h, ?_, ?_, e3, ?_, ?_, ?_⟩
      · rw [appendBits, e1, he]; simp [State.setHost]
      · simpa [he] using e2
      · simp [he] at e4; simp; omega
      · simpa using e5
      · intro a ha
        rw [e6 a (by
          intro i hi
          have := ha (i + 1) (by simp; omega)
          simp only [he, State.setHost_host, PerTrack.get_set_same]
          rwa [Nat.add_assoc, Nat.add_comm 1])]
        simp only [he, State.setHost_host, PerTrack.get_set_same]
        exact read_tbPut_ne _ _ _ (by simpa using ha 0 (by simp))

/-- Everything the appends of BITS can do to a state: the host state of the track, and at most one OverflowDiag, which
sets `ovf[t]` (R74, R252). -/
theorem appendBits_cases (t : Track) (bs : List Bit) (s : State) :
    ∃ h l, appendBits t bs s = { s with host := s.host.set t h, out := s.out ++ l } ∧ h.pend = (s.host.get t).pend ∧
      ((l = [] ∧ h.ovf = (s.host.get t).ovf) ∨ (l = [.overflowDiag t] ∧ (s.host.get t).ovf = false ∧ h.ovf = true)) := by
  induction bs generalizing s with
  | nil => exact ⟨s.host.get t, [], by simp [appendBits], rfl, .inl ⟨rfl, rfl⟩⟩
  | cons b bs ih =>
    rw [appendBits]
    rcases tbAppend_cases t b s with ⟨_, he⟩ | ⟨ho, _, he⟩ | ⟨_, _, he⟩
    · rw [he]; exact ih s
    · rw [he, appendBits_of_ovf t bs _ (by simp [emit])]
      exact ⟨{ s.host.get t with ovf := true }, [.overflowDiag t], rfl, rfl, .inr ⟨rfl, ho, rfl⟩⟩
    · obtain ⟨h, l, e1, e2, e3⟩ := ih (tbAppend t b s)
      rw [he] at e1 e2 e3
      refine ⟨h, l, ?_, by simpa using e2, by simpa using e3⟩
      rw [he, e1]
      simp [State.setHost]

end Sys2Proof.Machine
end

