-- ==== Sys2Proof/Laws/Exec.lean ====
section
/-! SUPPORT. What an instruction can do, said once: the inversion of `exec`, and of the report of STOP. -/

namespace Sys2Proof.Machine

/-- A report emits one event of its track, never an overflow diagnostic (R204, R312). -/
theorem report_cases (t : Track) (seq : List Bit) (s : State) :
    ∃ e, report t seq s = emit e s ∧ e.track = t ∧ e ≠ .overflowDiag t := by
  unfold report
  split
  · split
    · exact ⟨_, rfl, rfl, by simp⟩
    · exact ⟨_, rfl, rfl, by simp⟩
  · exact ⟨_, rfl, rfl, by simp⟩

theorem sentinelRow_next {f : Track} {s s' : State} (h : sentinelRow f s = .next s') :
    ∃ d, s.dec = some d ∧ d.fmt = f ∧ d.phase = .search ∧ s' = s.setDec (some d.sentinel) := by
  unfold sentinelRow at h
  split at h
  · rename_i d hd
    split at h
    · rename_i hc
      simp only [Host.Outcome.next.injEq] at h
      exact ⟨d, hd, hc.1, hc.2, h.symm⟩
    · simp at h
  · simp at h

theorem groupRow_next {f : Track} {g : Group} {s s' : State} (h : groupRow f g s = .next s') :
    ∃ d, s.dec = some d ∧ d.fmt = f ∧ d.phase = .groups ∧ s' = s.setDec (some (d.group g)) := by
  unfold groupRow at h
  split at h
  · rename_i d hd
    split at h
    · rename_i hc
      simp only [Host.Outcome.next.injEq] at h
      exact ⟨d, hd, hc.1, hc.2, h.symm⟩
    · simp at h
  · simp at h

/-- STOP reports the sequence of an enabled track and does nothing else (R204). -/
theorem execStop_next {t : Track} {s s' : State} (h : execStop t s = .next s') :
    (s.cfg.outEn.get t = false ∧ s' = s) ∨
    (s.cfg.outEn.get t = true ∧ ∃ seq, rawSeq t s = some seq ∧ s' = report t seq s) := by
  unfold execStop at h
  cases ho : s.cfg.outEn.get t
  · simp only [ho, Bool.false_eq_true, if_false, Host.Outcome.next.injEq] at h
    exact .inl ⟨rfl, h.symm⟩
  · simp only [ho, if_true] at h
    split at h
    · rename_i seq hs
      simp only [Host.Outcome.next.injEq] at h
      exact .inr ⟨rfl, seq, hs, h.symm⟩
    · simp at h

/-- Everything an instruction can do when it answers a next state, by the parts of the state that it writes: the
transmitter (FRAME), one track's host state and `out` (the protocol bytes), the decoder's transients (the groups). -/
theorem exec_cases {i : Instr} {s s' : State} (h : exec i s = .next s') :
    (∃ b, i = .frame b ∧ s.tx.state = .idle ∧ s' = send b s) ∨
    (∃ t, i.width = 8 ∧ ∃ ht l, s' = { s with host := s.host.set t ht, out := s.out ++ l } ∧ ∀ e ∈ l, e.track = t) ∨
    (∃ d d', s.dec = some d ∧ s' = s.setDec (some d') ∧ d'.fmt = d.fmt) := by
  have grp : ∀ (d : Decoder) (g : Group), (d.group g).fmt = d.fmt := by
    intro d g
    unfold Decoder.group
    split
    · split <;> rfl
    · rfl
  cases i with
  | start t =>
    simp only [exec, execStart, Host.Outcome.next.injEq] at h
    exact .inr (.inl ⟨t, rfl, _, [], by rw [← h]; simp [setPend, tbClear, State.setHost]; rfl, by simp⟩)
  | stop t =>
    rcases execStop_next h with ⟨_, rfl⟩ | ⟨_, seq, _, rfl⟩
    · exact .inr (.inl ⟨t, rfl, s'.host.get t, [], by simp, by simp⟩)
    · obtain ⟨e, he, ht, _⟩ := report_cases t seq s
      exact .inr (.inl ⟨t, rfl, s.host.get t, [e], by rw [he]; simp [emit], by simpa using ht⟩)
  | size t k =>
    simp only [exec, execSize] at h
    split at h
    · simp only [Host.Outcome.next.injEq] at h
      exact .inr (.inl ⟨t, rfl, _, [], by rw [← h]; simp [setPend, State.setHost]; rfl, by simp⟩)
    · simp at h
  | bits t v =>
    simp only [exec, execBits] at h
    split at h
    · rename_i k _
      simp only [Host.Outcome.next.injEq] at h
      obtain ⟨ht, l, e1, _, e3⟩ := appendBits_cases t (fieldBits v k.toNat) s
      refine .inr (.inl ⟨t, rfl, { ht with pend := none }, l, ?_, ?_⟩)
      · rw [← h, e1]; simp [setPend, State.setHost]
      · rcases e3 with ⟨rfl, _⟩ | ⟨rfl, _⟩ <;> simp [OutEvent.track]
    · simp at h
  | frame b =>
    simp only [exec, execFrame] at h
    split at h
    · rename_i hi
      simp only [Host.Outcome.next.injEq] at h
      exact .inl ⟨b, rfl, hi, h.symm⟩
    · simp at h
  | char2 p d => obtain ⟨d0, h1, _, _, h4⟩ := groupRow_next h; exact .inr (.inr ⟨d0, _, h1, h4, grp _ _⟩)
  | term2 => obtain ⟨d0, h1, _, _, h4⟩ := groupRow_next h; exact .inr (.inr ⟨d0, _, h1, h4, grp _ _⟩)
  | char1 p d => obtain ⟨d0, h1, _, _, h4⟩ := groupRow_next h; exact .inr (.inr ⟨d0, _, h1, h4, grp _ _⟩)
  | term1 => obtain ⟨d0, h1, _, _, h4⟩ := groupRow_next h; exact .inr (.inr ⟨d0, _, h1, h4, grp _ _⟩)
  | sent2 => obtain ⟨d0, h1, _, _, h4⟩ := sentinelRow_next h; exact .inr (.inr ⟨d0, _, h1, h4, rfl⟩)
  | sent1 => obtain ⟨d0, h1, _, _, h4⟩ := sentinelRow_next h; exact .inr (.inr ⟨d0, _, h1, h4, rfl⟩)

end Sys2Proof.Machine
end

