-- ==== Sys2Proof/Laws/HostInput.lean ====
section
/-! SUPPORT. What taking a byte from the host's input can do, said once, and when there is none. -/

namespace Sys2Proof.Machine

/-- Everything the host's input can give: the head of the link, the head of the free input, or the next free byte of an
input that never ends (R45, R201). -/
theorem hostInput_cases {s s' : State} {b : Byte} (h : hostInput s = some (b, s')) :
    (s.cfg.rxSource = .link ∧ ∃ l, s.link = b :: l ∧ s' = s.setLink l) ∨
    (s.cfg.rxSource = .stream ∧ ∃ l, s.rx = b :: l ∧ s' = s.setRx l) ∨
    (s.cfg.rxSource = .stream ∧ s.rx = [] ∧ s.rxRest = .unending ∧ b = Config.rxByte s.rxTaken ∧
      s' = s.setRxTaken (s.rxTaken + 1)) := by
  unfold hostInput at h
  split at h
  · rename_i hs
    split at h
    · simp at h
    · rename_i b' l hl
      simp only [Option.some.injEq, Prod.mk.injEq] at h
      exact .inl ⟨hs, l, by rw [hl, h.1], h.2.symm⟩
  · rename_i hs
    unfold streamInput at h
    split at h
    · rename_i b' l hl
      simp only [Option.some.injEq, Prod.mk.injEq] at h
      exact .inr (.inl ⟨hs, l, by rw [hl, h.1], h.2.symm⟩)
    · rename_i hl
      split at h
      · rename_i hr
        simp only [Option.some.injEq, Prod.mk.injEq] at h
        exact .inr (.inr ⟨hs, hl, hr, h.1.symm, h.2.symm⟩)
      · simp at h
      · simp at h

/-- There is no byte exactly on an empty link, and on an empty free input that does not go on for ever. -/
theorem hostInput_none {s : State} :
    hostInput s = none ↔
      (s.cfg.rxSource = .link ∧ s.link = []) ∨ (s.cfg.rxSource = .stream ∧ s.rx = [] ∧ s.rxRest ≠ .unending) := by
  unfold hostInput streamInput
  cases s.cfg.rxSource <;> cases s.link <;> cases s.rx <;> cases s.rxRest <;> simp

@[simp] theorem inputEnded_iff {s : State} : inputEnded s = true ↔ s.cfg.rxSource = .stream ∧ s.rxRest = .ended := by
  simp [inputEnded]

end Sys2Proof.Machine
end

