-- ==== Sys2Proof/Laws/Queue.lean ====
section
/-! SUPPORT. The laws of PacketQueue: what an enqueue and a dequeue do, and the entries from a cursor on. -/

namespace Sys2Proof.Machine

/-- Everything `Enqueue` can do (R67). -/
theorem enqueue_cases (t : Track) (v : Byte) (s : State) :
    ((s.queue.get t).occ s.cfg.qcap = s.cfg.qcap ∧ enqueue t v s = s) ∨
    ((s.queue.get t).occ s.cfg.qcap ≠ s.cfg.qcap ∧
      enqueue t v s = s.setQueue t
        { buf := (s.queue.get t).buf.write ((s.queue.get t).wr % s.cfg.qcap) v,
          wr := ((s.queue.get t).wr + 1) % (2 * s.cfg.qcap), rd := (s.queue.get t).rd }) := by
  unfold enqueue Queue.full
  by_cases h : (s.queue.get t).occ s.cfg.qcap = s.cfg.qcap
  · simp [h, raise]
  · refine .inr ⟨h, ?_⟩
    simp [h, wrAdvance, qWrite, State.setQueue, slotOf, cursorNext]

/-- Everything `Dequeue` can do (R68). -/
theorem dequeue_cases (t : Track) (s : State) :
    ((s.queue.get t).buf.read ((s.queue.get t).rd % s.cfg.qcap) = none ∧ dequeue t s = none) ∨
    (∃ v, (s.queue.get t).buf.read ((s.queue.get t).rd % s.cfg.qcap) = some v ∧
      dequeue t s = some (v, s.setQueue t { s.queue.get t with rd := ((s.queue.get t).rd + 1) % (2 * s.cfg.qcap) })) := by
  unfold dequeue qRead slotOf
  cases h : (s.queue.get t).buf.read ((s.queue.get t).rd % s.cfg.qcap) with
  | none => simp
  | some v => exact .inr ⟨v, rfl, rfl⟩

/-- Reading `n` entries gives `n` bytes. -/
theorem readSlots_length {qcap : Nat} {m : Memory} {c n : Nat} {l : List Byte} (h : readSlots qcap m c n = some l) :
    l.length = n := by
  induction n generalizing c l with
  | zero => simp [readSlots] at h; simp [← h]
  | succ n ih =>
    simp only [readSlots] at h
    split at h
    · rename_i v vs h1 h2
      simp only [Option.some.injEq] at h
      simp [← h, ih h2]
    · simp at h

/-- A cursor counts for its slot only. -/
theorem readSlots_mod (qcap : Nat) (m : Memory) (c n : Nat) :
    readSlots qcap m (c % (2 * qcap)) n = readSlots qcap m c n := by
  have slot : ∀ k, slotOf qcap (c % (2 * qcap) + k) = slotOf qcap (c + k) := by
    intro k
    unfold slotOf
    rw [Nat.add_mod, Nat.mod_mod_of_dvd _ (Dvd.intro_left 2 rfl), ← Nat.add_mod]
  have gen : ∀ n k, readSlots qcap m (c % (2 * qcap) + k) n = readSlots qcap m (c + k) n := by
    intro n
    induction n with
    | zero => intro k; rfl
    | succ n ih =>
      intro k
      simp only [readSlots, slot]
      have := ih (k + 1)
      rw [← Nat.add_assoc, ← Nat.add_assoc] at this
      rw [this]
  simpa using gen n 0

/-- One entry more at the end. -/
theorem readSlots_snoc {qcap : Nat} {m : Memory} {c n : Nat} {l : List Byte} {v : Byte} (h : readSlots qcap m c n = some l)
    (hv : m.read (slotOf qcap (c + n)) = some v) : readSlots qcap m c (n + 1) = some (l ++ [v]) := by
  induction n generalizing c l with
  | zero =>
    simp only [readSlots, Option.some.injEq] at h
    subst h
    simp only [Nat.add_zero] at hv
    simp [readSlots, hv]
  | succ n ih =>
    rw [readSlots] at h
    split at h
    · rename_i w vs h1 h2
      simp only [Option.some.injEq] at h
      have := ih h2 (by rw [Nat.add_right_comm]; exact hv)
      rw [readSlots, h1, this]
      simp [← h]
    · simp at h

/-- A write to a slot that none of the entries stands in leaves them alone. -/
theorem readSlots_write {qcap : Nat} {m : Memory} {c n a : Nat} (v : Byte) (h : ∀ j, j < n → slotOf qcap (c + j) ≠ a) :
    readSlots qcap (m.write a v) c n = readSlots qcap m c n := by
  induction n generalizing c with
  | zero => rfl
  | succ n ih =>
    have h0 := h 0 (by omega)
    simp only [Nat.add_zero] at h0
    have hs : readSlots qcap (m.write a v) (c + 1) n = readSlots qcap m (c + 1) n := by
      apply ih
      intro j hj
      have := h (j + 1) (by omega)
      rwa [← Nat.add_assoc, Nat.add_right_comm] at this
    simp only [readSlots, hs, Memory.read_write_ne m v h0]

/-- The entries can be read exactly when each of their slots has been written. -/
theorem readSlots_isSome {qcap : Nat} {m : Memory} {c n : Nat} :
    (readSlots qcap m c n).isSome = true ↔ ∀ j, j < n → (m.read (slotOf qcap (c + j))).isSome = true := by
  induction n generalizing c with
  | zero => simp [readSlots]
  | succ n ih =>
    have key : (readSlots qcap m c (n + 1)).isSome = true ↔
        (m.read (slotOf qcap c)).isSome = true ∧ (readSlots qcap m (c + 1) n).isSome = true := by
      simp only [readSlots]
      cases m.read (slotOf qcap c) <;> cases readSlots qcap m (c + 1) n <;> simp
    rw [key, ih]
    constructor
    · rintro ⟨h1, h2⟩ j hj
      cases j with
      | zero => exact h1
      | succ j => have := h2 j (by omega); rwa [Nat.add_right_comm, Nat.add_assoc] at this
    · intro h
      refine ⟨h 0 (by omega), fun j hj => ?_⟩
      have := h (j + 1) (by omega)
      rwa [← Nat.add_assoc, Nat.add_right_comm] at this

/-- The occupancy of a queue whose cursors are in their range (R64), without the remainder. -/
theorem occ_eq {qcap : Nat} {q : Queue} (hw : q.wr < 2 * qcap) (hr : q.rd < 2 * qcap) :
    q.occ qcap = if q.rd ≤ q.wr then q.wr - q.rd else q.wr + 2 * qcap - q.rd := by
  unfold Queue.occ
  split
  · rw [show q.wr + 2 * qcap - q.rd = (q.wr - q.rd) + 2 * qcap by omega, Nat.add_mod_right]
    exact Nat.mod_eq_of_lt (by omega)
  · exact Nat.mod_eq_of_lt (by omega)

/-- The unread entries are as many as the occupancy says (R64). -/
theorem unread_length {t : Track} {s : State} {l : List Byte} (h : unread t s = some l) :
    l.length = (s.queue.get t).occ s.cfg.qcap := readSlots_length h

/-- An enqueue changes the queue of its track only, and not the read cursor (R67, R26). -/
theorem enqueue_eq_setQueue (t : Track) (v : Byte) (s : State) :
    ∃ q, enqueue t v s = s.setQueue t q ∧ q.rd = (s.queue.get t).rd := by
  rcases enqueue_cases t v s with ⟨_, he⟩ | ⟨_, he⟩
  · exact ⟨s.queue.get t, by rw [he]; simp [State.setQueue], rfl⟩
  · exact ⟨_, he, rfl⟩

/-- An enqueue keeps the canonical form of the queue's memory. -/
theorem enqueue_wf (t : Track) (v : Byte) (s : State) (h : (s.queue.get t).buf.wf = true) :
    ((enqueue t v s).queue.get t).buf.wf = true := by
  rcases enqueue_cases t v s with ⟨_, he⟩ | ⟨_, he⟩
  · rw [he]; exact h
  · rw [he]; simpa using Memory.wf_write _ _ _ h

theorem cursor_succ {qcap c : Nat} (h : c < 2 * qcap) :
    (c + 1) % (2 * qcap) = if c + 1 = 2 * qcap then 0 else c + 1 := by
  split
  · rename_i h1; rw [h1]; exact Nat.mod_self _
  · exact Nat.mod_eq_of_lt (by omega)

/-- The slots of the entries of a queue are distinct: less than `QCAP` apart, two cursors have different slots (R61). -/
theorem slotOf_ne {qcap c j k : Nat} (h1 : j < k) (h2 : k < j + qcap) : slotOf qcap (c + j) ≠ slotOf qcap (c + k) := by
  unfold slotOf
  intro h
  have h3 : c + j ≡ c + j + (k - j) [MOD qcap] := by
    rw [show c + j + (k - j) = c + k by omega]
    exact h
  have h4 : (k - j) % qcap = 0 := (Nat.ModEq.add_left_cancel' (c + j) (show c + j + 0 ≡ c + j + (k - j) [MOD qcap] from h3)).symm
  rw [Nat.mod_eq_of_lt (by omega)] at h4
  omega

/-- An enqueue into a queue with room: the byte is the newest unread one (R67, R69). -/
theorem enqueue_of_room (t : Track) (v : Byte) (s : State) (l : List Byte) (hw : (s.queue.get t).wr < 2 * s.cfg.qcap)
    (hr : (s.queue.get t).rd < 2 * s.cfg.qcap) (ho : (s.queue.get t).occ s.cfg.qcap < s.cfg.qcap)
    (hl : unread t s = some l) :
    enqueue t v s = s.setQueue t
      { buf := (s.queue.get t).buf.write ((s.queue.get t).wr % s.cfg.qcap) v,
        wr := ((s.queue.get t).wr + 1) % (2 * s.cfg.qcap), rd := (s.queue.get t).rd } ∧
    unread t (enqueue t v s) = some (l ++ [v]) ∧
    ((enqueue t v s).queue.get t).occ s.cfg.qcap = (s.queue.get t).occ s.cfg.qcap + 1 := by
  rcases enqueue_cases t v s with ⟨h, _⟩ | ⟨_, he⟩
  · omega
  refine ⟨he, ?_⟩
  rw [he]
  have hocc := occ_eq hw hr
  have hn : ({ buf := (s.queue.get t).buf.write ((s.queue.get t).wr % s.cfg.qcap) v,
               wr := ((s.queue.get t).wr + 1) % (2 * s.cfg.qcap), rd := (s.queue.get t).rd } : Queue).occ s.cfg.qcap =
      (s.queue.get t).occ s.cfg.qcap + 1 := by
    have hpos : 0 < 2 * s.cfg.qcap := by omega
    have hocc' := occ_eq (q := ⟨(s.queue.get t).buf.write ((s.queue.get t).wr % s.cfg.qcap) v,
      ((s.queue.get t).wr + 1) % (2 * s.cfg.qcap), (s.queue.get t).rd⟩) (Nat.mod_lt _ hpos) hr
    rw [hocc', hocc]
    rw [hocc] at ho
    simp only [cursor_succ hw]
    clear hocc hocc' he hl
    split_ifs at ho ⊢ <;> omega
  have hslot : slotOf s.cfg.qcap ((s.queue.get t).rd + (s.queue.get t).occ s.cfg.qcap) = (s.queue.get t).wr % s.cfg.qcap := by
    unfold slotOf
    rw [hocc]
    split
    · congr 1; omega
    · rw [show (s.queue.get t).rd + ((s.queue.get t).wr + 2 * s.cfg.qcap - (s.queue.get t).rd) =
        (s.queue.get t).wr + 2 * s.cfg.qcap by omega]
      simp
  refine ⟨?_, by simpa using hn⟩
  simp only [unread, State.setQueue_queue, State.setQueue_cfg, PerTrack.get_set_same, hn]
  refine readSlots_snoc ?_ (by rw [hslot]; simp)
  rw [readSlots_write]
  · simpa [unread] using hl
  · intro j hj
    rw [← hslot]
    exact slotOf_ne hj (by omega)

end Sys2Proof.Machine
end

