-- ==== Sys2Proof/Tests/Slice0.lean ====
section
/-! SUPPORT. Tests: the well-formedness checks, words written out from the spec's encodings, single steps of the spec's
vectors (spec/95_test_vectors.md), and for each statement with hypotheses a state that meets them. -/

namespace Sys2Proof.Tests

open Sys2Proof Sys2Proof.Machine

/-- The outcome is a next state with property `p`. -/
def answers (o : Host.Outcome State Fault Refusal) (p : State → Bool) : Bool :=
  match o with
  | .next s => p s
  | .fault _ => false
  | .refused _ => false

/-- The outcome is the fault `f`. -/
def faults (o : Host.Outcome State Fault Refusal) (f : Fault) : Bool :=
  match o with
  | .next _ => false
  | .fault g => decide (g = f)
  | .refused _ => false

/-! ## Well-formedness: one ill-formed term for each check -/

theorem test_char2_of_the_terminator_is_ill_formed : (Instr.char2 1#1 0xF#4).wf = false := by decide

theorem test_char1_of_the_terminator_is_ill_formed : (Instr.char1 0#1 0x1F#6).wf = false := by decide

theorem test_well_formed_neighbours :
    (Instr.char2 0#1 0xF#4).wf = true ∧ (Instr.char2 1#1 0xE#4).wf = true ∧ (Instr.char1 1#1 0x1F#6).wf = true ∧
      (Instr.char1 0#1 0x1E#6).wf = true := by decide

/-! ## Decoding: a word of each row, bit by bit from spec/30_encoding.md -/

/-- R97 `1T0rrrrr`; V-E3: 0xDF, the reserved bits set. -/
theorem test_decode_start :
    decode (.wire ⟨none, none⟩) 0b10000000 = .ok (.start .t1) ∧ decode (.wire ⟨none, none⟩) 0b11011111 = .ok (.start .t2) := by
  decide

/-- R98 `1T1rrrrr`; V-E3: 0xFF and 0xBF. -/
theorem test_decode_stop :
    decode (.wire ⟨none, none⟩) 0b11111111 = .ok (.stop .t2) ∧ decode (.wire ⟨none, none⟩) 0b10111111 = .ok (.stop .t1) := by
  decide

/-- R99 `0TrrNNNN` with `pend[t]` = NONE; V-E3: 0x74. -/
theorem test_decode_size :
    decode (.wire ⟨some 1#4, none⟩) 0b01110100 = .ok (.size .t2 4#4) ∧ decode (.wire ⟨none, some 1#4⟩) 0b00111010 = .ok (.size .t1 10#4) := by
  decide

/-- R100 `0TrrNNNN` with a count in `pend[t]`; V-E3: 0x5D. -/
theorem test_decode_bits :
    decode (.wire ⟨none, some 4#4⟩) 0b01011101 = .ok (.bits .t2 13#4) ∧ decode (.wire ⟨some 0#4, none⟩) 0b00000111 = .ok (.bits .t1 7#4) := by
  decide

/-- R105, R106; V-E4: `Frame(4D)` = 0101100101. -/
theorem test_decode_frame :
    decode .line 0b0101100101 = .ok (.frame 0x4D#8) ∧ frameBits 0x4D#8 = [false, true, false, true, true, false, false, true, false, true] := by
  decide

/-- R105: a wrong start bit and a wrong stop bit are not a frame. -/
theorem test_decode_bad_frames :
    decode .line 0b1101100101 = .error .badStartBit ∧ decode .line 0b0101100100 = .error .badStopBit := by decide

/-- R109, R115; V-E5: format 2, `5` is 0x15 = `10101` and `=` is 0x0D = `01101`. -/
theorem test_decode_char2 :
    decode (.groups .t2) 0b10101 = .ok (.char2 1#1 5#4) ∧ decode (.groups .t2) 0b01101 = .ok (.char2 0#1 0xD#4) := by decide

/-- R110: 0x0B, and any other window is not the sentinel. -/
theorem test_decode_sent2 :
    decode (.search .t2) 0b01011 = .ok .sent2 ∧ decode (.search .t2) 0b01010 = .error .notSentinel := by decide

/-- R110: 0x1F. -/
theorem test_decode_term2 : decode (.groups .t2) 0b11111 = .ok .term2 := by decide

/-- R109, R115; V-E5: format 1, `A` is 0x61 and `1` is 0x51. -/
theorem test_decode_char1 :
    decode (.groups .t1) 0b1100001 = .ok (.char1 1#1 0x21#6) ∧ decode (.groups .t1) 0b1010001 = .ok (.char1 1#1 0x11#6) := by decide

/-- R110: 0x45. -/
theorem test_decode_sent1 :
    decode (.search .t1) 0b1000101 = .ok .sent1 ∧ decode (.search .t1) 0b0000101 = .error .notSentinel := by decide

/-- R110: 0x1F, a whole 7-bit value: 0x5F is no terminator. -/
theorem test_decode_term1 :
    decode (.groups .t1) 0b0011111 = .ok .term1 ∧ decode (.groups .t1) 0b1011111 = .ok (.char1 1#1 0x1F#6) := by decide

/-- V-E5: the streams of `;`, `?`, `A` and the windows of `1101011111`. -/
theorem test_group_streams_and_windows :
    groupStream .t2 0x0B#7 = [true, true, false, true, false] ∧ groupStream .t1 0x61#7 = [true, false, false, false, false, true, true] ∧
      win [true, true, false, true, false, true, true, true, true, true] 3 5 = 0x1D#7 := by decide

/-- V-F6: `BITSEQ 2, 1101011111`. -/
theorem test_bitseq :
    bitseqBytes 4 .t2 [true, true, false, true, false, true, true, true, true, true] =
      [0x44#8, 0x4D#8, 0x44#8, 0x47#8, 0x42#8, 0x43#8] := by decide

/-! ## Small states -/

/-- The bits of V-D1: `;?` in format 2. -/
def semicolonQuestion : List Bit := [true, true, false, true, false, true, true, true, true, true]

/-- A host with room for `cap` bits whose track 2 holds `h`. -/
def hostState (cap : Nat) (h : HostTrack) : State :=
  { State.reset with cfg := { Params.default with tbcap := cap }, host := ⟨.reset, h⟩ }

/-- The host before the STOP of V-R11: `raw[2]` = `1101011111`. -/
def beforeStop : State := hostState 1024 ⟨[(0, 0xD7#8), (1, 0xC0#8)], 10, none, false⟩

/-- Reset with an empty free input that goes on as `r` says. -/
def streamState (r : RxRest) : State :=
  { State.reset with rxRest := r, cfg := { Params.default with rxSource := .stream } }

/-- The state of an attempt in format `f` on `s`, at position `p` of phase `ph`. -/
def attempt (f : Track) (s : List Bit) (p : Nat) (ph : Phase) (chars : List Byte) : State :=
  { State.reset with dec := some ⟨f, .forward, s, p, ph, chars⟩ }

/-- The middle of a swipe of track 2: two bits in each accumulator, bytes in both queues, a frame of 0xC0 in its fourth
period (V-T1, tick 3), requests of two sources, bytes on the link, and host state of both tracks. -/
def midSwipe : State :=
  { State.reset with
    chan := ⟨⟨0b10#4, 2, .falling⟩, ⟨0b11#4, 2, .rising⟩⟩
    queue := ⟨⟨[(0, 0x80#8)], 1, 0⟩, ⟨[(0, 0xC0#8), (1, 0x44#8), (2, 0x4D#8)], 3, 1⟩⟩
    tx := ⟨.d2, 0x18#8, false, false, true, 0xC0#8⟩
    ml := ⟨.t2, true⟩
    irq := ⟨⟨false, true⟩, ⟨true, false⟩, true⟩
    link := [0xE0#8, 0x44#8]
    host := ⟨⟨[(0, 0x80#8)], 1, some 4#4, false⟩, ⟨[(0, 0xD7#8), (1, 0xC0#8)], 10, none, false⟩⟩ }

/-! ## Single steps of the instructions -/

/-- V-R7: the second START of track 2 cancels the pending count. -/
theorem test_start :
    answers (exec (.start .t2) (hostState 1024 ⟨[(0, 0xD7#8)], 4, some 4#4, true⟩)) (fun s =>
      decide (s.host.t2.rawLen = 0 ∧ s.host.t2.pend = none ∧ s.host.t2.ovf = false ∧ s.host.t1 = .reset)) = true := by decide

/-- V-R11: STOP of `1101011111` reports the line `;?`. -/
theorem test_stop_reports_a_line :
    answers (exec (.stop .t2) beforeStop) (fun s => decide (s.out = [.line .t2 [0x3B#8, 0x3F#8]])) = true := by decide

/-- V-R8: STOP of the empty sequence is unreadable and keeps the pending count. -/
theorem test_stop_of_nothing :
    answers (exec (.stop .t2) (hostState 1024 ⟨[], 0, some 4#4, false⟩)) (fun s =>
      decide (s.out = [.unreadable .t2] ∧ s.host.t2.pend = some 4#4)) = true := by decide

/-- V-R4: SIZE stores 7. -/
theorem test_size :
    answers (exec (.size .t2 7#4) (hostState 1024 .reset)) (fun s => decide (s.host.t2.pend = some 7#4)) = true := by decide

/-- V-R4: BITS 0b1011 under a count of 7 appends `0001011`. -/
theorem test_bits_reads_the_nibble_zero_extended :
    answers (exec (.bits .t2 0b1011#4) (hostState 1024 ⟨[], 0, some 7#4, false⟩)) (fun s =>
      decide (rawSeq .t2 s = some [false, false, false, true, false, true, true] ∧ s.host.t2.pend = none)) = true := by decide

/-- V-R12: with 8 bits of 8, the two bits of `42 43` overflow once. -/
theorem test_bits_overflow :
    answers (exec (.bits .t2 3#4) (hostState 8 ⟨[(0, 0xD7#8)], 8, some 2#4, false⟩)) (fun s =>
      decide (s.out = [.overflowDiag .t2] ∧ s.host.t2.ovf = true ∧ s.host.t2.rawLen = 8 ∧ s.host.t2.pend = none)) = true := by
  decide

/-- V-T1: `send(C0)`. -/
theorem test_frame :
    answers (exec (.frame 0xC0#8) State.reset) (fun s =>
      decide (s.tx.state = .start ∧ s.tx.shift = 0xC0#8 ∧ s.tx.line = false ∧ s.tx.done = false ∧ s.tx.armed = true)) = true := by
  decide

/-- U5: no FRAME while a frame is on the line. -/
theorem test_frame_while_busy : faults (exec (.frame 0x44#8) midSwipe) .sendWhileBusy = true := by decide

/-- V-D4: the group 0x15 is `5`. -/
theorem test_char2 :
    answers (exec (.char2 1#1 5#4) (attempt .t2 [] 5 .groups [0x3B#8])) (fun s =>
      decide (s.dec.map Decoder.chars = some [0x3B#8, 0x35#8] ∧ s.dec.map Decoder.pos = some 10)) = true := by decide

/-- V-D5: the group 0x05 fails on parity. -/
theorem test_char2_parity :
    answers (exec (.char2 0#1 5#4) (attempt .t2 [] 5 .groups [0x3B#8])) (fun s =>
      decide (s.dec.map Decoder.phase = some (.failed .parity))) = true := by decide

/-- V-D1: the sentinel is `;`. -/
theorem test_sent2 :
    answers (exec .sent2 (attempt .t2 semicolonQuestion 0 .search [])) (fun s =>
      decide (s.dec.map Decoder.chars = some [0x3B#8] ∧ s.dec.map Decoder.pos = some 5)) = true := by decide

/-- V-D1: the terminator is `?` and ends the attempt. -/
theorem test_term2 :
    answers (exec .term2 (attempt .t2 semicolonQuestion 5 .groups [0x3B#8])) (fun s =>
      decide (s.dec.map Decoder.chars = some [0x3B#8, 0x3F#8] ∧ s.dec.map Decoder.phase = some .ok)) = true := by decide

/-- V-D9: the group 0x61 is `A`. -/
theorem test_char1 :
    answers (exec (.char1 1#1 0x21#6) (attempt .t1 [] 7 .groups [0x25#8])) (fun s =>
      decide (s.dec.map Decoder.chars = some [0x25#8, 0x41#8] ∧ s.dec.map Decoder.pos = some 14)) = true := by decide

/-- V-E6: 0x5F has an even number of 1 bits. -/
theorem test_char1_parity :
    answers (exec (.char1 1#1 0x1F#6) (attempt .t1 [] 7 .groups [0x25#8])) (fun s =>
      decide (s.dec.map Decoder.phase = some (.failed .parity))) = true := by decide

/-- V-D11: the sentinel is `%`. -/
theorem test_sent1 :
    answers (exec .sent1 (attempt .t1 [] 0 .search [])) (fun s =>
      decide (s.dec.map Decoder.chars = some [0x25#8] ∧ s.dec.map Decoder.pos = some 7)) = true := by decide

/-- V-D11: the terminator is `?`. -/
theorem test_term1 :
    answers (exec .term1 (attempt .t1 [] 7 .groups [0x25#8])) (fun s =>
      decide (s.dec.map Decoder.chars = some [0x25#8, 0x3F#8] ∧ s.dec.map Decoder.phase = some .ok)) = true := by decide

/-! ## Single steps of the agents -/

/-- V-S1: data low is a logical 1. -/
theorem test_sample_polarity :
    answers (serve (.clkEdge .t2 false) State.reset) (fun s =>
      decide (s.chan.t2.accVal = 1#4 ∧ s.chan.t2.accCnt = 1 ∧ s.queue.t2.wr = 0)) = true := by decide

/-- V-S3: the fourth bit flushes 44 4D. -/
theorem test_sample_flushes :
    answers (serve (.clkEdge .t2 false) { State.reset with chan := ⟨.reset, ⟨0b110#4, 3, .falling⟩⟩ }) (fun s =>
      decide (s.queue.t2 = ⟨[(0, 0x44#8), (1, 0x4D#8)], 2, 0⟩ ∧ s.chan.t2 = ⟨0#4, 0, .falling⟩)) = true := by decide

/-- V-S7: the start of a swipe discards the accumulated bits. -/
theorem test_card_arrival :
    answers (serve (.cpEdge .t1) { State.reset with chan := ⟨⟨0b10#4, 2, .falling⟩, .reset⟩ }) (fun s =>
      decide (s.queue.t1 = ⟨[(0, 0x80#8)], 1, 0⟩ ∧ s.chan.t1 = ⟨0#4, 0, .rising⟩ ∧ s.busy = true)) = true := by decide

/-- V-S8: the end of a swipe flushes the partial group, then enqueues STOP. -/
theorem test_card_removal :
    answers (serve (.cpEdge .t2) { State.reset with chan := ⟨.reset, ⟨0b11#4, 2, .rising⟩⟩ }) (fun s =>
      decide (s.queue.t2 = ⟨[(0, 0x42#8), (1, 0x43#8), (2, 0xE0#8)], 3, 0⟩ ∧ s.chan.t2 = ⟨0#4, 0, .falling⟩)) = true := by
  decide

/-- V-T1, tick 4, and V-T1, tick 10. -/
theorem test_ticks :
    answers (serve .tick midSwipe) (fun s => decide (s.tx = ⟨.d3, 0x0C#8, false, false, true, 0xC0#8⟩)) = true ∧
    answers (serve .tick { midSwipe with tx := ⟨.stop, 0#8, true, false, true, 0xC0#8⟩ }) (fun s =>
      decide (s.tx = ⟨.idle, 0#8, true, true, false, 0xC0#8⟩ ∧ s.link = [0xE0#8, 0x44#8, 0xC0#8])) = true := by decide

/-- V-T1: MAIN dequeues C0 and sends it. -/
theorem test_main_dequeues :
    answers (serve .main { State.reset with queue := ⟨.reset, ⟨[(0, 0xC0#8)], 1, 0⟩⟩ }) (fun s =>
      decide (s.queue.t2.rd = 1 ∧ s.tx.shift = 0xC0#8 ∧ s.tx.state = .start ∧ s.ml = ⟨.t2, true⟩)) = true := by decide

/-- V-T7: with an empty queue MAIN passes the turn; V-T3: while the loop waits MAIN changes nothing. -/
theorem test_main_turns :
    answers (serve .main State.reset) (fun s => decide (s.ml = ⟨.t1, false⟩)) = true ∧
    answers (serve .main midSwipe) (fun s => decide (s = midSwipe)) = true := by decide

/-- V-Q2: `QCAP` = 1, after a dequeue 4D goes to slot 0 and `wr` wraps to 0. -/
theorem test_queue_of_one :
    (enqueue .t2 0x4D#8 { State.reset with cfg := { Params.default with qcap := 1 }, queue := ⟨.reset, ⟨[(0, 0xC0#8)], 1, 1⟩⟩ }).queue.t2 =
      ⟨[(0, 0x4D#8)], 0, 1⟩ := by decide

/-- V-Q1: `QCAP` = 3, 44 is dropped at a full queue. -/
theorem test_full_queue_drops :
    (enqueue .t1 0x44#8 { State.reset with cfg := { Params.default with qcap := 3 }, queue := ⟨⟨[(0, 0x11#8), (1, 0x22#8), (2, 0x33#8)], 3, 0⟩, .reset⟩ }).queue.t1 =
      ⟨[(0, 0x11#8), (1, 0x22#8), (2, 0x33#8)], 3, 0⟩ := by decide

/-- The bits of V-D5, V-D2 and V-D11 decoded as functions. -/
theorem test_decode_track :
    decodeTrack [true, true, false, true, false, true, false, true, false, false, true, true, true, true, true] .t2 =
      .error (.parity, .noSentinel) ∧
    decodeOne semicolonQuestion.reverse .t2 = .error .noTerminator ∧
    decodeTrack semicolonQuestion.reverse .t2 = .ok [0x3B#8, 0x3F#8] := by decide

/-- V-D11: `Enc("%?", 1)` in the search of format 1. -/
theorem test_decode_track1 :
    decodeTrack (groupStream .t1 0x45#7 ++ groupStream .t1 0x1F#7) .t1 = .ok [0x25#8, 0x3F#8] := by decide

/-- V-R14: at the end of the input the host stops with `pend[2]` = 4 and nothing in `out`; before the end it waits (R201). -/
theorem test_end_of_input :
    answers (serve .host { streamState .ended with host := ⟨.reset, ⟨[(0, 0xD0#8)], 4, some 4#4, false⟩⟩ }) (fun s =>
      decide (s.hostStopped = true ∧ s.host.t2 = ⟨[(0, 0xD0#8)], 4, some 4#4, false⟩ ∧ s.out = [])) = true ∧
    answers (serve .host (streamState .waiting)) (fun s => decide (s = streamState .waiting)) = true := by decide

/-- A byte that arrives while the host waits is the next one it runs: START of track 1. -/
theorem test_byte_arrives :
    answers (serve (.rxByte 0x80#8) (streamState .waiting)) (fun s => decide (s.rx = [0x80#8])) = true ∧
    answers (serve (.rxByte 0x80#8) (streamState .ended)) (fun s => decide (s = streamState .ended)) = true := by decide

/-- A table word placed after reset is what the next step runs: FRAME of 0x4D. -/
theorem test_withFetchWord_frame :
    answers (step (State.reset.withFetchWord 16 0b0101100101)) (fun s =>
      decide (s.tx.byte = 0x4D#8 ∧ s.tx.state = .start ∧ s.events = [])) = true := by decide

/-- A table word placed after reset is what the next step runs: SIZE of track 2 and SENT1. -/
theorem test_withFetchWord_host :
    answers (step (State.reset.withFetchWord 8 0x44)) (fun s => decide (s.host.t2.pend = some 4#4)) = true ∧
    answers (step (State.reset.withFetchWord 8 0x45)) (fun s => decide (s.dec.map Decoder.chars = some [0x25#8])) = true := by
  decide

/-! ## Witnesses: for each statement with hypotheses, states and operands that meet them -/

theorem midSwipe_inv : midSwipe.Inv where
  cfg := by decide
  chan := by intro t; cases t <;> exact ⟨by decide, by decide⟩
  queue := by
    intro t
    cases t <;>
      exact ⟨by decide, by decide, by decide, by decide, by decide, by decide, by decide⟩
  tx := ⟨by decide, by decide, by decide, by decide, by decide, by decide⟩
  host := by intro t; cases t <;> exact ⟨by decide, by decide, by decide, by decide, by decide⟩
  dec := rfl

theorem witness_DecodeOfEncodeIsTheInstruction :
    ((Instr.char2 1#1 0xE#4).wf = true ∧ (Instr.char2 1#1 0xE#4).readIn (.groups .t2) = true) ∧
    ((Instr.bits .t2 15#4).wf = true ∧ (Instr.bits .t2 15#4).readIn (.wire ⟨none, some 0#4⟩) = true) := by decide

theorem witness_EncodeOfDecodeIsTheExaminedWord :
    decode (.wire ⟨none, none⟩) 0xFF = .ok (.stop .t2) ∧ decode .line 0b0111111111 = .ok (.frame 0xFF#8) := by decide

theorem witness_OneFlippedBitBreaksParity :
    groupValid 0x7F#7 = true ∧ groupValid 0x0B#7 = true ∧ 0 < 7 ∧ 6 < 7 := by decide

/-- With an event waiting, and with none. -/
theorem witness_StepServesTheNextEvent : (∃ s : State, s.events = .tick :: [.main]) ∧ (∃ s : State, s.events = []) :=
  ⟨⟨{ State.reset with events := [.tick, .main] }, rfl⟩, ⟨State.reset, rfl⟩⟩

/-- From the link, from the free input, and from a free input that never ends. -/
theorem witness_HostStepRunsTheDecodedByte :
    (∃ s : State, s.events = .host :: [] ∧ s.hostStopped = false ∧ s.dec = none ∧
      decode (.wire (pendOf s)) (0x4D#8).toNat = .ok (.bits .t2 13#4) ∧ s.cfg.rxSource = .link ∧ s.link = 0x4D#8 :: []) ∧
    (∃ s : State, s.events = .host :: [] ∧ s.hostStopped = false ∧ s.dec = none ∧
      decode (.wire (pendOf s)) (0x4D#8).toNat = .ok (.size .t2 13#4) ∧ s.cfg.rxSource = .stream ∧ s.rx = 0x4D#8 :: []) ∧
    (∃ (s : State) (i : Instr), s.events = .host :: [] ∧ s.hostStopped = false ∧ s.dec = none ∧
      decode (.wire (pendOf s)) (Config.rxByte s.rxTaken).toNat = .ok i ∧ s.cfg.rxSource = .stream ∧ s.rx = [] ∧
      s.rxRest = .unending) :=
  ⟨⟨{ hostState 16 ⟨[], 0, some 0#4, false⟩ with events := [.host], link := [0x4D#8] }, by decide⟩,
   ⟨{ State.reset with events := [.host], rx := [0x4D#8], cfg := { Params.default with rxSource := .stream } }, by decide⟩,
   ⟨{ streamState .unending with events := [.host] }, _, rfl, rfl, rfl, decode_wire_byte _ _, rfl, rfl, rfl⟩⟩

theorem witness_MainStepRunsTheFrame :
    ∃ s : State, s.events = .main :: [] ∧ s.ml.wait = false ∧ (s.queue.get s.ml.track).occ s.cfg.qcap ≠ 0 ∧
      (s.queue.get s.ml.track).buf.read ((s.queue.get s.ml.track).rd % s.cfg.qcap) = some 0xC0#8 :=
  ⟨{ State.reset with events := [.main], queue := ⟨.reset, ⟨[(0, 0xC0#8)], 1, 0⟩⟩ }, by decide⟩

/-- In the search and in the group loop, the last window that fits. -/
theorem witness_DecoderStepRunsTheGroup :
    (∃ (s : State) (d : Decoder), s.events = .host :: [] ∧ s.hostStopped = false ∧ s.dec = some d ∧
      d.pos + fmtWidth d.fmt ≤ d.seq.length ∧ d.phase = .search ∧
      decode (.search d.fmt) (win d.seq d.pos (fmtWidth d.fmt)).toNat = .ok .sent2) ∧
    (∃ (s : State) (d : Decoder), s.events = .host :: [] ∧ s.hostStopped = false ∧ s.dec = some d ∧
      d.pos + fmtWidth d.fmt ≤ d.seq.length ∧ d.phase = .groups ∧
      decode (.groups d.fmt) (win d.seq d.pos (fmtWidth d.fmt)).toNat = .ok .term2) :=
  ⟨⟨{ attempt .t2 semicolonQuestion 0 .search [] with events := [.host] }, ⟨.t2, .forward, semicolonQuestion, 0, .search, []⟩,
    by decide⟩,
   ⟨{ attempt .t2 semicolonQuestion 5 .groups [0x3B#8] with events := [.host] },
    ⟨.t2, .forward, semicolonQuestion, 5, .groups, [0x3B#8]⟩, by decide⟩⟩

theorem witness_SizeStoresTheCount : (State.reset.host.get .t2).pend = none := by decide

/-- A count of 0, and a field that fills the buffer exactly. -/
theorem witness_BitsAppendsItsField :
    (∃ s : State, (s.host.get .t2).pend = some 0#4 ∧ (s.host.get .t2).ovf = false ∧ rawSeq .t2 s = some [] ∧
      (s.host.get .t2).rawLen + (0#4).toNat ≤ s.cfg.tbcap) ∧
    (∃ s : State, (s.host.get .t2).pend = some 6#4 ∧ (s.host.get .t2).ovf = false ∧ rawSeq .t2 s = some semicolonQuestion ∧
      (s.host.get .t2).rawLen + (6#4).toNat = s.cfg.tbcap) :=
  ⟨⟨hostState 16 ⟨[], 0, some 0#4, false⟩, by decide⟩,
   ⟨hostState 16 ⟨[(0, 0xD7#8), (1, 0xC0#8)], 10, some 6#4, false⟩, by decide⟩⟩

/-- A field with one bit too many, and a bit at a full buffer. -/
theorem witness_BitsOverflowKeepsWhatFitsAndReportsOnce :
    (∃ s : State, (s.host.get .t2).pend = some 7#4 ∧ (s.host.get .t2).ovf = false ∧ rawSeq .t2 s = some semicolonQuestion ∧
      (s.host.get .t2).rawLen ≤ s.cfg.tbcap ∧ s.cfg.tbcap < (s.host.get .t2).rawLen + (7#4).toNat) ∧
    (∃ s : State, (s.host.get .t2).pend = some 1#4 ∧ (s.host.get .t2).ovf = false ∧ rawSeq .t2 s = some [] ∧
      (s.host.get .t2).rawLen = s.cfg.tbcap ∧ s.cfg.tbcap < (s.host.get .t2).rawLen + (1#4).toNat) :=
  ⟨⟨hostState 16 ⟨[(0, 0xD7#8), (1, 0xC0#8)], 10, some 7#4, false⟩, by decide⟩,
   ⟨hostState 0 ⟨[], 0, some 1#4, false⟩, by decide⟩⟩

theorem witness_BitsAfterOverflowOnlyClearsPend :
    ∃ s : State, (s.host.get .t2).pend = some 2#4 ∧ (s.host.get .t2).ovf = true :=
  ⟨hostState 8 ⟨[(0, 0xD7#8)], 8, some 2#4, true⟩, by decide⟩

theorem witness_StopReportsTheSequence :
    (∃ s : State, s.cfg.outEn.get .t2 = false) ∧
    (∃ s : State, s.cfg.outEn.get .t2 = true ∧ s.cfg.outMode = .interpret ∧ rawSeq .t2 s = some semicolonQuestion ∧
      decodeTrack semicolonQuestion .t2 = .ok [0x3B#8, 0x3F#8]) ∧
    (∃ s : State, s.cfg.outEn.get .t2 = true ∧ s.cfg.outMode = .interpret ∧ rawSeq .t2 s = some [] ∧
      decodeTrack [] .t2 = .error (.noSentinel, .noSentinel)) ∧
    (∃ s : State, s.cfg.outEn.get .t2 = true ∧ s.cfg.outMode = .binary ∧ rawSeq .t2 s = some []) :=
  ⟨⟨{ State.reset with cfg := { Params.default with outEn := .both false } }, by decide⟩, ⟨beforeStop, by decide⟩,
   ⟨State.reset, by decide⟩, ⟨{ State.reset with cfg := { Params.default with outMode := .binary } }, by decide⟩⟩

theorem witness_ProtocolBytesStopOutOfTheirState :
    (∃ s : State, (s.host.get .t1).pend ≠ none) ∧ (∃ s : State, (s.host.get .t1).pend = none) ∧
    (∃ s : State, s.cfg.outEn.get .t2 = true ∧ rawSeq .t2 s = none) :=
  ⟨⟨midSwipe, by decide⟩, ⟨State.reset, by decide⟩, ⟨hostState 8 ⟨[], 1, none, false⟩, by decide⟩⟩

theorem witness_SentinelRowsAnchorTheGroups :
    (∃ (s : State) (d : Decoder), s.dec = some d ∧ d.phase = .search ∧ d.fmt = .t2) ∧
    (∃ (s : State) (d : Decoder), s.dec = some d ∧ d.phase = .search ∧ d.fmt = .t1) :=
  ⟨⟨attempt .t2 [] 0 .search [], _, rfl, by decide⟩, ⟨attempt .t1 [] 0 .search [], _, rfl, by decide⟩⟩

/-- Valid groups next to the terminator: 0x0E in format 2 and 0x5E in format 1. -/
theorem witness_ValidCharacterRowsEmitTheirCharacter :
    (∃ (s : State) (d : Decoder), s.dec = some d ∧ d.phase = .groups ∧ d.fmt = .t2 ∧ (Instr.char2 0#1 0xE#4).wf = true ∧
      popcount (group2 0#1 0xE#4) % 2 = 1) ∧
    (∃ (s : State) (d : Decoder), s.dec = some d ∧ d.phase = .groups ∧ d.fmt = .t1 ∧ (Instr.char1 1#1 0x1E#6).wf = true ∧
      popcount (group1 1#1 0x1E#6) % 2 = 1) :=
  ⟨⟨attempt .t2 [] 5 .groups [0x3B#8], _, rfl, by decide⟩, ⟨attempt .t1 [] 7 .groups [0x25#8], _, rfl, by decide⟩⟩

theorem witness_EvenGroupsFailTheOrientation :
    (∃ (s : State) (d : Decoder), s.dec = some d ∧ d.phase = .groups ∧ d.fmt = .t2 ∧ popcount (group2 0#1 0xF#4) % 2 = 0) ∧
    (∃ (s : State) (d : Decoder), s.dec = some d ∧ d.phase = .groups ∧ d.fmt = .t1 ∧ popcount (group1 1#1 0x1F#6) % 2 = 0) :=
  ⟨⟨attempt .t2 [] 5 .groups [0x3B#8], _, rfl, by decide⟩, ⟨attempt .t1 [] 7 .groups [0x25#8], _, rfl, by decide⟩⟩

theorem witness_TerminatorRowsEndTheTrack :
    (∃ (s : State) (d : Decoder), s.dec = some d ∧ d.phase = .groups ∧ d.fmt = .t2) ∧
    (∃ (s : State) (d : Decoder), s.dec = some d ∧ d.phase = .groups ∧ d.fmt = .t1) :=
  ⟨⟨attempt .t2 [] 5 .groups [0x3B#8], _, rfl, by decide⟩, ⟨attempt .t1 [] 7 .groups [0x25#8], _, rfl, by decide⟩⟩

/-- No attempt at all meets every clause; so does, for the group rows, an attempt that is still in its search. -/
theorem witness_GroupRowsStopOutsideTheirAttempt :
    (∃ s : State, ∀ d, s.dec = some d → ¬(d.fmt = .t2 ∧ d.phase = .search)) ∧
    (∃ s : State, ∀ d, s.dec = some d → ¬(d.fmt = .t1 ∧ d.phase = .search)) ∧
    (∃ s : State, ∀ d, s.dec = some d → ¬(d.fmt = .t2 ∧ d.phase = .groups)) ∧
    (∃ s : State, ∀ d, s.dec = some d → ¬(d.fmt = .t1 ∧ d.phase = .groups)) := by
  refine ⟨⟨State.reset, ?_⟩, ⟨attempt .t2 [] 0 .search [], ?_⟩, ⟨attempt .t2 [] 0 .search [], ?_⟩,
    ⟨attempt .t2 [] 5 .groups [], ?_⟩⟩ <;> intro d h <;> cases h <;> decide

theorem witness_RunningTheGroupsIsStop :
    beforeStop.dec = none ∧ beforeStop.hostStopped = false ∧ beforeStop.cfg.outEn.get .t2 = true ∧
      beforeStop.cfg.outMode = .interpret ∧ rawSeq .t2 beforeStop = some semicolonQuestion := by decide

theorem witness_SearchTakesTheFirstSentinel :
    findSentinel .t2 semicolonQuestion = some 0 ∧ findSentinel .t1 semicolonQuestion = none := by decide

theorem witness_DecodedTextIsBracketed : decodeOne semicolonQuestion .t2 = .ok [0x3B#8, 0x3F#8] := by decide

/-- No character between sentinel and terminator, and one; two zeros before them; the reversal fails forwards (V-D2). -/
theorem witness_EncodedTracksDecodeInBothDirections :
    (∀ g ∈ ([] : List Group), groupValid g = true ∧ g ≠ fmtTerm .t2 ∧ g.toNat < 2 ^ fmtWidth .t2) ∧
    (∀ g ∈ [group2 1#1 5#4], groupValid g = true ∧ g ≠ fmtTerm .t2 ∧ g.toNat < 2 ^ fmtWidth .t2) ∧
    ((∀ b ∈ [false, false], b = false) ∧ ∀ j, j < [false, false].length →
      win ([false, false] ++ groupStream .t2 (fmtSent .t2) ++ [group2 1#1 5#4].flatMap (groupStream .t2) ++
        groupStream .t2 (fmtTerm .t2) ++ []) j (fmtWidth .t2) ≠ fmtSent .t2) ∧
    decodeOne ([] ++ groupStream .t2 (fmtSent .t2) ++ [].flatMap (groupStream .t2) ++
      groupStream .t2 (fmtTerm .t2) ++ []).reverse .t2 = .error .noTerminator ∧
    (∃ (f : Track) (gs : List Group) (y : List Bit) (other : List Byte),
      (∀ g ∈ gs, groupValid g = true ∧ g ≠ fmtTerm f ∧ g.toNat < 2 ^ fmtWidth f) ∧
      decodeOne ([] ++ groupStream f (fmtSent f) ++ gs.flatMap (groupStream f) ++ groupStream f (fmtTerm f) ++ y).reverse f =
        .ok other) := by
  refine ⟨by decide, by decide, by decide, by decide, .t2, [], semicolonQuestion.reverse, [0x3B#8, 0x3F#8], by decide, by decide⟩

theorem witness_FrameStartsInIdleOnly : State.reset.tx.state = .idle ∧ midSwipe.tx.state ≠ .idle := by decide

/-- A state for each of the ten transitions. -/
theorem witness_TickTakesTheTransitionOfItsState :
    ∀ x ∈ [TxState.start, .d0, .d1, .d2, .d3, .d4, .d5, .d6, .d7, .stop],
      ({ midSwipe with tx := { midSwipe.tx with state := x } } : State).tx.armed = true ∧
      ({ midSwipe with tx := { midSwipe.tx with state := x } } : State).tx.state = x := by decide

theorem witness_TenTicksSendTheFrame : State.reset.tx.state = .idle ∧ 0 < 10 ∧ 9 < 10 := by decide

theorem witness_NoTickWhileTheTimerIsUnarmed : State.reset.tx.armed = false := by decide

theorem witness_MainLoopTurns :
    (∃ s : State, s.ml.wait = false ∧
      ((s.queue.get s.ml.track).wr + 2 * s.cfg.qcap - (s.queue.get s.ml.track).rd) % (2 * s.cfg.qcap) = 0) ∧
    (∃ s : State, s.ml.wait = false ∧
      0 < ((s.queue.get s.ml.track).wr + 2 * s.cfg.qcap - (s.queue.get s.ml.track).rd) % (2 * s.cfg.qcap) ∧
      (s.queue.get s.ml.track).buf.read ((s.queue.get s.ml.track).rd % s.cfg.qcap) = some 0xC0#8 ∧ s.tx.state = .idle) ∧
    (∃ s : State, s.ml.wait = true ∧ s.tx.done = true) ∧ (∃ s : State, s.ml.wait = true ∧ s.tx.done = false) :=
  ⟨⟨State.reset, by decide⟩, ⟨{ State.reset with queue := ⟨.reset, ⟨[(0, 0xC0#8)], 1, 0⟩⟩ }, by decide⟩,
   ⟨{ State.reset with ml := ⟨.t2, true⟩ }, by decide⟩, ⟨midSwipe, by decide⟩⟩

/-- Reset with a byte still on the link: quiescent, whichever agent moves. -/
def quietState : State := { State.reset with link := [0xC0#8] }

theorem quietState_inv : quietState.Inv where
  cfg := by decide
  chan := by intro t; cases t <;> exact ⟨by decide, by decide⟩
  queue := by
    intro t
    cases t <;>
      exact ⟨by decide, by decide, by decide, by decide, by decide, by decide, by decide⟩
  tx := ⟨by decide, by decide, by decide, by decide, by decide, by decide⟩
  host := by intro t; cases t <;> exact ⟨by decide, by decide, by decide, by decide, by decide⟩
  dec := rfl

theorem witness_QuiescenceLasts : ∃ s' : State, quietState.Inv ∧ quietState.quiescent = true ∧ step quietState = .next s' := by
  have h : ∀ a : IdleAgent, ∃ s', serve (idleEvent a) (quietState.setChoices (quietState.choices + 1)) = .next s' := by
    intro a
    cases a <;> exact ⟨_, rfl⟩
  obtain ⟨s', hs⟩ := h (Config.idleAgent quietState.choices)
  exact ⟨s', quietState_inv, rfl, hs⟩

/-- A first bit, and the bit before the last one of a group. -/
theorem witness_SampleAccumulatesTheBit :
    (State.reset.cfg.g ≤ 4 ∧ ChanInv State.reset.cfg.g (State.reset.chan.get .t2) ∧
      (State.reset.chan.get .t2).accCnt + 1 < State.reset.cfg.g) ∧
    (midSwipe.cfg.g ≤ 4 ∧ ChanInv midSwipe.cfg.g (midSwipe.chan.get .t2) ∧
      (midSwipe.chan.get .t2).accCnt + 2 = midSwipe.cfg.g) :=
  ⟨⟨by decide, ⟨by decide, by decide⟩, by decide⟩, ⟨by decide, ⟨by decide, by decide⟩, by decide⟩⟩

/-- The middle of a swipe with one bit missing in the group of track 2. -/
def groupNearlyFull : State := { midSwipe with chan := ⟨.reset, ⟨0b110#4, 3, .rising⟩⟩ }

theorem witness_SampleFlushesTheFullGroup :
    groupNearlyFull.cfg.wf = true ∧ ChanInv groupNearlyFull.cfg.g (groupNearlyFull.chan.get .t2) ∧
      QueueInv .t2 groupNearlyFull.cfg.qcap (groupNearlyFull.queue.get .t2) ∧
      (groupNearlyFull.chan.get .t2).accCnt + 1 = groupNearlyFull.cfg.g ∧
      unread .t2 groupNearlyFull = some [0x44#8, 0x4D#8] :=
  ⟨by decide, ⟨by decide, by decide⟩, midSwipe_inv.queue .t2, by decide, by decide⟩

theorem witness_CardArrivalStartsTheSwipe :
    midSwipe.cfg.wf = true ∧ QueueInv .t1 midSwipe.cfg.qcap (midSwipe.queue.get .t1) ∧
      (midSwipe.chan.get .t1).cpSel = .falling ∧ unread .t1 midSwipe = some [0x80#8] :=
  ⟨by decide, midSwipe_inv.queue .t1, by decide, by decide⟩

/-- With a partial group and with an empty accumulator. -/
theorem witness_CardRemovalStopsTheSwipe :
    (midSwipe.cfg.wf = true ∧ QueueInv .t2 midSwipe.cfg.qcap (midSwipe.queue.get .t2) ∧
      (midSwipe.chan.get .t2).cpSel = .rising ∧ unread .t2 midSwipe = some [0x44#8, 0x4D#8] ∧
      (midSwipe.chan.get .t2).accCnt ≠ 0) ∧
    (∃ s : State, s.cfg.wf = true ∧ QueueInv .t2 s.cfg.qcap (s.queue.get .t2) ∧ (s.chan.get .t2).cpSel = .rising ∧
      unread .t2 s = some [0x44#8, 0x4D#8] ∧ (s.chan.get .t2).accCnt = 0) :=
  ⟨⟨by decide, midSwipe_inv.queue .t2, by decide, by decide, by decide⟩,
   ⟨{ midSwipe with chan := ⟨.reset, ⟨0#4, 0, .rising⟩⟩ }, by decide, midSwipe_inv.queue .t2, by decide, by decide, by decide⟩⟩

theorem witness_SamplingIsNotGated : ∃ s' : State, serve (.clkEdge .t2 true) midSwipe = .next s' := ⟨_, rfl⟩

/-- A queue with room, and a full one. -/
theorem witness_EnqueueDropsTheNewest :
    (1 ≤ midSwipe.cfg.qcap ∧ (midSwipe.queue.get .t2).wr < 2 * midSwipe.cfg.qcap ∧
      (midSwipe.queue.get .t2).rd < 2 * midSwipe.cfg.qcap ∧ (midSwipe.queue.get .t2).occ midSwipe.cfg.qcap ≤ midSwipe.cfg.qcap ∧
      unread .t2 midSwipe = some [0x44#8, 0x4D#8]) ∧
    (∃ s : State, 1 ≤ s.cfg.qcap ∧ (s.queue.get .t2).wr < 2 * s.cfg.qcap ∧ (s.queue.get .t2).rd < 2 * s.cfg.qcap ∧
      (s.queue.get .t2).occ s.cfg.qcap = s.cfg.qcap ∧ unread .t2 s = some [0xC0#8]) :=
  ⟨by decide,
   ⟨{ State.reset with cfg := { Params.default with qcap := 1 }, queue := ⟨.reset, ⟨[(0, 0xC0#8)], 1, 0⟩⟩ }, by decide⟩⟩

theorem witness_DequeueReturnsTheOldest :
    1 ≤ midSwipe.cfg.qcap ∧ (midSwipe.queue.get .t2).wr < 2 * midSwipe.cfg.qcap ∧
      (midSwipe.queue.get .t2).rd < 2 * midSwipe.cfg.qcap ∧ unread .t2 midSwipe = some (0x44#8 :: [0x4D#8]) := by decide

/-- The bits of V-D1 fit, and so does a swipe without bits. -/
theorem witness_SwipeEnqueuesItsBytes :
    midSwipe.cfg.wf = true ∧ QueueInv .t1 midSwipe.cfg.qcap (midSwipe.queue.get .t1) ∧
      (midSwipe.chan.get .t1).cpSel = .falling ∧ unread .t1 midSwipe = some [0x80#8] ∧
      [0x80#8].length + (2 + 2 * ((semicolonQuestion.length + midSwipe.cfg.g - 1) / midSwipe.cfg.g)) ≤ midSwipe.cfg.qcap ∧
      [0x80#8].length + (2 + 2 * ((([] : List Bit).length + midSwipe.cfg.g - 1) / midSwipe.cfg.g)) ≤ midSwipe.cfg.qcap :=
  ⟨by decide, midSwipe_inv.queue .t1, by decide, by decide, by decide, by decide⟩

theorem witness_SecondEdgeBeforeServiceIsLost :
    midSwipe.irq.get (.clk .t2) = true ∧ midSwipe.irq.get (.cp .t1) = true ∧ midSwipe.irq.get .tmr = true := by decide

/-- The middle of a swipe with a host turn waiting: the next byte is a STOP of track 2, which reports `;?`. -/
def midSwipeHost : State := { midSwipe with events := [.host] }

theorem midSwipeHost_inv : midSwipeHost.Inv where
  cfg := midSwipe_inv.cfg
  chan := midSwipe_inv.chan
  queue := midSwipe_inv.queue
  tx := midSwipe_inv.tx
  host := midSwipe_inv.host
  dec := rfl

theorem witness_EveryStepKeepsTheInvariant :
    ∃ s' : State, midSwipeHost.Inv ∧ step midSwipeHost = .next s' ∧ s'.out = [.line .t2 [0x3B#8, 0x3F#8]] :=
  ⟨_, midSwipeHost_inv, rfl, by decide⟩

theorem witness_NoStepStopsUnderTheInvariant : midSwipe.Inv := midSwipe_inv

theorem witness_ConstantsAreWrittenByNoStep : ∃ s' : State, step midSwipeHost = .next s' := ⟨_, rfl⟩

theorem witness_OutputIsAppendOnly : ∃ s' : State, step midSwipeHost = .next s' ∧ s'.out ≠ [] := ⟨_, rfl, by decide⟩

theorem witness_SidesShareOnlyTheLink :
    (∃ s' : State, serve .host midSwipe = .next s') ∧
    (∃ s' : State, serve .tick midSwipe = .next s' ∧ Event.tick ≠ .host ∧ Event.tick ≠ .rxEnd ∧ ∀ b, Event.tick ≠ .rxByte b) ∧
    (∃ s' : State, serve .rxEnd midSwipe = .next s') ∧ (∃ s' : State, serve (.rxByte 0xC0#8) midSwipe = .next s') :=
  ⟨⟨_, rfl⟩, ⟨_, rfl, by decide, by decide, by intro b; simp⟩, ⟨_, rfl⟩, ⟨_, rfl⟩⟩

theorem witness_BytesKeepTheirOrderPerTrack :
    midSwipe.Inv ∧ Answers (serve .main midSwipe) ∧ Answers (serve .tick midSwipe) ∧
      Answers (serve (.clkEdge .t2 true) midSwipe) ∧ Answers (serve (.cpEdge .t1) midSwipe) ∧
      (midSwipe.hostStopped = false ∧ midSwipe.cfg.rxSource = .link ∧ midSwipe.link = 0xE0#8 :: [0x44#8] ∧
        Answers (serve .host midSwipe)) :=
  ⟨midSwipe_inv, ⟨_, rfl⟩, ⟨_, rfl⟩, ⟨_, rfl⟩, ⟨_, rfl⟩, by decide, by decide, by decide, ⟨_, rfl⟩⟩

/-- A swipe of the bits of V-D1 in groups of 4 with a byte of track 1 in between, and a swipe that fills the buffer. -/
theorem witness_ReassemblyRestoresTheBits :
    (1 ≤ 4 ∧ 4 ≤ 4 ∧ (∀ u, HostInv midSwipe.cfg.tbcap (midSwipe.host.get u)) ∧
      semicolonQuestion.length ≤ midSwipe.cfg.tbcap ∧
      [0xC0#8, 0x44#8, 0x80#8, 0x4D#8, 0x44#8, 0x47#8, 0x42#8, 0x43#8].filter (fun b => decide (byteTrack b = .t2)) =
        mkStart .t2 :: bitseqBytes 4 .t2 semicolonQuestion) ∧
    (1 ≤ 1 ∧ 1 ≤ 4 ∧ (∀ u, HostInv (hostState 0 .reset).cfg.tbcap ((hostState 0 .reset).host.get u)) ∧
      ([] : List Bit).length = (hostState 0 .reset).cfg.tbcap ∧
      [0xC0#8].filter (fun b => decide (byteTrack b = .t2)) = mkStart .t2 :: bitseqBytes 1 .t2 []) := by
  refine ⟨⟨by decide, by decide, midSwipe_inv.host, by decide, by decide⟩, by decide, by decide, ?_, by decide, by decide⟩
  intro u
  cases u <;> exact ⟨by decide, by decide, by decide, by decide, by decide⟩

/-- The bytes of V-R10 and the same bytes in another order of the tracks. -/
theorem witness_InterleavingDoesNotMatter :
    (∀ t, [0xC0#8, 0x80#8, 0x44#8, 0x01#8, 0x4D#8, 0x01#8, 0xE0#8, 0xA0#8].filter (fun b => decide (byteTrack b = t)) =
      [0x80#8, 0x01#8, 0x01#8, 0xA0#8, 0xC0#8, 0x44#8, 0x4D#8, 0xE0#8].filter (fun b => decide (byteTrack b = t))) ∧
    Answers (consume [0xC0#8, 0x80#8, 0x44#8, 0x01#8, 0x4D#8, 0x01#8, 0xE0#8, 0xA0#8] State.reset) :=
  ⟨by intro t; cases t <;> decide, ⟨_, rfl⟩⟩

/-- Two hosts that differ in the fifth bit of a byte whose first four bits are used. -/
theorem witness_BitsBeyondTheLengthDoNotShow :
    AlikeBelowRawLen (hostState 16 ⟨[(0, 0xD0#8)], 4, none, false⟩) (hostState 16 ⟨[(0, 0xD8#8)], 4, none, false⟩) ∧
    Answers (consume [0x44#8, 0x47#8, 0xE0#8] (hostState 16 ⟨[(0, 0xD0#8)], 4, none, false⟩)) := by
  refine ⟨⟨rfl, ?_⟩, ⟨_, rfl⟩⟩
  intro t
  cases t
  · exact ⟨by decide, by decide, by decide, [], by decide, by decide⟩
  · exact ⟨by decide, by decide, by decide, [true, true, false, true], by decide, by decide⟩

theorem witness_OneReportForEachStop : Answers (consume [0xC0#8, 0xE0#8, 0xA0#8] State.reset) := ⟨_, rfl⟩

/-- With an overflow on the way (V-R13), and after one. -/
theorem witness_OneDiagnosticBetweenStarts :
    (Answers (consume [0x42#8, 0x43#8] (hostState 0 .reset)) ∧ ∀ b ∈ [0x42#8, 0x43#8], decodeByte b ≠ .start .t2) ∧
    (Answers (consume [0x43#8] (hostState 0 ⟨[], 0, some 2#4, true⟩)) ∧
      (∀ b ∈ [0x43#8], decodeByte b ≠ .start .t2) ∧ ((hostState 0 ⟨[], 0, some 2#4, true⟩).host.get .t2).ovf = true) :=
  ⟨⟨⟨_, rfl⟩, by decide⟩, ⟨⟨_, rfl⟩, by decide, by decide⟩⟩

theorem witness_HostWaitsOrStopsWithoutInput :
    (State.reset.dec = none ∧ State.reset.hostStopped = false ∧ State.reset.cfg.rxSource = .link ∧ State.reset.link = []) ∧
    (∀ r, (streamState r).dec = none ∧ (streamState r).hostStopped = false ∧ (streamState r).cfg.rxSource = .stream ∧
      (streamState r).rx = [] ∧ (streamState r).rxRest = r) ∧
    (∃ s : State, s.hostStopped = true) :=
  ⟨by decide, by intro r; exact ⟨rfl, rfl, rfl, rfl, rfl⟩, ⟨{ State.reset with hostStopped := true }, rfl⟩⟩

end Sys2Proof.Tests
end

/-! SUPPORT. Proofs of the family 10_state: the frames of the two sides, the invariant under each operation, and the
statements about every step. -/

namespace Sys2Proof

@[simp] theorem PerTrack.get_both {α : Type} (a : α) (t : Track) : (PerTrack.both a).get t = a := by cases t <;> rfl

/-- The legal ranges one by one (R8 to R11). -/
theorem Params.wf_iff {c : Params} :
    c.wf = true ↔
      1 ≤ c.g ∧ c.g ≤ 4 ∧ 1 ≤ c.qcap ∧ c.tbcap % 8 = 0 ∧ 100 ≤ c.bitPeriod ∧ c.bitPeriod ≤ 1000 := by
  simp [Params.wf, and_assoc]

/-- What holds of both tracks holds of both still after one of them is set to a value of which it holds. -/
theorem PerTrack.forall_get_set {α : Type} {P : Track → α → Prop} {p : PerTrack α} {t : Track} {a : α} (ha : P t a)
    (hp : ∀ u, P u (p.get u)) (u : Track) : P u ((p.set t a).get u) := by
  by_cases h : u = t
  · subst h; rwa [PerTrack.get_set_same]
  · rw [PerTrack.get_set_ne p h]; exact hp u

/-- A byte on the wire is one of the four protocol rows (R102, R103). -/
theorem decodeWire_cases (pend : PerTrack (Option Nibble)) (b : Byte) :
    ∃ t, decodeWire pend b = .start t ∨ decodeWire pend b = .stop t ∨
      ∃ n, decodeWire pend b = .size t n ∨ decodeWire pend b = .bits t n := by
  unfold decodeWire
  cases decodeByte b with
  | start t => exact ⟨t, .inl rfl⟩
  | stop t => exact ⟨t, .inr (.inl rfl)⟩
  | data t n =>
    refine ⟨t, .inr (.inr ⟨n, ?_⟩)⟩
    dsimp only
    cases pend.get t with
    | none => exact .inl rfl
    | some k => exact .inr rfl

theorem decodeWire_ne_frame (pend : PerTrack (Option Nibble)) (b c : Byte) : decodeWire pend b ≠ .frame c := by
  obtain ⟨t, h | h | ⟨n, h | h⟩⟩ := decodeWire_cases pend b <;> simp [h]

theorem decodeSearch_ne_frame {f : Track} {g : Group} {i : Instr} (h : decodeSearch f g = .ok i) (c : Byte) :
    i ≠ .frame c := by
  unfold decodeSearch at h
  split at h
  · cases f <;> simp only [Except.ok.injEq] at h <;> simp [← h]
  · simp at h

theorem decodeGroup_ne_frame (f : Track) (g : Group) (c : Byte) : decodeGroup f g ≠ .frame c := by
  cases f <;> simp only [decodeGroup] <;> split <;> simp

/-- The data bits of a frame stand in its periods 1 to 8, least significant first (R106). -/
theorem frameBits_data (b : Byte) {p : Nat} (h : p < 8) : (frameBits b)[p + 1]? = some (b.getLsbD p) := by
  interval_cases p <;> rfl

end Sys2Proof

namespace Sys2Proof.Machine

/-! ## What a turn of each agent can do -/

/-- An enqueue does not look at the channels. -/
theorem enqueue_setChan (t u : Track) (v : Byte) (c : Channel) (s : State) :
    enqueue t v (s.setChan u c) = (enqueue t v s).setChan u c := by
  by_cases h : (s.queue.get t).full s.cfg.qcap = true
  · simp [enqueue, h, raise]
  · simp [enqueue, h, wrAdvance, qWrite, State.setQueue, State.setChan]

/-- An enqueue leaves the channels as they are (R67). -/
theorem enqueue_chan (t : Track) (v : Byte) (s : State) : (enqueue t v s).chan = s.chan := by
  obtain ⟨q, hq, -⟩ := enqueue_eq_setQueue t v s
  rw [hq, State.setQueue_chan]

/-- Clearing the accumulator forgets what was put into it. -/
theorem clearAcc_setChan (t : Track) (c : Channel) (s : State) (h : c.cpSel = (s.chan.get t).cpSel) :
    clearAcc t (s.setChan t c) = clearAcc t s := by
  simp [clearAcc, State.setChan, h]

/-- Everything `sample` can do (R132): the bit that fills the group flushes it, another one is accumulated. -/
theorem sample_cases (t : Track) (b : Bit) (s : State) :
    ((s.chan.get t).accCnt + 1 = s.cfg.g ∧
      sample t b s = clearAcc t (onFlush t s.cfg.g (accShift s.cfg.g (s.chan.get t).accVal b) s)) ∨
    ((s.chan.get t).accCnt + 1 ≠ s.cfg.g ∧
      sample t b s = s.setChan t { s.chan.get t with
        accVal := accShift s.cfg.g (s.chan.get t).accVal b, accCnt := (s.chan.get t).accCnt + 1 }) := by
  unfold sample
  by_cases h : (s.chan.get t).accCnt + 1 = s.cfg.g
  · refine .inl ⟨h, ?_⟩
    simp only [h, if_true, onFlush, enqueue_setChan]
    exact clearAcc_setChan _ _ _ (by simp only [enqueue_chan])
  · simp [h]

/-- Everything a Tick can do (R173 to R177): nothing in IDLE, the next data bit, the stop bit, or the end of the frame. -/
theorem tick_cases (s : State) :
    (s.tx.state = .idle ∧ tick s = s) ∨
    (∃ n, s.tx.state ≠ .idle ∧ n ≠ .idle ∧ s.tx.state.period < 8 ∧ n.period = s.tx.state.period + 1 ∧
      tick s = s.setTx (shiftOut n s.tx)) ∨
    (s.tx.state = .d7 ∧ tick s = s.setTx (stopBit s.tx)) ∨
    (s.tx.state = .stop ∧ tick s = (s.setTx (frameEnd s.tx)).setLink (s.link ++ [s.tx.byte])) := by
  unfold tick
  cases h : s.tx.state with
  | idle => simp
  | d7 => simp
  | stop => simp
  | _ => exact .inr (.inl ⟨_, by decide, by decide, by decide, by decide, rfl⟩)

theorem andThen_next {o : Host.Outcome State Fault Refusal} {f : State → Host.Outcome State Fault Refusal} {s' : State}
    (h : andThen o f = .next s') : ∃ s1, o = .next s1 ∧ f s1 = .next s' := by
  cases o with
  | next s1 => exact ⟨s1, rfl, h⟩
  | fault r => simp [andThen] at h
  | refused r => simp [andThen] at h

theorem exec_frame_next {b : Byte} {s s' : State} (h : exec (.frame b) s = .next s') :
    s.tx.state = .idle ∧ s' = send b s := by
  simp only [exec, execFrame] at h
  split_ifs at h with hi
  simp only [Host.Outcome.next.injEq] at h
  exact ⟨hi, h.symm⟩

/-- Everything a turn of the main loop can do (R182, R183). -/
theorem mainStep_cases {s s' : State} (h : mainStep s = .next s') :
    (s.ml.wait = true ∧ s.tx.done = true ∧ s' = setWait false s) ∨
    (s.ml.wait = true ∧ s.tx.done = false ∧ s' = s) ∨
    (s.ml.wait = false ∧ (s.queue.get s.ml.track).occ s.cfg.qcap = 0 ∧ s' = turnTrack s) ∨
    (s.ml.wait = false ∧ (s.queue.get s.ml.track).occ s.cfg.qcap ≠ 0 ∧ s.tx.state = .idle ∧
      ∃ b, (s.queue.get s.ml.track).buf.read ((s.queue.get s.ml.track).rd % s.cfg.qcap) = some b ∧
        s' = setWait true (send b (rdAdvance s.ml.track s))) := by
  unfold mainStep at h
  cases hw : s.ml.wait with
  | true =>
    cases hd : s.tx.done <;> simp [hw, hd] at h <;> simp [h]
  | false =>
    simp only [hw, Bool.false_eq_true, if_false, mainDequeue, Queue.empty, beq_iff_eq] at h
    split at h
    · rename_i he
      simp only [Host.Outcome.next.injEq] at h
      exact .inr (.inr (.inl ⟨rfl, he, h.symm⟩))
    · rename_i he
      rcases dequeue_cases s.ml.track s with ⟨-, hq⟩ | ⟨b, hb, hq⟩
      · simp [hq] at h
      · simp only [hq] at h
        obtain ⟨s1, hf, hs⟩ := andThen_next h
        obtain ⟨hi, rfl⟩ := exec_frame_next hf
        simp only [Host.Outcome.next.injEq] at hs
        exact .inr (.inr (.inr ⟨rfl, he, hi, b, hb, hs.symm⟩))

/-- Everything a turn of the host loop can do (R201, R211; log 11). -/
theorem hostStep_cases {s s' : State} (h : hostStep s = .next s') :
    (s.hostStopped = true ∧ s' = s) ∨
    (∃ d, s.dec = some d ∧ decoderStep d s = .next s') ∨
    (s.dec = none ∧ ∃ b s1, hostInput s = some (b, s1) ∧ exec (decodeWire (pendOf s) b) s1 = .next s') ∨
    (s.dec = none ∧ hostInput s = none ∧ s' = hostNoInput s) := by
  unfold hostStep at h
  split_ifs at h with hs
  · simp only [Host.Outcome.next.injEq] at h
    exact .inl ⟨hs, h.symm⟩
  · split at h
    · rename_i d hd
      exact .inr (.inl ⟨d, hd, h⟩)
    · rename_i hd
      split at h
      · rename_i b s1 hi
        exact .inr (.inr (.inl ⟨hd, b, s1, hi, h⟩))
      · rename_i hi
        simp only [Host.Outcome.next.injEq] at h
        exact .inr (.inr (.inr ⟨hd, hi, h.symm⟩))

/-- Everything the decoder's walk can do (R223 to R232): it runs a row that is no FRAME, goes on with other transients, or
ends and reports. -/
theorem decoderStep_cases {d : Decoder} {s s' : State} (h : decoderStep d s = .next s') :
    (∃ i, (∀ b, i ≠ .frame b) ∧ exec i s = .next s') ∨ (∃ d', s' = s.setDec (some d')) ∨
    (∃ e, s' = emit e (s.setDec none)) := by
  unfold decoderStep at h
  split at h
  · split_ifs at h
    · split at h
      · rename_i i hi
        exact .inl ⟨i, decodeSearch_ne_frame hi, h⟩
      · simp only [Host.Outcome.next.injEq] at h
        exact .inr (.inl ⟨_, h.symm⟩)
    · simp only [Host.Outcome.next.injEq] at h
      exact .inr (.inl ⟨_, h.symm⟩)
  · split_ifs at h
    · exact .inl ⟨_, decodeGroup_ne_frame _ _, h⟩
    · simp only [Host.Outcome.next.injEq] at h
      exact .inr (.inl ⟨_, h.symm⟩)
  · simp only [Host.Outcome.next.injEq] at h
    exact .inr (.inr ⟨_, h.symm⟩)
  · split at h <;> simp only [Host.Outcome.next.injEq] at h
    · exact .inr (.inl ⟨_, h.symm⟩)
    · exact .inr (.inr ⟨_, h.symm⟩)

/-- A step serves one event in a state that differs in the model's own `events` and `choices` only (log 5, log 6). -/
theorem step_serves {s s' : State} (h : step s = .next s') :
    ∃ e es n, serve e ((s.setEvents es).setChoices n) = .next s' := by
  unfold step at h
  split at h
  · rename_i e es _
    exact ⟨e, es, s.choices, h⟩
  · exact ⟨_, s.events, _, h⟩

/-! ## The two sides (R20, R273) -/

/-- The parts of the state that the host's turn alone writes, and with them those that no service of an event of the
capture side writes: the free input, the constants and the model's own counters. -/
structure HostSide where
  host : PerTrack HostTrack
  out : List OutEvent
  hostStopped : Bool
  dec : Option Decoder
  rx : List Byte
  rxRest : RxRest
  rxTaken : Nat
  cfg : Params
  events : List Event
  choices : Nat

/-- The parts of the state that no turn of the host writes. -/
structure CaptureSide where
  chan : PerTrack Channel
  queue : PerTrack Queue
  tx : Tx
  ml : MainLoop
  irq : IrqPend
  rxRest : RxRest
  cfg : Params
  events : List Event
  choices : Nat

def State.hostSide (s : State) : HostSide :=
  ⟨s.host, s.out, s.hostStopped, s.dec, s.rx, s.rxRest, s.rxTaken, s.cfg, s.events, s.choices⟩

def State.captureSide (s : State) : CaptureSide :=
  ⟨s.chan, s.queue, s.tx, s.ml, s.irq, s.rxRest, s.cfg, s.events, s.choices⟩

/-- What an event of the capture side may change: not the host side, and the link by appending only. -/
structure CaptureFrame (s s' : State) : Prop where
  hostSide : s'.hostSide = s.hostSide
  link : s.link <+: s'.link

/-- What the host's turn may change: not the capture side, the link by removing from its head only, and `out` by
appending only. -/
structure HostFrame (s s' : State) : Prop where
  captureSide : s'.captureSide = s.captureSide
  link : s'.link <:+ s.link
  out : s.out <+: s'.out

theorem CaptureFrame.trans {s s1 s2 : State} (h : CaptureFrame s s1) (h' : CaptureFrame s1 s2) : CaptureFrame s s2 :=
  ⟨h'.hostSide.trans h.hostSide, h.link.trans h'.link⟩

theorem HostFrame.trans {s s1 s2 : State} (h : HostFrame s s1) (h' : HostFrame s1 s2) : HostFrame s s2 :=
  ⟨h'.captureSide.trans h.captureSide, h'.link.trans h.link, h.out.trans h'.out⟩

theorem CaptureFrame.refl (s : State) : CaptureFrame s s := ⟨rfl, List.prefix_rfl⟩

theorem HostFrame.refl (s : State) : HostFrame s s := ⟨rfl, List.suffix_rfl, List.prefix_rfl⟩

theorem enqueue_captureFrame (t : Track) (v : Byte) (s : State) : CaptureFrame s (enqueue t v s) := by
  obtain ⟨q, hq, -⟩ := enqueue_eq_setQueue t v s
  rw [hq]
  exact ⟨rfl, List.prefix_rfl⟩

theorem clearAcc_captureFrame (t : Track) (s : State) : CaptureFrame s (clearAcc t s) := ⟨rfl, List.prefix_rfl⟩

theorem onFlush_captureFrame (t : Track) (n : Nat) (v : BitVec 4) (s : State) : CaptureFrame s (onFlush t n v s) :=
  (enqueue_captureFrame t _ s).trans (enqueue_captureFrame t _ _)

theorem onStop_captureFrame (t : Track) (s : State) : CaptureFrame s (onStop t s) := by
  refine CaptureFrame.trans ?_ ((clearAcc_captureFrame t _).trans (enqueue_captureFrame t _ _))
  split
  · exact onFlush_captureFrame t _ _ s
  · exact .refl s

theorem sample_captureFrame (t : Track) (b : Bit) (s : State) : CaptureFrame s (sample t b s) := by
  rcases sample_cases t b s with ⟨-, h⟩ | ⟨-, h⟩ <;> rw [h]
  · exact (onFlush_captureFrame t _ _ s).trans (clearAcc_captureFrame t _)
  · exact ⟨rfl, List.prefix_rfl⟩

theorem cardPresent_captureFrame (t : Track) (s : State) : CaptureFrame s (cardPresent t s) := by
  have hsel (e : EdgeDir) (u : State) : CaptureFrame u (setCpSel t e u) := ⟨rfl, List.prefix_rfl⟩
  unfold cardPresent
  split
  · exact (enqueue_captureFrame t _ s).trans ((clearAcc_captureFrame t _).trans (hsel _ _))
  · exact (onStop_captureFrame t s).trans (hsel _ _)

theorem tick_captureFrame (s : State) : CaptureFrame s (tick s) := by
  rcases tick_cases s with ⟨-, h⟩ | ⟨n, -, -, -, -, h⟩ | ⟨-, h⟩ | ⟨-, h⟩ <;> rw [h]
  · exact .refl s
  · exact ⟨rfl, List.prefix_rfl⟩
  · exact ⟨rfl, List.prefix_rfl⟩
  · exact ⟨rfl, List.prefix_append _ _⟩

theorem takeInterrupt_captureFrame (src : IrqSource) (s : State) : CaptureFrame s (takeInterrupt src s) :=
  ⟨rfl, List.prefix_rfl⟩

theorem latch_captureFrame (src : IrqSource) (s : State) : CaptureFrame s (latch src s) := ⟨rfl, List.prefix_rfl⟩

theorem mainStep_captureFrame {s s' : State} (h : mainStep s = .next s') : CaptureFrame s s' := by
  rcases mainStep_cases h with ⟨-, -, rfl⟩ | ⟨-, -, rfl⟩ | ⟨-, -, rfl⟩ | ⟨-, -, -, b, -, rfl⟩ <;>
    exact ⟨rfl, List.prefix_rfl⟩

/-- An instruction other than FRAME is the host's (R203 to R206, R46). -/
theorem exec_hostFrame {i : Instr} {s s' : State} (hi : ∀ b, i ≠ .frame b) (h : exec i s = .next s') : HostFrame s s' := by
  rcases exec_cases h with ⟨b, rfl, -⟩ | ⟨t, -, ht, l, rfl, -⟩ | ⟨d, d', -, rfl, -⟩
  · exact absurd rfl (hi b)
  · exact ⟨rfl, List.suffix_rfl, List.prefix_append _ _⟩
  · exact ⟨rfl, List.suffix_rfl, List.prefix_rfl⟩

theorem hostInput_hostFrame {s s' : State} {b : Byte} (h : hostInput s = some (b, s')) : HostFrame s s' := by
  rcases hostInput_cases h with ⟨-, l, hl, rfl⟩ | ⟨-, l, -, rfl⟩ | ⟨-, -, -, -, rfl⟩
  · exact ⟨rfl, by rw [hl]; exact List.suffix_cons b l, List.prefix_rfl⟩
  · exact ⟨rfl, List.suffix_rfl, List.prefix_rfl⟩
  · exact ⟨rfl, List.suffix_rfl, List.prefix_rfl⟩

theorem decoderStep_hostFrame {d : Decoder} {s s' : State} (h : decoderStep d s = .next s') : HostFrame s s' := by
  rcases decoderStep_cases h with ⟨i, hi, he⟩ | ⟨d', rfl⟩ | ⟨e, rfl⟩
  · exact exec_hostFrame hi he
  · exact ⟨rfl, List.suffix_rfl, List.prefix_rfl⟩
  · exact ⟨rfl, List.suffix_rfl, List.prefix_append _ _⟩

theorem hostNoInput_hostFrame (s : State) : HostFrame s (hostNoInput s) := by
  unfold hostNoInput
  split
  · exact ⟨rfl, List.suffix_rfl, List.prefix_rfl⟩
  · exact .refl s

theorem hostStep_hostFrame {s s' : State} (h : hostStep s = .next s') : HostFrame s s' := by
  rcases hostStep_cases h with ⟨-, rfl⟩ | ⟨d, -, he⟩ | ⟨-, b, s1, hb, he⟩ | ⟨-, -, rfl⟩
  · exact .refl _
  · exact decoderStep_hostFrame he
  · exact (hostInput_hostFrame hb).trans (exec_hostFrame (decodeWire_ne_frame _ _) he)
  · exact hostNoInput_hostFrame s

/-- A byte joins the free input exactly while more may arrive (R45). -/
theorem rxArrive_eq (b : Byte) (s : State) :
    rxArrive b s = if s.rxRest = .waiting then s.setRx (s.rx ++ [b]) else s := by
  unfold rxArrive
  cases s.rxRest <;> rfl

/-- The free input ends exactly while more may arrive (R45, R211). -/
theorem rxFinish_eq (s : State) : rxFinish s = if s.rxRest = .waiting then s.setRxRest .ended else s := by
  unfold rxFinish
  cases s.rxRest <;> rfl

/-- An arrival on the free input is neither side's: it writes that input alone (log 15). -/
theorem serve_arrival {e : Event} {s s' : State} (he : ∃ b, e = .rxEnd ∨ e = .rxByte b) (h : serve e s = .next s') :
    s' = { s with rx := s'.rx, rxRest := s'.rxRest } := by
  obtain ⟨b, rfl | rfl⟩ := he <;> cases h
  · rw [rxFinish_eq]; split <;> rfl
  · rw [rxArrive_eq]; split <;> rfl

/-- Every event other than the host's turn and the arrivals is the capture side's. -/
theorem serve_captureFrame {e : Event} {s s' : State} (hhost : e ≠ .host) (hend : e ≠ .rxEnd) (hbyte : ∀ b, e ≠ .rxByte b)
    (h : serve e s = .next s') : CaptureFrame s s' := by
  cases e with
  | clkEdge t d => cases h; exact (takeInterrupt_captureFrame _ s).trans (sample_captureFrame t _ _)
  | cpEdge t => cases h; exact (takeInterrupt_captureFrame _ s).trans (cardPresent_captureFrame t _)
  | tick =>
    cases h
    unfold serveTick
    split
    · exact (takeInterrupt_captureFrame _ s).trans (tick_captureFrame _)
    · exact .refl s
  | main => exact mainStep_captureFrame h
  | host => exact absurd rfl hhost
  | clkLine t e => cases h; unfold lineClkEdge; split; exacts [latch_captureFrame _ s, .refl s]
  | cpLine t e => cases h; unfold lineCpEdge; split; exacts [latch_captureFrame _ s, .refl s]
  | timerMatch => cases h; unfold compareMatch; split; exacts [latch_captureFrame _ s, .refl s]
  | rxByte b => exact absurd rfl (hbyte b)
  | rxEnd => exact absurd rfl hend

/-- Each event is the host's turn, an arrival on the free input, or the capture side's (R20, R40, R45). -/
theorem serve_frame {e : Event} {s s' : State} (h : serve e s = .next s') :
    (e = .host ∧ HostFrame s s') ∨
    ((∃ b, e = .rxEnd ∨ e = .rxByte b) ∧ s' = { s with rx := s'.rx, rxRest := s'.rxRest }) ∨
    ((∀ b, ¬(e = .rxEnd ∨ e = .rxByte b)) ∧ e ≠ .host ∧ CaptureFrame s s') := by
  by_cases hh : e = .host
  · subst hh
    exact .inl ⟨rfl, hostStep_hostFrame h⟩
  by_cases ha : ∃ b, e = .rxEnd ∨ e = .rxByte b
  · exact .inr (.inl ⟨ha, serve_arrival ha h⟩)
  · rw [not_exists] at ha
    exact .inr (.inr ⟨ha, hh, serve_captureFrame hh (not_or.1 (ha 0#8)).1 (fun b => (not_or.1 (ha b)).2) h⟩)

/-! ## The statements about both sides -/

/-- Settles O51: the constants belong to both frames, and an arrival does not write them. -/
theorem constantsAreWrittenByNoStep : Obligations.ConstantsAreWrittenByNoStep := by
  intro s s' h
  obtain ⟨e, es, n, he⟩ := step_serves h
  rcases serve_frame he with ⟨-, hf⟩ | ⟨-, hs⟩ | ⟨-, -, hf⟩
  · exact congrArg CaptureSide.cfg hf.captureSide
  · rw [hs]; rfl
  · exact congrArg HostSide.cfg hf.hostSide

/-- Settles O52: the host's turn only appends to `out`, and no other event writes it. -/
theorem outputIsAppendOnly : Obligations.OutputIsAppendOnly := by
  intro s s' h
  obtain ⟨e, es, n, he⟩ := step_serves h
  rcases serve_frame he with ⟨-, hf⟩ | ⟨-, hs⟩ | ⟨-, -, hf⟩
  · obtain ⟨l, hl⟩ := hf.out
    exact ⟨l, hl.symm⟩
  · exact ⟨[], by rw [hs]; simp⟩
  · exact ⟨[], (congrArg HostSide.out hf.hostSide).trans (List.append_nil s.out).symm⟩

/-- Settles O53: the three kinds of event and their frames. -/
theorem sidesShareOnlyTheLink : Obligations.SidesShareOnlyTheLink := by
  intro e s s' h
  rcases serve_frame h with ⟨rfl, hc, ⟨l, hl⟩, -⟩ | ⟨⟨b, hb⟩, hs⟩ | ⟨harr, hh, hc, l, hl⟩
  · simp only [State.captureSide, CaptureSide.mk.injEq] at hc
    obtain ⟨hchan, hqueue, htx, hml, hirq, -⟩ := hc
    simp [hchan, hqueue, htx, hml, hirq, ← hl]
  · rw [hs]
    have hne : e ≠ .host := by rcases hb with rfl | rfl <;> simp
    refine ⟨fun he => absurd he hne, fun _ => by simp, fun _ h1 h2 => ?_, fun _ _ => rfl⟩
    exact absurd hb (not_or.2 ⟨h1, h2 b⟩)
  · simp only [State.hostSide, HostSide.mk.injEq] at hc
    obtain ⟨hhost, hout, hstop, hdec, hrx, hrest, htaken, -⟩ := hc
    exact ⟨fun he => absurd he hh, fun _ => ⟨hhost, hout, hstop, hdec, htaken, l, hl.symm⟩, fun _ _ _ => ⟨hrx, hrest⟩,
      fun b hb => absurd hb (harr b)⟩

/-! ## Reset, refusals, requests and the waiting host -/

/-- Settles O1: field by field; both tracks have the same value. -/
theorem resetLeavesTheStatedValues : Obligations.ResetLeavesTheStatedValues := by
  have hchan : ∀ t, State.reset.chan.get t = .reset := PerTrack.get_both _
  have hqueue : ∀ t, State.reset.queue.get t = .reset := PerTrack.get_both _
  have hhost : ∀ t, State.reset.host.get t = .reset := PerTrack.get_both _
  refine ⟨hchan, fun t => ?_, rfl, rfl, rfl, rfl, rfl, fun src => ?_, rfl, fun t => ?_, rfl, rfl⟩
  · rw [hqueue]; exact ⟨rfl, rfl⟩
  · cases src with
    | clk t => exact PerTrack.get_both false t
    | cp t => exact PerTrack.get_both false t
    | tmr => rfl
  · rw [hhost]; exact ⟨rfl, rfl, rfl⟩

theorem sentinelRow_refused {f : Track} {s : State} (h : ∀ d, s.dec = some d → ¬(d.fmt = f ∧ d.phase = .search)) :
    sentinelRow f s = .refused .notDecoding := by
  unfold sentinelRow
  cases hd : s.dec with
  | none => rfl
  | some d => exact if_neg (h d hd)

theorem groupRow_refused {f : Track} (g : Group) {s : State}
    (h : ∀ d, s.dec = some d → ¬(d.fmt = f ∧ d.phase = .groups)) : groupRow f g s = .refused .notDecoding := by
  unfold groupRow
  cases hd : s.dec with
  | none => rfl
  | some d => exact if_neg (h d hd)

/-- Settles O27: each of the six rows is the sentinel row or a group row of its format. -/
theorem groupRowsStopOutsideTheirAttempt : Obligations.GroupRowsStopOutsideTheirAttempt := by
  intro s p x y
  exact ⟨sentinelRow_refused, sentinelRow_refused, fun h => ⟨groupRow_refused _ h, groupRow_refused _ h⟩,
    fun h => ⟨groupRow_refused _ h, groupRow_refused _ h⟩⟩

/-- Settles O47: the three line events are a test of the direction, or of the timer, before `latch`. -/
theorem lineEdgesSetTheirLatch : Obligations.LineEdgesSetTheirLatch := by
  intro s t e
  exact ⟨rfl, rfl, rfl⟩

theorem hostStep_of_stopped {s : State} (h : s.hostStopped = true) : hostStep s = .next s := if_pos h

theorem hostStep_of_noInput {s : State} (hd : s.dec = none) (hs : s.hostStopped = false) (hi : hostInput s = none) :
    hostStep s = .next (hostNoInput s) := by
  simp [hostStep, hd, hs, hi]

/-- Settles O60: without a byte the turn is `hostNoInput`, which stops the host at the end of a free input only. -/
theorem hostWaitsOrStopsWithoutInput : Obligations.HostWaitsOrStopsWithoutInput := by
  intro s b
  refine ⟨fun hd hs => ⟨fun hsrc hl => ?_, fun hsrc hr hw => ?_, fun hsrc hr hend => ?_⟩, hostStep_of_stopped,
    congrArg _ (rxArrive_eq b s), congrArg _ (rxFinish_eq s)⟩
  · have hi : hostInput s = none := hostInput_none.2 (.inl ⟨hsrc, hl⟩)
    simp [serve, hostStep_of_noInput hd hs hi, hostNoInput, hsrc]
  · have hi : hostInput s = none := hostInput_none.2 (.inr ⟨hsrc, hr, by simp [hw]⟩)
    simp [serve, hostStep_of_noInput hd hs hi, hostNoInput, hw]
  · have hi : hostInput s = none := hostInput_none.2 (.inr ⟨hsrc, hr, by simp [hend]⟩)
    simp [serve, hostStep_of_noInput hd hs hi, hostNoInput, hsrc, hend, State.setHostStopped]

/-! ## The invariant: the words, the accumulator and the memories -/

@[simp] theorem byteTrack_mkStart (t : Track) : byteTrack (mkStart t) = t := by cases t <;> rfl

@[simp] theorem byteTrack_mkStop (t : Track) : byteTrack (mkStop t) = t := by cases t <;> rfl

@[simp] theorem byteTrack_mkData (t : Track) (n : Nibble) : byteTrack (mkData t n) = t := by
  cases t <;> revert n <;> decide

/-- What holds of every entry of a memory and of the written one holds of every entry after the write. -/
theorem Memory.forall_mem_write {P : Host.Cell → Prop} {m : Memory} {a : Nat} {v : Byte} (hm : ∀ c ∈ m, P c)
    (hv : P (a, v)) : ∀ c ∈ m.write a v, P c := by
  intro c hc
  rcases Memory.mem_write hc with hc | rfl
  · exact hm c hc
  · exact hv

/-- While there is room in the group the accumulator is doubled and takes the bit (R132). -/
theorem accShift_toNat {g : Nat} {a : BitVec 4} {b : Bit} (hg : g ≤ 4) (h : 2 * a.toNat + b.toNat < 2 ^ g) :
    (accShift g a b).toNat = 2 * a.toNat + b.toNat := by
  have hall : ∀ g < 5, ∀ (a : BitVec 4) (b : Bool), 2 * a.toNat + b.toNat < 2 ^ g →
      (accShift g a b).toNat = 2 * a.toNat + b.toNat := by decide
  exact hall g (by omega) a b h

/-! ## The invariant of each part under what is done to the part -/

theorem ChanInv.cleared {g : Nat} (hg : 1 ≤ g) (e : EdgeDir) : ChanInv g ⟨0#4, 0, e⟩ := ⟨hg, Nat.one_pos⟩

/-- A bit that does not fill the group (R132). -/
theorem ChanInv.accumulate {g : Nat} {c : Channel} (h : ChanInv g c) (hg : g ≤ 4) (hroom : c.accCnt + 1 ≠ g) (b : Bit) :
    ChanInv g { c with accVal := accShift g c.accVal b, accCnt := c.accCnt + 1 } := by
  have hcount : c.accCnt + 1 < g := lt_of_le_of_ne h.count hroom
  have hval : 2 * c.accVal.toNat + b.toNat < 2 ^ (c.accCnt + 1) := by
    have := h.value
    have := b.toNat_le
    rw [pow_succ]
    omega
  refine ⟨hcount, ?_⟩
  rwa [accShift_toNat hg (hval.trans_le (Nat.pow_le_pow_right (by decide) hcount.le))]

/-- A queue that meets its invariant has an unread sequence (R69). -/
theorem QueueInv.exists_unread {t : Track} {s : State} (h : QueueInv t s.cfg.qcap (s.queue.get t)) :
    ∃ l, unread t s = some l :=
  Option.isSome_iff_exists.1 (readSlots_isSome.2 h.written)

/-- The byte taken off a queue leaves one unread entry less (R64, R68). -/
theorem occ_rdAdvance {qcap : Nat} {q : Queue} (hw : q.wr < 2 * qcap) (hr : q.rd < 2 * qcap) (hne : q.occ qcap ≠ 0) :
    ({ q with rd := cursorNext qcap q.rd } : Queue).occ qcap + 1 = q.occ qcap := by
  have hr' : cursorNext qcap q.rd < 2 * qcap := Nat.mod_lt _ (by omega)
  rw [occ_eq hw hr] at hne ⊢
  rw [occ_eq (q := { q with rd := cursorNext qcap q.rd }) hw hr']
  simp only [cursorNext, cursor_succ hr]
  split_ifs at hne ⊢ <;> omega

/-- The read cursor moves on (R68): the entries after the oldest one are still written. -/
theorem QueueInv.rdAdvance {t : Track} {qcap : Nat} {q : Queue} (h : QueueInv t qcap q) (hne : q.occ qcap ≠ 0) :
    QueueInv t qcap { q with rd := cursorNext qcap q.rd } := by
  have hocc := occ_rdAdvance h.wrRange h.rdRange hne
  have hread : (readSlots qcap q.buf (cursorNext qcap q.rd) (q.occ qcap - 1)).isSome = true := by
    rw [cursorNext, readSlots_mod, readSlots_isSome]
    intro j hj
    rw [Nat.add_assoc, Nat.add_comm 1]
    exact h.written (j + 1) (by omega)
  exact {
    wrRange := h.wrRange
    rdRange := Nat.mod_lt _ (Nat.zero_lt_of_lt h.rdRange)
    notOver := by have := h.notOver; omega
    canonical := h.canonical
    slots := h.slots
    tagged := h.tagged
    written := readSlots_isSome.1 (by rwa [← hocc, Nat.add_sub_cancel] at hread) }

/-- FRAME puts the start bit on the line while the main loop waits (R172, R182). -/
theorem TxInv.send (b : Byte) (m : MainLoop) (s : State) : TxInv (send b s).tx { m with wait := true } where
  armed := by simp [Machine.send]
  done := by simp [Machine.send]
  lineIdle := nofun
  lineBusy := fun _ => rfl
  shift := fun _ => by simp [Machine.send, TxState.period]
  wait := nofun

/-- The next data bit goes on the line (R173, R174). -/
theorem TxInv.shiftOut {x : Tx} {m : MainLoop} {n : TxState} (h : TxInv x m) (hx : x.state ≠ .idle) (hn : n ≠ .idle)
    (hp : x.state.period < 8) (hnp : n.period = x.state.period + 1) : TxInv (shiftOut n x) m where
  armed := iff_of_true (h.armed.2 hx) hn
  done := iff_of_false (fun hd => hx (h.done.1 hd)) hn
  lineIdle := fun hi => absurd hi hn
  lineBusy := fun _ => by
    simp [Machine.shiftOut, hnp, frameBits_data _ hp, h.shift hx, Nat.min_eq_left hp.le]
  shift := fun _ => by
    simp only [Machine.shiftOut, hnp, h.shift hx, Nat.min_eq_left hp.le, Nat.min_eq_left (show _ + 1 ≤ 8 from hp),
      BitVec.shiftRight_add]
  wait := fun hw => absurd (h.wait hw) hx

/-- The stop bit goes on the line after the last data bit (R175). -/
theorem TxInv.stopBit {x : Tx} {m : MainLoop} (h : TxInv x m) (hx : x.state = .d7) : TxInv (stopBit x) m := by
  have hne : x.state ≠ .idle := by simp [hx]
  have hshift := h.shift hne
  rw [hx] at hshift
  exact {
    armed := iff_of_true (h.armed.2 hne) nofun
    done := iff_of_false (fun hd => hne (h.done.1 hd)) nofun
    lineIdle := nofun
    lineBusy := fun _ => rfl
    shift := fun _ => hshift
    wait := fun hw => absurd (h.wait hw) hne }

/-- The stop bit ends and the line stays at its level (R176). -/
theorem TxInv.frameEnd {x : Tx} {m : MainLoop} (h : TxInv x m) (hx : x.state = .stop) : TxInv (frameEnd x) m := by
  have hline := h.lineBusy (by simp [hx])
  rw [hx] at hline
  exact {
    armed := iff_of_false nofun (fun hi => hi rfl)
    done := iff_of_true rfl rfl
    lineIdle := fun _ => (Option.some.inj hline).symm
    lineBusy := fun hi => absurd rfl hi
    shift := fun hi => absurd rfl hi
    wait := fun _ => rfl }

/-- An append to a TrackBuffer with room writes the byte of the new bit (R70, R74). -/
theorem HostInv.append {tbcap : Nat} {h : HostTrack} (hi : HostInv tbcap h) (hcap : tbcap % 8 = 0) (ho : h.ovf = false)
    (hroom : h.rawLen ≠ tbcap) (b : Bit) :
    HostInv tbcap { h with tb := tbPut h.tb h.rawLen b, rawLen := h.rawLen + 1 } := by
  have hlt : h.rawLen < tbcap := lt_of_le_of_ne hi.len hroom
  obtain ⟨l, hl⟩ := Option.isSome_iff_exists.1 (readBits_isSome.2 hi.written)
  exact {
    len := hlt
    canonical := wf_tbPut _ _ _ hi.canonical
    bytes := Memory.forall_mem_write hi.bytes (by simp only [tbByteOf]; omega)
    written := readBits_isSome.1 (Option.isSome_iff_exists.2 ⟨_, readBits_append b hl⟩)
    overflow := fun h1 => by simp [ho] at h1 }

/-! ## The invariant of the state under each operation -/

/-- The parts of the state that the invariant speaks of. -/
def State.invParts (s : State) :
    Params × PerTrack Channel × PerTrack Queue × Tx × MainLoop × PerTrack HostTrack × Option Decoder :=
  (s.cfg, s.chan, s.queue, s.tx, s.ml, s.host, s.dec)

theorem State.Inv.of_parts {s s' : State} (h : s.Inv) (e : s'.invParts = s.invParts) : s'.Inv := by
  simp only [State.invParts, Prod.mk.injEq] at e
  obtain ⟨hcfg, hchan, hqueue, htx, hml, hhost, hdec⟩ := e
  constructor
  all_goals simp only [hcfg, hchan, hqueue, htx, hml, hhost, hdec]
  exacts [h.cfg, h.chan, h.queue, h.tx, h.host, h.dec]

theorem State.Inv.setChan {s : State} {t : Track} {c : Channel} (h : s.Inv) (hc : ChanInv s.cfg.g c) :
    (s.setChan t c).Inv :=
  ⟨h.cfg, PerTrack.forall_get_set (P := fun _ => ChanInv s.cfg.g) hc h.chan, h.queue, h.tx, h.host, h.dec⟩

theorem State.Inv.setQueue {s : State} {t : Track} {q : Queue} (h : s.Inv) (hq : QueueInv t s.cfg.qcap q) :
    (s.setQueue t q).Inv :=
  ⟨h.cfg, h.chan, PerTrack.forall_get_set (P := fun u => QueueInv u s.cfg.qcap) hq h.queue, h.tx, h.host, h.dec⟩

theorem State.Inv.setHost {s : State} {t : Track} {ht : HostTrack} (h : s.Inv) (hh : HostInv s.cfg.tbcap ht) :
    (s.setHost t ht).Inv :=
  ⟨h.cfg, h.chan, h.queue, h.tx, PerTrack.forall_get_set (P := fun _ => HostInv s.cfg.tbcap) hh h.host, h.dec⟩

/-- The transmitter and the main loop meet their invariant together (R182), so they are set together. -/
theorem State.Inv.setTxMl {s : State} {x : Tx} {m : MainLoop} (h : s.Inv) (hx : TxInv x m) : ((s.setTx x).setMl m).Inv :=
  ⟨h.cfg, h.chan, h.queue, hx, h.host, h.dec⟩

/-! ### The capture side -/

theorem enqueue_keeps_inv {t : Track} {v : Byte} {s : State} (hv : byteTrack v = t) (h : s.Inv) : (enqueue t v s).Inv := by
  have hq := h.queue t
  rcases enqueue_cases t v s with ⟨-, he⟩ | ⟨hne, he⟩
  · rwa [he]
  have hroom : (s.queue.get t).occ s.cfg.qcap < s.cfg.qcap := lt_of_le_of_ne hq.notOver hne
  obtain ⟨l, hl⟩ := hq.exists_unread
  obtain ⟨-, hunread, hocc⟩ := enqueue_of_room t v s l hq.wrRange hq.rdRange hroom hl
  rw [he] at hunread hocc ⊢
  simp only [unread, State.setQueue_queue, State.setQueue_cfg, PerTrack.get_set_same] at hunread hocc
  exact h.setQueue {
    wrRange := Nat.mod_lt _ (Nat.zero_lt_of_lt hq.wrRange)
    rdRange := hq.rdRange
    notOver := by rw [hocc]; exact hroom
    canonical := Memory.wf_write _ _ _ hq.canonical
    slots := Memory.forall_mem_write hq.slots (Nat.mod_lt _ (Nat.zero_lt_of_lt hroom))
    tagged := Memory.forall_mem_write hq.tagged hv
    written := readSlots_isSome.1 (Option.isSome_iff_exists.2 ⟨_, hunread⟩) }

theorem clearAcc_keeps_inv (t : Track) {s : State} (h : s.Inv) : (clearAcc t s).Inv :=
  h.setChan (.cleared (Nat.zero_lt_of_lt (h.chan t).count) _)

theorem setCpSel_keeps_inv (t : Track) (e : EdgeDir) {s : State} (h : s.Inv) : (setCpSel t e s).Inv :=
  h.setChan ⟨(h.chan t).count, (h.chan t).value⟩

theorem onFlush_keeps_inv (t : Track) (n : Nat) (v : BitVec 4) {s : State} (h : s.Inv) : (onFlush t n v s).Inv :=
  enqueue_keeps_inv (byteTrack_mkData t _) (enqueue_keeps_inv (byteTrack_mkData t _) h)

theorem onStop_keeps_inv (t : Track) {s : State} (h : s.Inv) : (onStop t s).Inv := by
  refine enqueue_keeps_inv (byteTrack_mkStop t) (clearAcc_keeps_inv t ?_)
  split
  · exact onFlush_keeps_inv t _ _ h
  · exact h

theorem sample_keeps_inv (t : Track) (b : Bit) {s : State} (h : s.Inv) : (sample t b s).Inv := by
  rcases sample_cases t b s with ⟨-, he⟩ | ⟨hroom, he⟩ <;> rw [he]
  · exact clearAcc_keeps_inv t (onFlush_keeps_inv t _ _ h)
  · obtain ⟨-, hg, -⟩ := Params.wf_iff.1 h.cfg
    exact h.setChan ((h.chan t).accumulate hg hroom b)

theorem cardPresent_keeps_inv (t : Track) {s : State} (h : s.Inv) : (cardPresent t s).Inv := by
  unfold cardPresent
  split
  · exact setCpSel_keeps_inv t _ (clearAcc_keeps_inv t (enqueue_keeps_inv (byteTrack_mkStart t) h))
  · exact setCpSel_keeps_inv t _ (onStop_keeps_inv t h)

theorem tick_keeps_inv {s : State} (h : s.Inv) : (tick s).Inv := by
  rcases tick_cases s with ⟨-, he⟩ | ⟨n, hx, hn, hp, hnp, he⟩ | ⟨hx, he⟩ | ⟨hx, he⟩ <;> rw [he]
  · exact h
  · exact h.setTxMl (h.tx.shiftOut hx hn hp hnp)
  · exact h.setTxMl (h.tx.stopBit hx)
  · exact (h.setTxMl (h.tx.frameEnd hx)).of_parts rfl

theorem mainStep_keeps_inv {s s' : State} (h : s.Inv) (hs : mainStep s = .next s') : s'.Inv := by
  rcases mainStep_cases hs with ⟨-, hd, rfl⟩ | ⟨-, -, rfl⟩ | ⟨-, -, rfl⟩ | ⟨-, hne, -, b, -, rfl⟩
  · exact h.setTxMl (x := s.tx) { h.tx with wait := fun _ => h.tx.done.1 hd }
  · exact h
  · exact h.setTxMl (x := s.tx) { h.tx with wait := h.tx.wait }
  · exact (h.setQueue ((h.queue _).rdAdvance hne)).setTxMl (TxInv.send b s.ml s)

/-! ### The host side -/

theorem setPend_keeps_inv (t : Track) (p : Option Nibble) {s : State} (h : s.Inv) : (setPend t p s).Inv :=
  h.setHost { h.host t with }

theorem tbClear_keeps_inv (t : Track) {s : State} (h : s.Inv) : (tbClear t s).Inv :=
  h.setHost ⟨Nat.zero_le _, (h.host t).canonical, (h.host t).bytes, nofun, nofun⟩

theorem tbAppend_keeps_inv (t : Track) (b : Bit) {s : State} (h : s.Inv) : (tbAppend t b s).Inv := by
  rcases tbAppend_cases t b s with ⟨-, he⟩ | ⟨-, hlen, he⟩ | ⟨ho, hroom, he⟩ <;> rw [he]
  · exact h
  · have hh : HostInv s.cfg.tbcap { s.host.get t with ovf := true } := { h.host t with overflow := fun _ => hlen }
    exact (h.setHost hh).of_parts rfl
  · obtain ⟨-, -, -, hcap, -⟩ := Params.wf_iff.1 h.cfg
    exact h.setHost ((h.host t).append hcap ho hroom b)

theorem appendBits_keeps_inv (t : Track) (bs : List Bit) {s : State} (h : s.Inv) : (appendBits t bs s).Inv := by
  induction bs generalizing s with
  | nil => exact h
  | cons b bs ih => exact ih (tbAppend_keeps_inv t b h)

/-- The four rows of a protocol byte keep the invariant (R203 to R206). -/
theorem exec_decodeWire_keeps_inv {pend : PerTrack (Option Nibble)} {b : Byte} {s s' : State} (h : s.Inv)
    (hs : exec (decodeWire pend b) s = .next s') : s'.Inv := by
  obtain ⟨t, hi | hi | ⟨n, hi | hi⟩⟩ := decodeWire_cases pend b <;> rw [hi] at hs
  · cases hs
    exact setPend_keeps_inv t _ (tbClear_keeps_inv t h)
  · rcases execStop_next hs with ⟨-, rfl⟩ | ⟨-, seq, -, rfl⟩
    · exact h
    · obtain ⟨e, he, -, -⟩ := report_cases t seq s
      rw [he]
      exact h.of_parts rfl
  · simp only [exec, execSize] at hs
    split at hs <;> cases hs
    exact setPend_keeps_inv t _ h
  · simp only [exec, execBits] at hs
    split at hs <;> cases hs
    exact setPend_keeps_inv t _ (appendBits_keeps_inv t _ h)

theorem hostInput_keeps_inv {b : Byte} {s s' : State} (h : s.Inv) (hs : hostInput s = some (b, s')) : s'.Inv := by
  rcases hostInput_cases hs with ⟨-, l, -, rfl⟩ | ⟨-, l, -, rfl⟩ | ⟨-, -, -, -, rfl⟩ <;> exact h.of_parts rfl

theorem hostStep_keeps_inv {s s' : State} (h : s.Inv) (hs : hostStep s = .next s') : s'.Inv := by
  rcases hostStep_cases hs with ⟨-, rfl⟩ | ⟨d, hd, -⟩ | ⟨-, b, s1, hb, he⟩ | ⟨-, -, rfl⟩
  · exact h
  · rw [h.dec] at hd
    exact absurd hd (by simp)
  · exact exec_decodeWire_keeps_inv (hostInput_keeps_inv h hb) he
  · unfold hostNoInput
    split
    · exact h.of_parts rfl
    · exact h

/-! ### The service of one event, and the step -/

theorem serve_keeps_inv {e : Event} {s s' : State} (h : s.Inv) (hs : serve e s = .next s') : s'.Inv := by
  have hirq (i : IrqPend) : (s.setIrq i).Inv := h.of_parts rfl
  cases e with
  | clkEdge t d => cases hs; exact sample_keeps_inv t _ (hirq _)
  | cpEdge t => cases hs; exact cardPresent_keeps_inv t (hirq _)
  | tick =>
    cases hs
    unfold serveTick
    split
    · exact tick_keeps_inv (hirq _)
    · exact h
  | main => exact mainStep_keeps_inv h hs
  | host => exact hostStep_keeps_inv h hs
  | clkLine t e => cases hs; unfold lineClkEdge; split; exacts [hirq _, h]
  | cpLine t e => cases hs; unfold lineCpEdge; split; exacts [hirq _, h]
  | timerMatch => cases hs; unfold compareMatch; split; exacts [hirq _, h]
  | rxByte b => rw [serve_arrival ⟨b, .inr rfl⟩ hs]; exact h.of_parts rfl
  | rxEnd => rw [serve_arrival ⟨0#8, .inl rfl⟩ hs]; exact h.of_parts rfl

/-- Settles O49: a step serves an event, and the invariant says nothing of `events` and `choices`. -/
theorem everyStepKeepsTheInvariant : Obligations.EveryStepKeepsTheInvariant := by
  intro s s' h hs
  obtain ⟨e, es, n, he⟩ := step_serves hs
  have h0 : ((s.setEvents es).setChoices n).Inv := h.of_parts rfl
  exact serve_keeps_inv h0 he

end Sys2Proof.Machine

/-! SUPPORT. Proofs of the family 20_memory: what a queue holds under enqueues and dequeues, and hosts that differ only
beyond the length of a TrackBuffer. -/

namespace Sys2Proof.Machine

/-! ## What a queue holds (R64 to R69) -/

/-- The cursors of queue `t` are in their range (R25, R26, R64), and its unread bytes are `l`, oldest first. -/
structure State.QueueHolds (s : State) (t : Track) (l : List Byte) : Prop where
  wrRange : (s.queue.get t).wr < 2 * s.cfg.qcap
  rdRange : (s.queue.get t).rd < 2 * s.cfg.qcap
  notOver : (s.queue.get t).occ s.cfg.qcap ≤ s.cfg.qcap
  unread : unread t s = some l

@[simp] theorem enqueue_cfg (t : Track) (v : Byte) (s : State) : (enqueue t v s).cfg = s.cfg := by
  obtain ⟨q, hq, -⟩ := enqueue_eq_setQueue t v s
  rw [hq, State.setQueue_cfg]

/-- One enqueue: the byte joins the unread ones if there is room, and is dropped at a full queue (R67). -/
theorem State.QueueHolds.enqueue {s : State} {t : Track} {l : List Byte} (h : s.QueueHolds t l) (v : Byte) :
    (enqueue t v s).QueueHolds t (l ++ [v].take (s.cfg.qcap - l.length)) := by
  have hlen : l.length = (s.queue.get t).occ s.cfg.qcap := unread_length h.unread
  rcases enqueue_cases t v s with ⟨hfull, he⟩ | ⟨hne, -⟩
  · rw [he, hlen, hfull, Nat.sub_self, List.take_zero, List.append_nil]
    exact h
  · have hroom : (s.queue.get t).occ s.cfg.qcap < s.cfg.qcap := lt_of_le_of_ne h.notOver hne
    obtain ⟨he, hunread, hocc⟩ := enqueue_of_room t v s l h.wrRange h.rdRange hroom h.unread
    rw [List.take_of_length_le (show [v].length ≤ s.cfg.qcap - l.length by simp; omega)]
    have hq : (Machine.enqueue t v s).queue.get t =
        { buf := (s.queue.get t).buf.write ((s.queue.get t).wr % s.cfg.qcap) v,
          wr := ((s.queue.get t).wr + 1) % (2 * s.cfg.qcap), rd := (s.queue.get t).rd } := by
      rw [he, State.setQueue_queue, PerTrack.get_set_same]
    exact {
      wrRange := by rw [enqueue_cfg, hq]; exact Nat.mod_lt _ (Nat.zero_lt_of_lt h.wrRange)
      rdRange := by rw [enqueue_cfg, hq]; exact h.rdRange
      notOver := by rw [enqueue_cfg, hocc]; exact hroom
      unread := hunread }

/-- Filling a list up to `n` entries byte by byte takes the first bytes that fit. -/
theorem append_take_cons (n : Nat) (l vs : List Byte) (v : Byte) :
    (l ++ [v].take (n - l.length)) ++ vs.take (n - (l ++ [v].take (n - l.length)).length) =
      l ++ (v :: vs).take (n - l.length) := by
  cases h : n - l.length with
  | zero => simp [h]
  | succ m =>
    have hm : n - (l.length + 1) = m := by omega
    simp [hm]

/-- Enqueues one after the other (R67, R69). -/
theorem State.QueueHolds.foldl_enqueue {s : State} {t : Track} {l : List Byte} (h : s.QueueHolds t l) (vs : List Byte) :
    (vs.foldl (fun u v => Machine.enqueue t v u) s).QueueHolds t (l ++ vs.take (s.cfg.qcap - l.length)) := by
  induction vs generalizing s l with
  | nil => simpa using h
  | cons v vs ih =>
    have hrest := ih (h.enqueue v)
    rwa [enqueue_cfg, append_take_cons] at hrest

/-- Settles O44: what the queue holds, followed through the enqueues by induction on their list. -/
theorem enqueueDropsTheNewest : Obligations.EnqueueDropsTheNewest := by
  intro s t l vs _ hw hr ho hl
  exact (State.QueueHolds.mk hw hr ho hl).foldl_enqueue vs |>.unread

/-- The oldest of the entries stands at the cursor, the others from the next cursor on (R64). -/
theorem readSlots_succ_eq_cons {qcap : Nat} {m : Memory} {c n : Nat} {v : Byte} {l : List Byte} :
    readSlots qcap m c (n + 1) = some (v :: l) ↔
      m.read (slotOf qcap c) = some v ∧ readSlots qcap m (c + 1) n = some l := by
  simp only [readSlots]
  cases m.read (slotOf qcap c) <;> cases readSlots qcap m (c + 1) n <;> simp

/-- Settles O45: the entry at the read cursor is the oldest, and the advanced cursor reads the others. -/
theorem dequeueReturnsTheOldest : Obligations.DequeueReturnsTheOldest := by
  intro s t v l _ hw hr hl
  have hocc : (s.queue.get t).occ s.cfg.qcap = l.length + 1 := (unread_length hl).symm
  obtain ⟨holdest, hothers⟩ : (s.queue.get t).buf.read (slotOf s.cfg.qcap (s.queue.get t).rd) = some v ∧
      readSlots s.cfg.qcap (s.queue.get t).buf ((s.queue.get t).rd + 1) l.length = some l := by
    rwa [unread, hocc, readSlots_succ_eq_cons] at hl
  have hocc' := occ_rdAdvance hw hr (by omega)
  rw [hocc, Nat.add_right_cancel_iff] at hocc'
  refine ⟨rdAdvance t s, by simp [dequeue, qRead, holdest], ?_, rfl⟩
  simp only [unread, rdAdvance, State.setQueue_queue, State.setQueue_cfg, PerTrack.get_set_same, hocc']
  rw [cursorNext, readSlots_mod]
  exact hothers

/-! ## Hosts that differ only beyond the length of a TrackBuffer (R70, U8) -/

/-- The host state of one track in two hosts that differ at most beyond `raw_len` (R70). -/
structure HostTrack.Alike (h k : HostTrack) : Prop where
  rawLen : k.rawLen = h.rawLen
  pend : k.pend = h.pend
  ovf : k.ovf = h.ovf
  bits : ∃ l, readBits h.tb h.rawLen = some l ∧ readBits k.tb k.rawLen = some l

theorem alikeBelowRawLen_iff {s u : State} :
    AlikeBelowRawLen s u ↔ u = { s with host := u.host } ∧ ∀ t, (s.host.get t).Alike (u.host.get t) :=
  and_congr_right fun _ => forall_congr' fun _ =>
    ⟨fun ⟨hlen, hpend, hovf, hbits⟩ => ⟨hlen, hpend, hovf, hbits⟩,
      fun ⟨hlen, hpend, hovf, hbits⟩ => ⟨hlen, hpend, hovf, hbits⟩⟩

/-- If the first outcome is a next state, so is the second, and the two states differ at most beyond `raw_len`. -/
def OutcomesAlike (o p : Host.Outcome State Fault Refusal) : Prop :=
  ∀ s', o = .next s' → ∃ u', p = .next u' ∧ AlikeBelowRawLen s' u'

theorem OutcomesAlike.next {s u : State} (h : AlikeBelowRawLen s u) : OutcomesAlike (.next s) (.next u) := by
  rintro _ ⟨⟩
  exact ⟨u, rfl, h⟩

theorem OutcomesAlike.refused (r : Refusal) (p : Host.Outcome State Fault Refusal) : OutcomesAlike (.refused r) p := by
  rintro _ ⟨⟩

theorem OutcomesAlike.andThen {o p : Host.Outcome State Fault Refusal} {f : State → Host.Outcome State Fault Refusal}
    (h : OutcomesAlike o p) (hf : ∀ s u, AlikeBelowRawLen s u → OutcomesAlike (f s) (f u)) :
    OutcomesAlike (andThen o f) (andThen p f) := by
  intro s' hs'
  obtain ⟨s1, rfl, hs1⟩ := andThen_next hs'
  obtain ⟨u1, rfl, h1⟩ := h s1 rfl
  exact hf s1 u1 h1 s' hs1

namespace AlikeBelowRawLen

variable {s u : State}

theorem hostTrack (h : AlikeBelowRawLen s u) (t : Track) : (s.host.get t).Alike (u.host.get t) :=
  (alikeBelowRawLen_iff.1 h).2 t

theorem cfg (h : AlikeBelowRawLen s u) : u.cfg = s.cfg := by rw [h.1]

theorem pendOf (h : AlikeBelowRawLen s u) : pendOf u = pendOf s :=
  congrArg₂ PerTrack.mk (h.hostTrack .t1).pend (h.hostTrack .t2).pend

theorem setHost (h : AlikeBelowRawLen s u) (t : Track) {a b : HostTrack} (hab : a.Alike b) :
    AlikeBelowRawLen (s.setHost t a) (u.setHost t b) := by
  obtain ⟨hu, htracks⟩ := alikeBelowRawLen_iff.1 h
  refine alikeBelowRawLen_iff.2 ⟨by rw [hu]; rfl, fun v => ?_⟩
  rcases Track.eq_or_other t v with rfl | rfl
  · simpa using hab
  · simpa using htracks t.other

theorem emit (h : AlikeBelowRawLen s u) (e : OutEvent) : AlikeBelowRawLen (emit e s) (emit e u) :=
  ⟨by rw [h.1]; rfl, h.2⟩

theorem setPend (h : AlikeBelowRawLen s u) (t : Track) (p : Option Nibble) :
    AlikeBelowRawLen (setPend t p s) (setPend t p u) :=
  h.setHost t { h.hostTrack t with pend := rfl }

/-- After `TBClear` no bit lies below `raw_len[t]` (R75). -/
theorem tbClear (h : AlikeBelowRawLen s u) (t : Track) : AlikeBelowRawLen (tbClear t s) (tbClear t u) :=
  h.setHost t { h.hostTrack t with rawLen := rfl, ovf := rfl, bits := ⟨[], rfl, rfl⟩ }

/-- The appended bit is the only one that comes below `raw_len[t]`, and both hosts write it (R74). -/
theorem tbAppend (h : AlikeBelowRawLen s u) (t : Track) (b : Bit) :
    AlikeBelowRawLen (tbAppend t b s) (tbAppend t b u) := by
  have ht := h.hostTrack t
  simp only [Machine.tbAppend, ht.ovf, ht.rawLen, h.cfg]
  split_ifs
  · exact h
  · have hflag : HostTrack.Alike { s.host.get t with ovf := true } { u.host.get t with ovf := true } :=
      { ht with ovf := rfl }
    exact (h.setHost t hflag).emit _
  · obtain ⟨l, hs, hu⟩ := ht.bits
    rw [ht.rawLen] at hu
    exact h.setHost t ⟨rfl, ht.pend, rfl, l ++ [b], readBits_append b hs, readBits_append b hu⟩

theorem appendBits (h : AlikeBelowRawLen s u) (t : Track) (bs : List Bit) :
    AlikeBelowRawLen (appendBits t bs s) (appendBits t bs u) := by
  induction bs generalizing s u with
  | nil => exact h
  | cons b bs ih => exact ih (h.tbAppend t b)

/-- The same sequence gets the same report (R204). -/
theorem report (h : AlikeBelowRawLen s u) (t : Track) (seq : List Bit) :
    AlikeBelowRawLen (report t seq s) (report t seq u) := by
  simp only [Machine.report, h.cfg]
  cases s.cfg.outMode with
  | interpret =>
    cases decodeTrack seq t with
    | ok chars => exact h.emit _
    | error c => exact h.emit _
  | binary => exact h.emit _

/-- STOP reads the bits below `raw_len[t]` only (R204). -/
theorem execStop (h : AlikeBelowRawLen s u) (t : Track) : OutcomesAlike (execStop t s) (execStop t u) := by
  obtain ⟨l, hs, hu⟩ := (h.hostTrack t).bits
  simp only [Machine.execStop, h.cfg, rawSeq, hs, hu]
  split_ifs
  · exact .next (h.report t l)
  · exact .next h

theorem execSize (h : AlikeBelowRawLen s u) (t : Track) (k : Nibble) :
    OutcomesAlike (execSize t k s) (execSize t k u) := by
  simp only [Machine.execSize, (h.hostTrack t).pend]
  cases (s.host.get t).pend with
  | none => exact .next (h.setPend t _)
  | some _ => exact .refused _ _

theorem execBits (h : AlikeBelowRawLen s u) (t : Track) (v : Nibble) :
    OutcomesAlike (execBits t v s) (execBits t v u) := by
  simp only [Machine.execBits, (h.hostTrack t).pend]
  cases (s.host.get t).pend with
  | none => exact .refused _ _
  | some k => exact .next ((h.appendBits t _).setPend t _)

/-- A byte on the wire is decoded alike, since `pend` is alike, and its row has alike outcomes (R202 to R206). -/
theorem exec_decodeWire (h : AlikeBelowRawLen s u) (b : Byte) :
    OutcomesAlike (exec (decodeWire (Machine.pendOf s) b) s) (exec (decodeWire (Machine.pendOf u) b) u) := by
  rw [h.pendOf]
  obtain ⟨t, hi | hi | ⟨n, hi | hi⟩⟩ := decodeWire_cases (Machine.pendOf s) b <;> rw [hi]
  · exact .next ((h.tbClear t).setPend t none)
  · exact h.execStop t
  · exact h.execSize t n
  · exact h.execBits t n

theorem consume (h : AlikeBelowRawLen s u) (bs : List Byte) : OutcomesAlike (consume bs s) (consume bs u) := by
  induction bs generalizing s u with
  | nil => exact .next h
  | cons b bs ih => exact (h.exec_decodeWire b).andThen fun _ _ => ih

end AlikeBelowRawLen

/-- Settles O57: being alike below `raw_len` is a simulation for every byte, hence for every byte stream. -/
theorem bitsBeyondTheLengthDoNotShow : Obligations.BitsBeyondTheLengthDoNotShow := by
  intro s u s' bs h hs
  exact h.consume bs s' hs

end Sys2Proof.Machine

/-! SUPPORT. Proofs of the family 30_encoding: bit sequences and their numbers, what the decoder gives in each stream, and
the statements about the three encodings. -/

namespace Sys2Proof

/-! ## Bit sequences and their numbers -/

theorem bitsLsb_succ (n w : Nat) : bitsLsb (n + 1) w = w.testBit 0 :: bitsLsb n (w / 2) := by
  simp [bitsLsb, List.range_succ_eq_map, Function.comp_def, Nat.testBit_succ]

/-- The number of a bit sequence gives the sequence back. -/
theorem bitsLsb_bitsVal (l : List Bit) : bitsLsb l.length (bitsVal l) = l := by
  induction l with
  | nil => rfl
  | cons b l ih =>
    have hfirst : (bitsVal (b :: l)).testBit 0 = b := by cases b <;> simp [bitsVal]
    have hrest : bitsVal (b :: l) / 2 = bitsVal l := by
      have := b.toNat_le
      rw [bitsVal]
      omega
    rw [List.length_cons, bitsLsb_succ, hfirst, hrest, ih]

theorem reverse_bitsMsb (n w : Nat) : (bitsMsb n w).reverse = bitsLsb n w := by
  refine List.ext_getElem (by simp) fun i hi _ => ?_
  have hlt : i < n := by simpa using hi
  simp only [bitsMsb, bitsLsb, List.getElem_reverse, List.getElem_map, List.getElem_range, List.length_map,
    List.length_range]
  congr 1
  omega

theorem bitsValMsb_bitsMsb {n w : Nat} (h : w < 2 ^ n) : bitsValMsb (bitsMsb n w) = w := by
  rw [bitsValMsb, reverse_bitsMsb, bitsVal_bitsLsb n w h]

/-! ## The frame (R105, R106) -/

theorem frameBits_eq (b : Byte) : frameBits b = false :: (bitsLsb 8 b.toNat ++ [true]) := rfl

/-- What `Unframe` accepts: a start bit, eight data bits and a stop bit. -/
theorem unframe_eq_ok_iff {f : List Bit} {b : Byte} :
    unframe f = .ok b ↔
      ∃ bs : List Bit, bs.length = 8 ∧ f = false :: (bs ++ [true]) ∧ BitVec.ofNat 8 (bitsVal bs) = b := by
  constructor
  · intro h
    unfold unframe at h
    split at h
    next s b0 b1 b2 b3 b4 b5 b6 b7 p =>
      split_ifs at h with hs hp
      rw [Bool.not_eq_true] at hs
      exact ⟨[b0, b1, b2, b3, b4, b5, b6, b7], rfl, by simp [hs, hp], Except.ok.inj h⟩
    next => cases h
  · rintro ⟨bs, hlen, rfl, rfl⟩
    match bs, hlen with
    | [b0, b1, b2, b3, b4, b5, b6, b7], _ => rfl

/-- Settles O9: the data bits of a frame are the byte's eight bits, which determine it and are determined by it. -/
theorem unframeInvertsFrame : Obligations.UnframeInvertsFrame := by
  intro b f
  rw [unframe_eq_ok_iff, frameBits_eq]
  constructor
  · rintro ⟨bs, hlen, rfl, rfl⟩
    have hlt : bitsVal bs < 2 ^ 8 := hlen ▸ bitsVal_lt bs
    rw [BitVec.toNat_ofNat, Nat.mod_eq_of_lt hlt, ← hlen, bitsLsb_bitsVal]
  · rintro rfl
    refine ⟨bitsLsb 8 b.toNat, bitsLsb_length _ _, rfl, ?_⟩
    rw [bitsVal_bitsLsb 8 _ b.isLt, BitVec.ofNat_toNat, BitVec.setWidth_eq]

/-! ## The protocol byte (R90 to R104) -/

/-- The byte of a kind, by the constructors of R97 to R100. -/
def ByteKind.byte : ByteKind → Byte
  | .start t => mkStart t
  | .stop t => mkStop t
  | .data t n => mkData t n

/-- The byte with the bits that `DecodeByte` does not look at cleared (R96, R103). -/
def examinedByte (b : Byte) : Byte := b &&& (if b.getLsbD 7 then 0b11100000#8 else 0b11001111#8)

/-- The kind of a byte keeps every bit but the reserved ones (R103): read off all 256 values. -/
theorem byte_decodeByte (b : Byte) : (decodeByte b).byte = examinedByte b := by revert b; decide

theorem decodeWire_of_data {b : Byte} {t : Track} {n : Nibble} (pend : PerTrack (Option Nibble))
    (h : decodeByte b = .data t n) : decodeWire pend b = if pend.get t = none then .size t n else .bits t n := by
  rw [decodeWire, h]
  dsimp only
  cases pend.get t <;> rfl

theorem examinedByte_toNat (pend : PerTrack (Option Nibble)) (b : Byte) :
    (examinedByte b).toNat = b.toNat &&& examinedMask (.wire pend) b.toNat := by
  rw [examinedByte, BitVec.toNat_and, examinedMask, BitVec.testBit_toNat]
  cases b.getLsbD 7 <;> rfl

/-! ## The character group (R109 to R112, R223 to R228) -/

/-- A group of format 2 has five bits, so its parity bit and its data are all of it (R109). -/
theorem group2_extract {g : Group} (h : g.toNat < 2 ^ fmtWidth .t2) :
    group2 (BitVec.extractLsb' 4 1 g) (BitVec.extractLsb' 0 4 g) = g := by
  revert g; decide

theorem group1_extract (g : Group) : group1 (BitVec.extractLsb' 6 1 g) (BitVec.extractLsb' 0 6 g) = g := by
  revert g; decide

/-- A character of format 2 is well formed when its group is not the terminator (R228). -/
theorem wf_char2_iff {p : BitVec 1} {d : BitVec 4} : (Instr.char2 p d).wf = true ↔ group2 p d ≠ fmtTerm .t2 := by
  revert p d; decide

/-- A character of format 1 is well formed when its group is not the terminator (R228). -/
theorem wf_char1_iff {p : BitVec 1} {d : BitVec 6} : (Instr.char1 p d).wf = true ↔ group1 p d ≠ fmtTerm .t1 := by
  revert p d; decide

theorem decodeGroup_t2 (g : Group) :
    decodeGroup .t2 g =
      if g = fmtTerm .t2 then .term2 else .char2 (BitVec.extractLsb' 4 1 g) (BitVec.extractLsb' 0 4 g) := rfl

theorem decodeGroup_t1 (g : Group) :
    decodeGroup .t1 g =
      if g = fmtTerm .t1 then .term1 else .char1 (BitVec.extractLsb' 6 1 g) (BitVec.extractLsb' 0 6 g) := rfl

theorem decodeGroup_group2 {p : BitVec 1} {d : BitVec 4} (h : group2 p d ≠ fmtTerm .t2) :
    decodeGroup .t2 (group2 p d) = .char2 p d := by
  have hp : BitVec.extractLsb' 4 1 (group2 p d) = p := by revert p d; decide
  have hd : BitVec.extractLsb' 0 4 (group2 p d) = d := by revert p d; decide
  rw [decodeGroup_t2, if_neg h, hp, hd]

theorem decodeGroup_group1 {p : BitVec 1} {d : BitVec 6} (h : group1 p d ≠ fmtTerm .t1) :
    decodeGroup .t1 (group1 p d) = .char1 p d := by
  have hp : BitVec.extractLsb' 6 1 (group1 p d) = p := by revert p d; decide
  have hd : BitVec.extractLsb' 0 6 (group1 p d) = d := by revert p d; decide
  rw [decodeGroup_t1, if_neg h, hp, hd]

/-! ## The decoder in each stream -/

theorem decode_line {w : Nat} (h : w < 2 ^ 10) : decode .line w = decodeFrame w := if_neg (Nat.not_le.2 h)

theorem decode_search {f : Track} {g : Group} (h : g.toNat < 2 ^ fmtWidth f) :
    decode (.search f) g.toNat = decodeSearch f g := by
  simp [decode, Stream.width, h]

theorem decode_groups {f : Track} {g : Group} (h : g.toNat < 2 ^ fmtWidth f) :
    decode (.groups f) g.toNat = .ok (decodeGroup f g) := by
  simp [decode, Stream.width, h]

/-- A unit that decodes has no more bits than its stream's units (R90, R105, R110). -/
theorem lt_of_decode {st : Stream} {w : Nat} {i : Instr} (h : decode st w = .ok i) : w < 2 ^ st.width := by
  unfold decode at h
  split_ifs at h with hw
  exact Nat.not_le.1 hw

/-- Settles O3: an instruction and a stream that reads it are one of eleven pairs, and in each the stream's decoder
inverts the row's encoding. -/
theorem decodeOfEncodeIsTheInstruction : Obligations.DecodeOfEncodeIsTheInstruction := by
  intro i st hwf hread
  match i, st, hread with
  | .start t, .wire pend, _ => rw [encode, decode_wire_byte, decodeWire, decodeByte_mkStart]
  | .stop t, .wire pend, _ => rw [encode, decode_wire_byte, decodeWire, decodeByte_mkStop]
  | .size t k, .wire pend, hpend =>
    rw [encode, decode_wire_byte, decodeWire_of_data pend (decodeByte_mkData t k),
      if_pos (Option.isNone_iff_eq_none.1 hpend)]
  | .bits t v, .wire pend, hpend =>
    rw [encode, decode_wire_byte, decodeWire_of_data pend (decodeByte_mkData t v),
      if_neg (Option.isSome_iff_ne_none.1 hpend)]
  | .frame b, .line, _ =>
    rw [decode_line (Laws.EncodeFits.frame b), decodeFrame, encode, bitsMsb_frame, (unframeInvertsFrame b _).2 rfl]
  | .sent2, .search .t2, _ => rfl
  | .sent1, .search .t1, _ => rfl
  | .char2 p d, .groups .t2, _ =>
    rw [encode, decode_groups (f := .t2) (Laws.EncodeFits.char2 p d), decodeGroup_group2 (wf_char2_iff.1 hwf)]
  | .char1 p d, .groups .t1, _ =>
    rw [encode, decode_groups (f := .t1) (Laws.EncodeFits.char1 p d), decodeGroup_group1 (wf_char1_iff.1 hwf)]
  | .term2, .groups .t2, _ => rfl
  | .term1, .groups .t1, _ => rfl

/-- The instruction is well formed, is read in stream `st`, and has the word `w`. -/
def Instr.Names (i : Instr) (st : Stream) (w : Nat) : Prop := i.wf = true ∧ i.readIn st = true ∧ encode i = w

theorem decodeWire_names (pend : PerTrack (Option Nibble)) (b : Byte) :
    (decodeWire pend b).Names (.wire pend) (examinedByte b).toNat := by
  rw [← byte_decodeByte]
  cases hk : decodeByte b with
  | start t => rw [decodeWire, hk]; exact ⟨rfl, rfl, rfl⟩
  | stop t => rw [decodeWire, hk]; exact ⟨rfl, rfl, rfl⟩
  | data t n =>
    rw [decodeWire_of_data pend hk]
    split_ifs with hp
    · exact ⟨rfl, Option.isNone_iff_eq_none.2 hp, rfl⟩
    · exact ⟨rfl, Option.isSome_iff_ne_none.2 hp, rfl⟩

theorem decodeFrame_names {w : Nat} {i : Instr} (hw : w < 2 ^ 10) (h : decodeFrame w = .ok i) : i.Names .line w := by
  unfold decodeFrame at h
  split at h
  next b hb =>
    cases h
    refine ⟨rfl, rfl, ?_⟩
    rw [encode, ← (unframeInvertsFrame b _).1 hb, bitsValMsb_bitsMsb hw]
  next => cases h

theorem decodeSearch_names {f : Track} {g : Group} {i : Instr} (h : decodeSearch f g = .ok i) :
    i.Names (.search f) g.toNat := by
  unfold decodeSearch at h
  split_ifs at h with hg
  subst hg
  cases f <;> cases h <;> exact ⟨rfl, rfl, rfl⟩

theorem decodeGroup_names {f : Track} {g : Group} (h : g.toNat < 2 ^ fmtWidth f) :
    (decodeGroup f g).Names (.groups f) g.toNat := by
  cases f with
  | t1 =>
    rw [decodeGroup_t1]
    split_ifs with hg
    · exact ⟨rfl, rfl, by rw [hg]; rfl⟩
    · exact ⟨wf_char1_iff.2 (by rwa [group1_extract]), rfl, by rw [encode, group1_extract]⟩
  | t2 =>
    rw [decodeGroup_t2]
    split_ifs with hg
    · exact ⟨rfl, rfl, by rw [hg]; rfl⟩
    · exact ⟨wf_char2_iff.2 (by rwa [group2_extract h]), rfl, by rw [encode, group2_extract h]⟩

/-- A unit that fits a window of format `f` is a group. -/
theorem exists_group_of_lt {f : Track} {w : Nat} (h : w < 2 ^ fmtWidth f) : ∃ g : Group, g.toNat = w :=
  ⟨.ofNatLT w (h.trans_le (by cases f <;> decide)), rfl⟩

/-- Settles O4: stream by stream. Only on the wire are there bits that the decoder does not look at; elsewhere the mask
is the whole unit. -/
theorem encodeOfDecodeIsTheExaminedWord : Obligations.EncodeOfDecodeIsTheExaminedWord := by
  intro st w i h
  have hw := lt_of_decode h
  cases st with
  | wire pend =>
    obtain ⟨b, rfl⟩ : ∃ b : Byte, b.toNat = w := ⟨.ofNatLT w hw, rfl⟩
    rw [decode_wire_byte] at h
    cases h
    rw [← examinedByte_toNat]
    exact decodeWire_names pend b
  | line =>
    rw [examinedMask, Nat.and_two_pow_sub_one_of_lt_two_pow (n := 10) hw]
    exact decodeFrame_names hw (decode_line hw ▸ h)
  | search f =>
    rw [examinedMask, Nat.and_two_pow_sub_one_of_lt_two_pow (n := fmtWidth f) hw]
    obtain ⟨g, rfl⟩ := exists_group_of_lt hw
    exact decodeSearch_names (decode_search hw ▸ h)
  | groups f =>
    rw [examinedMask, Nat.and_two_pow_sub_one_of_lt_two_pow (n := fmtWidth f) hw]
    obtain ⟨g, rfl⟩ := exists_group_of_lt hw
    rw [decode_groups hw] at h
    cases h
    exact decodeGroup_names hw

/-! ## The values, the fields and the reserved bits of a protocol byte -/

/-- Field `T` is worth 0x40, and the nibble stands in the low bits (R99, R100). -/
theorem mkData_toNat (t : Track) (n : Nibble) : (mkData t n).toNat = 0x40 * (trackBit t).toNat + n.toNat := by
  cases t <;> revert n <;> decide

/-- Settles O6: the kinds that the constructors decode to (R103) tell their bytes apart. -/
theorem constructorsGiveTheStatedBytes : Obligations.ConstructorsGiveTheStatedBytes := by
  refine ⟨rfl, rfl, rfl, rfl, fun n => ?_, fun n => ?_, fun t u n => ⟨fun h => ?_, fun h => ?_, fun h => ?_⟩⟩
  · simpa [trackBit] using mkData_toNat .t1 n
  · exact mkData_toNat .t2 n
  all_goals
    have hkind := congrArg decodeByte h
    simp [decodeByte_mkStart, decodeByte_mkStop, decodeByte_mkData] at hkind

/-- Settles O7: bits 7 and 5 choose the kind, and `pend` the row of a data byte. -/
theorem everyByteDecodesByItsFields : Obligations.EveryByteDecodesByItsFields := by
  intro b pend t n
  rw [decode_wire_byte]
  cases h7 : b.getLsbD 7 with
  | true =>
    cases h5 : b.getLsbD 5 with
    | true =>
      have hkind : decodeByte b = .stop t := by rw [decodeByte, h7, h5]; rfl
      rw [decodeWire, hkind]
      rfl
    | false =>
      have hkind : decodeByte b = .start t := by rw [decodeByte, h7, h5]; rfl
      rw [decodeWire, hkind]
      rfl
  | false =>
    have hkind : decodeByte b = .data t n := by rw [decodeByte, h7]; rfl
    rw [decodeWire_of_data pend hkind]
    rfl

/-- A unit with its ignored bits cleared is the same instruction (R96): the two round trips after one another. -/
theorem decode_examined {st : Stream} {w : Nat} {i : Instr} (h : decode st w = .ok i) :
    decode st (w &&& examinedMask st w) = .ok i := by
  obtain ⟨hwf, hread, henc⟩ := encodeOfDecodeIsTheExaminedWord st w i h
  rw [← henc]
  exact decodeOfEncodeIsTheInstruction i st hwf hread

/-- Settles O8: every byte decodes, and the byte with its reserved bits cleared decodes to the same row. -/
theorem reservedBitsAreDecodedAsZero : Obligations.ReservedBitsAreDecodedAsZero := by
  intro b pend
  have hall := decode_wire_byte pend b
  have hexamined := decode_examined hall
  rw [← examinedByte_toNat] at hexamined
  rw [hall]
  exact hexamined.symm

end Sys2Proof

namespace Sys2Proof.Machine

/-! ## Parity and the character of a group (R111, R112) -/

/-- One more 1 bit changes the validity of a group (R111). -/
theorem groupValid_of_popcount_succ {g g' : Group} (h : popcount g' = popcount g + 1) :
    groupValid g = !groupValid g' := by
  rw [groupValid, groupValid, h]
  rcases Nat.mod_two_eq_zero_or_one (popcount g) with h2 | h2 <;> simp [Nat.add_mod, h2]

/-- The parity bit is counted (R111). -/
theorem popcount_group2 (d : BitVec 4) : popcount (group2 1#1 d) = popcount (group2 0#1 d) + 1 := by
  revert d; decide

theorem popcount_group1 (d : BitVec 6) : popcount (group1 1#1 d) = popcount (group1 0#1 d) + 1 := by
  revert d; decide

/-- The character leaves the parity bit out (R112). -/
theorem groupChar_group2 (p : BitVec 1) (d : BitVec 4) : groupChar .t2 (group2 p d) = BitVec.setWidth 8 d + 0x30#8 := by
  revert p d; decide

theorem groupChar_group1 (p : BitVec 1) (d : BitVec 6) : groupChar .t1 (group1 p d) = BitVec.setWidth 8 d + 0x20#8 := by
  revert p d; decide

/-- Settles O10: the parity bit is one of the counted bits and none of the data bits. -/
theorem everyDataValueHasOneValidGroup : Obligations.EveryDataValueHasOneValidGroup := by
  refine ⟨fun d => ⟨groupValid_of_popcount_succ (popcount_group2 d), fun p => ?_⟩,
    fun d => ⟨groupValid_of_popcount_succ (popcount_group1 d), fun p => ?_⟩⟩
  · rw [groupChar_group2]; bv_omega
  · rw [groupChar_group1]; bv_omega

/-! ## The protocol bytes out of their state (log 3, log 12) -/

/-- Settles O22: SIZE and BITS look at `pend[t]`, STOP of an enabled track at the sequence. -/
theorem protocolBytesStopOutOfTheirState : Obligations.ProtocolBytesStopOutOfTheirState := by
  intro s t n
  refine ⟨fun hp => ?_, fun hp => ?_, fun ho hr => ?_⟩
  · obtain ⟨k, hk⟩ := Option.ne_none_iff_exists'.1 hp
    simp only [exec, execSize, hk]
  · simp only [exec, execBits, hp]
  · simp only [exec, execStop, ho, if_true, hr]

end Sys2Proof.Machine

/-! SUPPORT. Proofs of the family 41_bit_sampler: what the clock handler and the card-present handler put into the queue
and the channel of their track. -/

namespace Sys2Proof.Machine

/-! ## Enqueues of one handler (R150 to R154) -/

/-- The bytes of `vs` offered to queue `t` one after the other; each may be dropped on its own (R156). -/
def enqueueAll (t : Track) (vs : List Byte) (s : State) : State := vs.foldl (fun u v => enqueue t v u) s

/-- The channels are neither read nor written. -/
theorem enqueueAll_setChan (t u : Track) (vs : List Byte) (c : Channel) (s : State) :
    enqueueAll t vs (s.setChan u c) = (enqueueAll t vs s).setChan u c := by
  induction vs generalizing s with
  | nil => rfl
  | cons v vs ih => exact (congrArg (enqueueAll t vs) (enqueue_setChan t u v c s)).trans (ih _)

theorem State.setQueue_get (s : State) (t : Track) : s.setQueue t (s.queue.get t) = s := by
  rw [State.setQueue, PerTrack.set_get]

theorem enqueueAll_eq_setQueue (t : Track) (vs : List Byte) (s : State) :
    ∃ q, enqueueAll t vs s = s.setQueue t q ∧ q.rd = (s.queue.get t).rd := by
  induction vs generalizing s with
  | nil => exact ⟨s.queue.get t, (s.setQueue_get t).symm, rfl⟩
  | cons v vs ih =>
    obtain ⟨q, hq, hrd⟩ := enqueue_eq_setQueue t v s
    obtain ⟨q', hq', hrd'⟩ := ih (s.setQueue t q)
    refine ⟨q', ?_, by rw [hrd', ← hrd]; simp⟩
    calc enqueueAll t (v :: vs) s = enqueueAll t vs (s.setQueue t q) := congrArg (enqueueAll t vs) hq
      _ = s.setQueue t q' := by rw [hq']; simp [State.setQueue]

/-- The queue after the enqueues: the read cursor stands still, and the bytes that fit follow the unread ones (R67, R69). -/
theorem QueueInv.enqueueAll {t : Track} {s : State} {l : List Byte} (h : QueueInv t s.cfg.qcap (s.queue.get t))
    (hl : unread t s = some l) (vs : List Byte) :
    ∃ q, Machine.enqueueAll t vs s = s.setQueue t q ∧ q.rd = (s.queue.get t).rd ∧
      readSlots s.cfg.qcap q.buf q.rd (q.occ s.cfg.qcap) = some (l ++ vs.take (s.cfg.qcap - l.length)) := by
  obtain ⟨q, hq, hrd⟩ := enqueueAll_eq_setQueue t vs s
  refine ⟨q, hq, hrd, ?_⟩
  have hholds : s.QueueHolds t l := ⟨h.wrRange, h.rdRange, h.notOver, hl⟩
  have hunread : unread t (Machine.enqueueAll t vs s) = _ := (hholds.foldl_enqueue vs).unread
  rwa [hq, unread, State.setQueue_queue, PerTrack.get_set_same] at hunread

/-! ## The handlers, one equation for each case -/

@[simp] theorem takeInterrupt_chan (src : IrqSource) (s : State) : (takeInterrupt src s).chan = s.chan := rfl
@[simp] theorem takeInterrupt_cfg (src : IrqSource) (s : State) : (takeInterrupt src s).cfg = s.cfg := rfl

theorem serve_clkEdge (t : Track) (d : Bit) (s : State) :
    serve (.clkEdge t d) s = .next (sample t (!d) (takeInterrupt (.clk t) s)) := rfl

theorem serve_cpEdge (t : Track) (s : State) :
    serve (.cpEdge t) s = .next (cardPresent t (takeInterrupt (.cp t) s)) := rfl

theorem sample_of_room {t : Track} {b : Bit} {s : State} (h : (s.chan.get t).accCnt + 1 ≠ s.cfg.g) :
    sample t b s = s.setChan t { s.chan.get t with
      accVal := accShift s.cfg.g (s.chan.get t).accVal b, accCnt := (s.chan.get t).accCnt + 1 } := by
  rcases sample_cases t b s with ⟨hfull, -⟩ | ⟨-, he⟩
  · exact absurd hfull h
  · exact he

theorem sample_of_full {t : Track} {b : Bit} {s : State} (h : (s.chan.get t).accCnt + 1 = s.cfg.g) :
    sample t b s =
      (enqueueAll t [mkData t (BitVec.ofNat 4 s.cfg.g), mkData t (accShift s.cfg.g (s.chan.get t).accVal b)] s).setChan t
        { s.chan.get t with accVal := 0#4, accCnt := 0 } := by
  rcases sample_cases t b s with ⟨-, he⟩ | ⟨hroom, -⟩
  · rw [he, clearAcc, onFlush, enqueue_chan, enqueue_chan]
    rfl
  · exact absurd h hroom

theorem cardPresent_of_falling {t : Track} {s : State} (h : (s.chan.get t).cpSel = .falling) :
    cardPresent t s = (enqueueAll t [mkStart t] s).setChan t { accVal := 0#4, accCnt := 0, cpSel := .rising } := by
  simp only [cardPresent, h]
  simp [startSwipe, onStart, setCpSel, clearAcc, State.setChan, enqueueAll]

/-- The bytes of `onStop` (R152): the pair of a partial group, if there is one, and STOP. -/
def stopBytes (t : Track) (c : Channel) : List Byte :=
  (if c.accCnt = 0 then [] else [mkData t (BitVec.ofNat 4 c.accCnt), mkData t c.accVal]) ++ [mkStop t]

/-- The accumulator is cleared between the pair and STOP (R152), which no enqueue sees. -/
theorem onStop_eq (t : Track) (s : State) :
    onStop t s = (enqueueAll t (stopBytes t (s.chan.get t)) s).setChan t
      { s.chan.get t with accVal := 0#4, accCnt := 0 } := by
  rcases Nat.eq_zero_or_pos (s.chan.get t).accCnt with h | h
  · simp [onStop, stopBytes, enqueueAll, clearAcc, enqueue_setChan, h]
  · simp [onStop, stopBytes, enqueueAll, clearAcc, onFlush, enqueue_setChan, enqueue_chan, h, h.ne']

theorem cardPresent_of_rising {t : Track} {s : State} (h : (s.chan.get t).cpSel = .rising) :
    cardPresent t s = (enqueueAll t (stopBytes t (s.chan.get t)) s).setChan t
      { accVal := 0#4, accCnt := 0, cpSel := .falling } := by
  simp only [cardPresent, h]
  simp [stopSwipe, onStop_eq, setCpSel, State.setChan]

/-! ## The clock handler (R131 to R135) -/

/-- In a channel within its ranges (R21, R22) the shift loses no bit. -/
theorem ChanInv.accShift_toNat {g : Nat} {c : Channel} (h : ChanInv g c) (hg : g ≤ 4) (b : Bit) :
    (accShift g c.accVal b).toNat = 2 * c.accVal.toNat + b.toNat := by
  refine Machine.accShift_toNat hg ?_
  calc 2 * c.accVal.toNat + b.toNat < 2 ^ (c.accCnt + 1) := by
        have := h.value
        have := b.toNat_le
        rw [pow_succ]
        omega
    _ ≤ 2 ^ g := Nat.pow_le_pow_right (by decide) h.count

/-- The logical bit of a level as a number: `1 - d` (R131). -/
theorem toNat_not_level (d : Bit) : (!d).toNat = if d then 0 else 1 := by cases d <;> rfl

/-- Settles O38: the group has room, and in a channel within its ranges the shift loses no bit. -/
theorem sampleAccumulatesTheBit : Obligations.SampleAccumulatesTheBit := by
  intro s t d hg hc hroom
  refine ⟨accShift s.cfg.g (s.chan.get t).accVal (!d), ?_, ?_⟩
  · rw [hc.accShift_toNat hg, toNat_not_level]
  · rw [serve_clkEdge, sample_of_room (s := takeInterrupt (.clk t) s) hroom.ne]
    rfl

/-- Settles O39: the pair of bytes is offered to the queue, and the group's value is the shifted accumulator. -/
theorem sampleFlushesTheFullGroup : Obligations.SampleFlushesTheFullGroup := by
  intro s t d l hwf hc hq hfull hl
  obtain ⟨-, hg, -⟩ := Params.wf_iff.1 hwf
  have hval : BitVec.ofNat 4 (2 * (s.chan.get t).accVal.toNat + (if d then 0 else 1)) =
      accShift s.cfg.g (s.chan.get t).accVal (!d) := by
    rw [← toNat_not_level, ← hc.accShift_toNat hg, BitVec.ofNat_toNat, BitVec.setWidth_eq]
  obtain ⟨q, he, hrd, hread⟩ := QueueInv.enqueueAll (s := takeInterrupt (.clk t) s) hq hl
    [mkData t (BitVec.ofNat 4 s.cfg.g), mkData t (accShift s.cfg.g (s.chan.get t).accVal (!d))]
  refine ⟨q, ?_, hrd, by rw [hval]; exact hread⟩
  rw [serve_clkEdge, sample_of_full (s := takeInterrupt (.clk t) s) hfull, takeInterrupt_chan, takeInterrupt_cfg, he]
  rfl

/-- Whichever edge is watched, the sampler does the same (R135). -/
theorem sample_setCpSel (t : Track) (b : Bit) (e : EdgeDir) (s : State) :
    sample t b (setCpSel t e s) = setCpSel t e (sample t b s) := by
  have hget : (setCpSel t e s).chan.get t = { s.chan.get t with cpSel := e } := PerTrack.get_set_same _ _ _
  have hcfg : (setCpSel t e s).cfg = s.cfg := rfl
  by_cases h : (s.chan.get t).accCnt + 1 = s.cfg.g
  · rw [sample_of_full h, sample_of_full (by rw [hget]; exact h), hget, hcfg, setCpSel, enqueueAll_setChan]
    simp [setCpSel, State.setChan]
  · rw [sample_of_room h, sample_of_room (by rw [hget]; exact h), hget, hcfg]
    simp [setCpSel, State.setChan]

/-- Settles O43: the sampler commutes with writing `cp_sel[t]`. -/
theorem samplingIsNotGated : Obligations.SamplingIsNotGated := by
  intro s s' t d e h
  rw [serve_clkEdge, Host.Outcome.next.injEq] at h
  subst h
  exact congrArg Host.Outcome.next (sample_setCpSel t (!d) e (takeInterrupt (.clk t) s))

/-! ## The card-present handler (R136 to R139) -/

/-- Settles O40: START is offered to the queue, then the channel is set. -/
theorem cardArrivalStartsTheSwipe : Obligations.CardArrivalStartsTheSwipe := by
  intro s t l _ hq hsel hl
  obtain ⟨q, he, hrd, hread⟩ := QueueInv.enqueueAll (s := takeInterrupt (.cp t) s) hq hl [mkStart t]
  refine ⟨q, ?_, hrd, hread⟩
  rw [serve_cpEdge, cardPresent_of_falling (s := takeInterrupt (.cp t) s) hsel, he]
  rfl

/-- Settles O41: the bytes of the partial group and STOP are offered to the queue, then the channel is set. -/
theorem cardRemovalStopsTheSwipe : Obligations.CardRemovalStopsTheSwipe := by
  intro s t l _ hq hsel hl
  obtain ⟨q, he, hrd, hread⟩ := QueueInv.enqueueAll (s := takeInterrupt (.cp t) s) hq hl (stopBytes t (s.chan.get t))
  refine ⟨q, ?_, hrd, hread⟩
  rw [serve_cpEdge, cardPresent_of_rising (s := takeInterrupt (.cp t) s) hsel, takeInterrupt_chan, he]
  rfl

/-! ## Both handlers -/

/-- All that `sample` changes: the channel of its track but for `cp_sel[t]`, and the queue but for the read cursor (R134). -/
theorem sample_frame (t : Track) (b : Bit) (s : State) :
    ∃ c q, sample t b s = (s.setQueue t q).setChan t c ∧ c.cpSel = (s.chan.get t).cpSel ∧ q.rd = (s.queue.get t).rd := by
  by_cases h : (s.chan.get t).accCnt + 1 = s.cfg.g
  · obtain ⟨q, he, hrd⟩ := enqueueAll_eq_setQueue t
      [mkData t (BitVec.ofNat 4 s.cfg.g), mkData t (accShift s.cfg.g (s.chan.get t).accVal b)] s
    exact ⟨_, q, (sample_of_full h).trans (congrArg (State.setChan · t _) he), rfl, hrd⟩
  · exact ⟨_, s.queue.get t, (sample_of_room h).trans (congrArg (State.setChan · t _) (s.setQueue_get t).symm), rfl, rfl⟩

/-- All that the card-present handler changes: the channel of its track, where it watches the other edge from then on, and
the queue but for the read cursor (R134, R136). -/
theorem cardPresent_frame (t : Track) (s : State) :
    ∃ c q, cardPresent t s = (s.setQueue t q).setChan t c ∧ c.cpSel ≠ (s.chan.get t).cpSel ∧
      q.rd = (s.queue.get t).rd := by
  cases h : (s.chan.get t).cpSel with
  | falling =>
    obtain ⟨q, he, hrd⟩ := enqueueAll_eq_setQueue t [mkStart t] s
    exact ⟨_, q, by rw [cardPresent_of_falling h, he], by decide, hrd⟩
  | rising =>
    obtain ⟨q, he, hrd⟩ := enqueueAll_eq_setQueue t (stopBytes t (s.chan.get t)) s
    exact ⟨_, q, by rw [cardPresent_of_rising h, he], by decide, hrd⟩

/-- Settles O42: the frames of the two handlers, in the state whose request latch is cleared. -/
theorem captureHandlersTouchOneTrack : Obligations.CaptureHandlersTouchOneTrack := by
  intro s t d
  obtain ⟨c, q, he, hsel, hrd⟩ := sample_frame t (!d) (takeInterrupt (.clk t) s)
  obtain ⟨c', q', he', hsel', hrd'⟩ := cardPresent_frame t (takeInterrupt (.cp t) s)
  exact ⟨⟨c, q, congrArg Host.Outcome.next he, hsel, hrd⟩, ⟨c', q', congrArg Host.Outcome.next he', hsel', hrd'⟩⟩

end Sys2Proof.Machine

/-! SUPPORT. Proofs of the family 42_packet_framer: a whole swipe offers `SWIPE t, s` to the queue of its track. -/

namespace Sys2Proof

/-! ## The wire sequences (R117) -/

/-- One bit more at the end doubles the number and adds the bit (R132). -/
theorem bitsValMsb_concat (p : List Bit) (b : Bit) : bitsValMsb (p ++ [b]) = 2 * bitsValMsb p + b.toNat := by
  rw [bitsValMsb, List.reverse_append, List.reverse_singleton, List.singleton_append, bitsVal, bitsValMsb, Nat.add_comm]

theorem bitsValMsb_lt (p : List Bit) : bitsValMsb p < 2 ^ p.length := by
  simpa only [bitsValMsb, List.length_reverse] using bitsVal_lt p.reverse

theorem bitseqBytesUpTo_nil (g : Nat) (t : Track) (n : Nat) : bitseqBytesUpTo g t n [] = [] := by cases n <;> rfl

/-- Any two bounds that suffice give the same sequence. -/
theorem bitseqBytesUpTo_eq {g : Nat} (hg : 1 ≤ g) (t : Track) {n m : Nat} {s : List Bit} (hn : s.length ≤ n)
    (hm : s.length ≤ m) : bitseqBytesUpTo g t n s = bitseqBytesUpTo g t m s := by
  induction n generalizing m s with
  | zero => rw [List.length_eq_zero_iff.1 (Nat.le_zero.1 hn), bitseqBytesUpTo_nil, bitseqBytesUpTo_nil]
  | succ n ih =>
    by_cases hs : s = []
    · rw [hs, bitseqBytesUpTo_nil, bitseqBytesUpTo_nil]
    · have hpos : 0 < s.length := List.length_pos_iff.2 hs
      obtain ⟨k, rfl⟩ : ∃ k, m = k + 1 := ⟨m - 1, by omega⟩
      have hdrop : (s.drop g).length ≤ n ∧ (s.drop g).length ≤ k := by rw [List.length_drop]; omega
      rw [bitseqBytesUpTo, bitseqBytesUpTo, if_neg hs, if_neg hs, ih hdrop.1 hdrop.2]

@[simp] theorem bitseqBytes_nil (g : Nat) (t : Track) : bitseqBytes g t [] = [] := rfl

/-- The first group is cut off, and the rest is a sequence of its own. -/
theorem bitseqBytes_of_ne_nil {g : Nat} (hg : 1 ≤ g) (t : Track) {s : List Bit} (hs : s ≠ []) :
    bitseqBytes g t s = flushBytes t (s.take g).length (bitsValMsb (s.take g)) ++ bitseqBytes g t (s.drop g) := by
  have hpos : 0 < s.length := List.length_pos_iff.2 hs
  obtain ⟨n, hn⟩ : ∃ n, s.length = n + 1 := ⟨s.length - 1, by omega⟩
  rw [bitseqBytes, hn, bitseqBytesUpTo, if_neg hs, bitseqBytes]
  exact congrArg _ (bitseqBytesUpTo_eq hg t (by rw [List.length_drop]; omega) le_rfl)

/-- A full group in front of a sequence. -/
theorem bitseqBytes_append {g : Nat} (hg : 1 ≤ g) (t : Track) {p : List Bit} (hp : p.length = g) (s : List Bit) :
    bitseqBytes g t (p ++ s) = flushBytes t g (bitsValMsb p) ++ bitseqBytes g t s := by
  have hne : p ++ s ≠ [] := List.append_ne_nil_of_left_ne_nil (List.length_pos_iff.1 (by omega)) s
  rw [bitseqBytes_of_ne_nil hg t hne, List.take_left' hp, List.drop_left' hp, hp]

/-- A sequence that is one group, full or not. -/
theorem bitseqBytes_of_length_le {g : Nat} (hg : 1 ≤ g) (t : Track) {p : List Bit} (hne : p ≠ []) (hp : p.length ≤ g) :
    bitseqBytes g t p = flushBytes t p.length (bitsValMsb p) := by
  rw [bitseqBytes_of_ne_nil hg t hne, List.take_of_length_le hp, List.drop_of_length_le hp, bitseqBytes_nil,
    List.append_nil]

/-- A group cut off is one group less. -/
theorem groupCount_eq_succ {g n : Nat} (hg : 1 ≤ g) (hn : 0 < n) : (n + g - 1) / g = (n - g + g - 1) / g + 1 := by
  rw [← Nat.add_div_right _ hg]
  rcases Nat.le_total g n with h | h
  · rw [Nat.sub_add_cancel h, show n - 1 + g = n + g - 1 by omega]
  · rw [Nat.div_eq_of_lt_le (k := 1) (by omega) (by omega), Nat.div_eq_of_lt_le (k := 1) (by omega) (by omega)]

/-- Two bytes for each group (R117). -/
theorem bitseqBytes_length {g : Nat} (hg : 1 ≤ g) (t : Track) (s : List Bit) :
    (bitseqBytes g t s).length = 2 * ((s.length + g - 1) / g) := by
  by_cases hs : s = []
  · subst hs
    rw [bitseqBytes_nil, List.length_nil, List.length_nil, Nat.zero_add, Nat.div_eq_of_lt (by omega)]
  · have hpos : 0 < s.length := List.length_pos_iff.2 hs
    have hrest := bitseqBytes_length hg t (s.drop g)
    rw [List.length_drop] at hrest
    rw [bitseqBytes_of_ne_nil hg t hs, List.length_append, hrest, groupCount_eq_succ hg hpos]
    simp only [flushBytes, List.length_cons, List.length_nil]
    omega
termination_by s.length
decreasing_by rw [List.length_drop]; omega

theorem swipeBytes_length {g : Nat} (hg : 1 ≤ g) (t : Track) (s : List Bit) :
    (swipeBytes g t s).length = 2 + 2 * ((s.length + g - 1) / g) := by
  rw [swipeBytes, List.length_cons, List.length_append, bitseqBytes_length hg, List.length_singleton]
  omega

end Sys2Proof

namespace Sys2Proof.Machine

/-! ## The channel in the middle of a swipe (R21, R22, R132) -/

/-- The channel mid-swipe with the bits `p` of a group that is not full yet. -/
def midGroup (p : List Bit) : Channel := { accVal := BitVec.ofNat 4 (bitsValMsb p), accCnt := p.length, cpSel := .rising }

theorem midGroup_inv {g : Nat} {p : List Bit} (hp : p.length < g) : ChanInv g (midGroup p) where
  count := hp
  value := (Nat.mod_le _ _).trans_lt (bitsValMsb_lt p)

/-- One bit more in the group (R132). -/
theorem accShift_midGroup {g : Nat} {p : List Bit} (hp : p.length < g) (hg : g ≤ 4) (b : Bit) :
    accShift g (midGroup p).accVal b = BitVec.ofNat 4 (bitsValMsb (p ++ [b])) := by
  have hlt : bitsValMsb p < 2 ^ 4 := (bitsValMsb_lt p).trans_le (Nat.pow_le_pow_right (by decide) (by omega))
  have hval : (midGroup p).accVal.toNat = bitsValMsb p := by
    rw [midGroup, BitVec.toNat_ofNat, Nat.mod_eq_of_lt hlt]
  rw [bitsValMsb_concat, ← hval, ← (midGroup_inv hp).accShift_toNat hg, BitVec.ofNat_toNat, BitVec.setWidth_eq]

/-- The bytes of `onStop` are the group that is left and STOP (R152). -/
theorem stopBytes_midGroup {g : Nat} (hg : 1 ≤ g) (t : Track) {p : List Bit} (hp : p.length < g) :
    stopBytes t (midGroup p) = bitseqBytes g t p ++ [mkStop t] := by
  by_cases hne : p = []
  · subst hne
    rfl
  · rw [bitseqBytes_of_length_le hg t hne hp.le, stopBytes, if_neg (by simpa [midGroup] using hne)]
    rfl

/-! ## The state after a swipe -/

/-- The bytes `vs` are offered to queue `t`, channel `t` is as right after reset, and the request latches are `i`. -/
def afterSwipe (t : Track) (vs : List Byte) (i : IrqPend) (s : State) : State :=
  ((enqueueAll t vs s).setChan t { accVal := 0#4, accCnt := 0, cpSel := .falling }).setIrq i

/-- An enqueue does not look at the request latches. -/
theorem enqueue_setIrq (t : Track) (v : Byte) (i : IrqPend) (s : State) :
    enqueue t v (s.setIrq i) = (enqueue t v s).setIrq i := by
  by_cases h : (s.queue.get t).full s.cfg.qcap = true
  · simp [enqueue, h, raise]
  · simp [enqueue, h, wrAdvance, qWrite, State.setQueue, State.setIrq]

theorem enqueueAll_setIrq (t : Track) (vs : List Byte) (i : IrqPend) (s : State) :
    enqueueAll t vs (s.setIrq i) = (enqueueAll t vs s).setIrq i := by
  induction vs generalizing s with
  | nil => rfl
  | cons v vs ih => exact (congrArg (enqueueAll t vs) (enqueue_setIrq t v i s)).trans (ih _)

theorem enqueueAll_append (t : Track) (us vs : List Byte) (s : State) :
    enqueueAll t (us ++ vs) s = enqueueAll t vs (enqueueAll t us s) := List.foldl_append

@[simp] theorem enqueueAll_cfg (t : Track) (vs : List Byte) (s : State) : (enqueueAll t vs s).cfg = s.cfg := by
  obtain ⟨q, hq, -⟩ := enqueueAll_eq_setQueue t vs s
  rw [hq, State.setQueue_cfg]

theorem afterSwipe_setChan (t : Track) (vs : List Byte) (i : IrqPend) (c : Channel) (s : State) :
    afterSwipe t vs i (s.setChan t c) = afterSwipe t vs i s := by
  rw [afterSwipe, enqueueAll_setChan]
  simp [afterSwipe, State.setChan]

theorem afterSwipe_setIrq (t : Track) (vs : List Byte) (i j : IrqPend) (s : State) :
    afterSwipe t vs i (s.setIrq j) = afterSwipe t vs i s := by
  rw [afterSwipe, enqueueAll_setIrq]
  rfl

theorem afterSwipe_takeInterrupt (t : Track) (vs : List Byte) (i : IrqPend) (src : IrqSource) (s : State) :
    afterSwipe t vs i (takeInterrupt src s) = afterSwipe t vs i s := afterSwipe_setIrq t vs i _ s

theorem afterSwipe_enqueueAll (t : Track) (us vs : List Byte) (i : IrqPend) (s : State) :
    afterSwipe t vs i (enqueueAll t us s) = afterSwipe t (us ++ vs) i s := by
  rw [afterSwipe, ← enqueueAll_append, afterSwipe]

/-- What the queue holds after a swipe with room for its bytes (R67, R69). -/
theorem State.QueueHolds.unread_afterSwipe {s : State} {t : Track} {l vs : List Byte} (h : s.QueueHolds t l)
    (hroom : l.length + vs.length ≤ s.cfg.qcap) (i : IrqPend) : Machine.unread t (afterSwipe t vs i s) = some (l ++ vs) := by
  have hall : Machine.unread t (enqueueAll t vs s) = _ := (h.foldl_enqueue vs).unread
  rw [List.take_of_length_le (by omega)] at hall
  exact hall

/-! ## The handlers of one swipe -/

/-- A bit that does not fill the group joins it (R132). -/
theorem sample_midGroup_of_lt {t : Track} {p : List Bit} {s : State} (hg : s.cfg.g ≤ 4) (hc : s.chan.get t = midGroup p)
    (b : Bit) (hp : p.length + 1 < s.cfg.g) : sample t b s = s.setChan t (midGroup (p ++ [b])) := by
  rw [sample_of_room (by rw [hc]; exact hp.ne), hc, accShift_midGroup (by omega) hg]
  simp only [midGroup, List.length_append, List.length_singleton]

/-- The bit that fills the group flushes it (R132). -/
theorem sample_midGroup_of_eq {t : Track} {p : List Bit} {s : State} (hg : s.cfg.g ≤ 4) (hc : s.chan.get t = midGroup p)
    (b : Bit) (hp : p.length + 1 = s.cfg.g) :
    sample t b s = (enqueueAll t (flushBytes t s.cfg.g (bitsValMsb (p ++ [b]))) s).setChan t (midGroup []) := by
  rw [sample_of_full (by rw [hc]; exact hp), hc, accShift_midGroup (by omega) hg]
  rfl

/-- The removal of the card ends the swipe (R138, R152). -/
theorem serve_cpEdge_midGroup {t : Track} {p : List Bit} {s : State} (hg : 1 ≤ s.cfg.g) (hc : s.chan.get t = midGroup p)
    (hp : p.length < s.cfg.g) :
    serve (.cpEdge t) s =
      .next (afterSwipe t (bitseqBytes s.cfg.g t p ++ [mkStop t]) (takeInterrupt (.cp t) s).irq s) := by
  have hc' : (takeInterrupt (.cp t) s).chan.get t = midGroup p := hc
  rw [serve_cpEdge, cardPresent_of_rising (by rw [hc']; rfl), hc', stopBytes_midGroup hg t hp, takeInterrupt,
    enqueueAll_setIrq]
  rfl

/-- The rest of a swipe whose channel holds the bits `p` of a group: the bytes of all bits that are not flushed yet are
offered to the queue, whether they fit or not. -/
theorem serveAll_rest_of_swipe (t : Track) (bits p : List Bit) (s : State) (hg : 1 ≤ s.cfg.g) (hg4 : s.cfg.g ≤ 4)
    (hc : s.chan.get t = midGroup p) (hp : p.length < s.cfg.g) :
    ∃ i, serveAll (bits.map (fun b => Event.clkEdge t (!b)) ++ [.cpEdge t]) s =
      .next (afterSwipe t (bitseqBytes s.cfg.g t (p ++ bits) ++ [mkStop t]) i s) := by
  induction bits generalizing p s with
  | nil =>
    refine ⟨(takeInterrupt (.cp t) s).irq, ?_⟩
    rw [List.append_nil, List.map_nil, List.nil_append, serveAll, serve_cpEdge_midGroup hg hc hp]
    rfl
  | cons b bits ih =>
    rw [List.map_cons, List.cons_append, serveAll, serve_clkEdge, Bool.not_not, andThen]
    rcases Nat.lt_or_eq_of_le hp with hlt | hfull
    · rw [sample_midGroup_of_lt (s := takeInterrupt (.clk t) s) hg4 hc b hlt]
      refine (ih (p ++ [b]) _ (by simpa using hg) (by simpa using hg4) (PerTrack.get_set_same _ _ _)
        (by simpa using hlt)).imp fun i hi => hi.trans ?_
      rw [afterSwipe_setChan, afterSwipe_takeInterrupt, List.append_assoc]
      rfl
    · rw [sample_midGroup_of_eq (s := takeInterrupt (.clk t) s) hg4 hc b hfull]
      refine (ih [] _ (by simpa using hg) (by simpa using hg4) (PerTrack.get_set_same _ _ _)
        (by simpa using Nat.zero_lt_of_lt hg)).imp fun i hi => hi.trans ?_
      rw [afterSwipe_setChan, afterSwipe_enqueueAll, afterSwipe_takeInterrupt, List.append_cons p b bits,
        bitseqBytes_append hg t (by simpa using hfull), List.append_assoc]
      simp

/-- A whole swipe offers `SWIPE t, s` to the queue, whether it fits or not. -/
theorem serveAll_swipe (t : Track) (bits : List Bit) (s : State) (hg : 1 ≤ s.cfg.g) (hg4 : s.cfg.g ≤ 4)
    (hsel : (s.chan.get t).cpSel = .falling) :
    ∃ i, serveAll (.cpEdge t :: (bits.map (fun b => Event.clkEdge t (!b)) ++ [.cpEdge t])) s =
      .next (afterSwipe t (swipeBytes s.cfg.g t bits) i s) := by
  have hstart : serve (.cpEdge t) s =
      .next ((enqueueAll t [mkStart t] (takeInterrupt (.cp t) s)).setChan t (midGroup [])) := by
    rw [serve_cpEdge, cardPresent_of_falling (s := takeInterrupt (.cp t) s) hsel]
    rfl
  rw [serveAll, hstart, andThen]
  refine (serveAll_rest_of_swipe t bits [] _ (by simpa using hg) (by simpa using hg4) (PerTrack.get_set_same _ _ _)
    (by simpa using Nat.zero_lt_of_lt hg)).imp fun i hi => hi.trans ?_
  rw [afterSwipe_setChan, afterSwipe_enqueueAll, afterSwipe_takeInterrupt]
  simp [swipeBytes]

/-- Settles O46: the bytes that the swipe offers are as many as the room that is left. -/
theorem swipeEnqueuesItsBytes : Obligations.SwipeEnqueuesItsBytes := by
  intro s t bits l hwf hq hsel hl hroom
  obtain ⟨hg, hg4, -⟩ := Params.wf_iff.1 hwf
  have hlen := swipeBytes_length hg t bits
  have hholds : s.QueueHolds t l := ⟨hq.wrRange, hq.rdRange, hq.notOver, hl⟩
  obtain ⟨i, hi⟩ := serveAll_swipe t bits s hg hg4 hsel
  obtain ⟨q, he, -⟩ := enqueueAll_eq_setQueue t (swipeBytes s.cfg.g t bits) s
  refine ⟨hlen, _, hi, hholds.unread_afterSwipe (by rw [hlen]; exact hroom) i, ?_⟩
  simp [afterSwipe, he]

end Sys2Proof.Machine

/-! SUPPORT. Proofs of the family 43_link_transmitter: the turns of the main loop, the ten periods of a frame, and the
bytes on their way from a queue to the host. -/

namespace Sys2Proof.Machine

/-! ## FRAME and the timer's events (R172 to R179) -/

theorem exec_frame_of_idle {s : State} (b : Byte) (h : s.tx.state = .idle) : exec (.frame b) s = .next (send b s) := if_pos h

/-- Settles O32: FRAME is `send` under the guard IDLE. -/
theorem frameStartsInIdleOnly : Obligations.FrameStartsInIdleOnly := by
  intro s b
  exact ⟨exec_frame_of_idle b, fun h => if_neg h⟩

theorem serve_tick_of_armed {s : State} (h : s.tx.armed = true) : serve .tick s = .next (tick (takeInterrupt .tmr s)) :=
  congrArg Host.Outcome.next (if_pos h)

/-- Settles O35: both events are guarded by `timer_armed`. -/
theorem noTickWhileTheTimerIsUnarmed : Obligations.NoTickWhileTheTimerIsUnarmed := by
  intro s h
  have hunarmed : ¬ s.tx.armed = true := by simp [h]
  exact ⟨congrArg Host.Outcome.next (if_neg hunarmed), congrArg Host.Outcome.next (if_neg hunarmed)⟩

/-- The transitions that put a data bit on the line (R173, R174). -/
theorem tick_of_dataBit {s : State} {p : TxState × TxState}
    (hp : p ∈ [(TxState.start, TxState.d0), (.d0, .d1), (.d1, .d2), (.d2, .d3), (.d3, .d4), (.d4, .d5), (.d5, .d6), (.d6, .d7)])
    (h : s.tx.state = p.1) : tick s = s.setTx (shiftOut p.2 s.tx) := by
  simp only [List.mem_cons, List.not_mem_nil, or_false] at hp
  rcases hp with rfl | rfl | rfl | rfl | rfl | rfl | rfl | rfl <;> simp only [tick, h]

theorem tick_of_d7 {s : State} (h : s.tx.state = .d7) : tick s = s.setTx (stopBit s.tx) := by simp only [tick, h]

theorem tick_of_stop {s : State} (h : s.tx.state = .stop) :
    tick s = (s.setTx (frameEnd s.tx)).setLink (s.link ++ [s.tx.byte]) := by simp only [tick, h]

/-- Settles O33: entry clears the latch, then the transition of the state is taken. -/
theorem tickTakesTheTransitionOfItsState : Obligations.TickTakesTheTransitionOfItsState := by
  intro s harmed
  rw [serve_tick_of_armed harmed]
  refine ⟨fun p hp h => ?_, fun h => ?_, fun h => ?_⟩
  · rw [tick_of_dataBit (s := takeInterrupt .tmr s) hp h]; rfl
  · rw [tick_of_d7 (s := takeInterrupt .tmr s) h]; rfl
  · rw [tick_of_stop (s := takeInterrupt .tmr s) h]; rfl

/-! ## The ten periods of a frame (R178) -/

/-- The frame of `b` is in its period `k`. The invariant of the transmitter, with the main loop waiting as in R182, gives
the line, the shift register and the flags. -/
structure Tx.InPeriod (b : Byte) (k : Nat) (x : Tx) : Prop where
  busy : x.state ≠ .idle
  period : x.state.period = k
  byte : x.byte = b
  inv : TxInv x { track := .t2, wait := true }

theorem send_inPeriod (b : Byte) (s : State) : (send b s).tx.InPeriod b 0 where
  busy := nofun
  period := rfl
  byte := rfl
  inv := TxInv.send b ⟨.t2, false⟩ s

theorem Tx.InPeriod.line {b : Byte} {k : Nat} {x : Tx} (h : x.InPeriod b k) : (frameBits b)[k]? = some x.line := by
  rw [← h.byte, ← h.period]
  exact h.inv.lineBusy h.busy

theorem TxState.eq_stop_of_period {n : TxState} (h : n.period = 9) : n = .stop := by revert h; cases n <;> decide

theorem Tx.InPeriod.stop {b : Byte} {x : Tx} (h : x.InPeriod b 9) : x.state = .stop := TxState.eq_stop_of_period h.period

/-- A Tick before the stop bit's ends one period and begins the next. -/
theorem Tx.InPeriod.serve_tick {b : Byte} {k : Nat} {s : State} (h : s.tx.InPeriod b k) (hk : k < 9) :
    ∃ x : Tx, serve .tick s = .next ((s.setTx x).setIrq (s.irq.set .tmr false)) ∧ x.InPeriod b (k + 1) := by
  rw [serve_tick_of_armed (h.inv.armed.2 h.busy)]
  rcases tick_cases (takeInterrupt .tmr s) with ⟨hi, -⟩ | ⟨n, hx, hn, hp, hnp, he⟩ | ⟨hx, he⟩ | ⟨hx, -⟩
  · exact absurd hi h.busy
  · exact ⟨shiftOut n s.tx, by rw [he]; rfl, hn, by rw [← h.period]; exact hnp, h.byte, h.inv.shiftOut hx hn hp hnp⟩
  · exact ⟨stopBit s.tx, by rw [he]; rfl, nofun, by rw [← h.period, show s.tx.state = .d7 from hx]; rfl, h.byte,
      h.inv.stopBit hx⟩
  · have hstop : s.tx.state.period = 9 := congrArg TxState.period hx
    have := h.period
    omega

theorem serveAll_append (es fs : List Event) (s : State) :
    serveAll (es ++ fs) s = andThen (serveAll es s) (serveAll fs) := by
  induction es generalizing s with
  | nil => rfl
  | cons e es ih =>
    rw [List.cons_append, serveAll, serveAll]
    cases serve e s with
    | next s' => exact ih s'
    | fault r => rfl
    | refused r => rfl

theorem serveAll_replicate_succ {e : Event} {n : Nat} {s s' : State} (h : serveAll (List.replicate n e) s = .next s') :
    serveAll (List.replicate (n + 1) e) s = serve e s' := by
  rw [List.replicate_succ', serveAll_append, h]
  simp only [andThen, serveAll]
  cases serve e s' <;> rfl

/-- `k` Ticks after `send` the frame is in its period `k`, and only the transmitter and the timer's latch have changed. -/
theorem serveAll_ticks_after_send (b : Byte) (s : State) {k : Nat} (hk : k < 10) :
    ∃ (x : Tx) (i : IrqPend), serveAll (List.replicate k .tick) (send b s) = .next ((s.setTx x).setIrq i) ∧
      x.InPeriod b k ∧ i.set .tmr false = s.irq.set .tmr false := by
  induction k with
  | zero => exact ⟨_, s.irq, rfl, send_inPeriod b s, rfl⟩
  | succ k ih =>
    obtain ⟨x, i, hs, hx, hi⟩ := ih (by omega)
    obtain ⟨x', hs', hx'⟩ := Tx.InPeriod.serve_tick (s := (s.setTx x).setIrq i) hx (by omega)
    exact ⟨x', i.set .tmr false, (serveAll_replicate_succ hs).trans hs', hx', hi⟩

/-- The stop bit's period leaves the line high, and the shift register is empty (R176). -/
theorem Tx.InPeriod.frameEnd {b : Byte} {x : Tx} (h : x.InPeriod b 9) :
    frameEnd x = { state := .idle, shift := 0#8, line := true, done := true, armed := false, byte := b } := by
  have hline : x.line = true := (h.inv.frameEnd h.stop).lineIdle rfl
  have hshift : x.shift = 0#8 := by
    rw [h.inv.shift h.busy, h.period]
    exact BitVec.ushiftRight_eq_zero (Nat.le_refl 8)
  simp only [Machine.frameEnd, hline, hshift, h.byte]

/-- Settles O34: the frame is in period `k` after `k` Ticks, and the tenth Tick ends the stop bit's. -/
theorem tenTicksSendTheFrame : Obligations.TenTicksSendTheFrame := by
  intro s b hidle
  refine ⟨send b s, exec_frame_of_idle b hidle, fun k hk => ?_, ?_⟩
  · obtain ⟨x, i, hs, hx, -⟩ := serveAll_ticks_after_send b s hk
    exact ⟨_, hs, hx.line, hx.busy, rfl⟩
  · obtain ⟨x, i, hs, hx, hi⟩ := serveAll_ticks_after_send b s (k := 9) (by decide)
    have harmed : x.armed = true := hx.inv.armed.2 hx.busy
    rw [serveAll_replicate_succ hs, serve_tick_of_armed harmed,
      tick_of_stop (s := takeInterrupt .tmr ((s.setTx x).setIrq i)) hx.stop]
    simp only [takeInterrupt, State.setIrq_tx, State.setTx_tx, State.setIrq_link, State.setTx_link, State.setIrq_irq, hi,
      hx.frameEnd, hx.byte]
    rfl

/-! ## The turns of the main loop (R182, R183) -/

theorem mainStep_of_empty {s : State} (hw : s.ml.wait = false) (he : (s.queue.get s.ml.track).occ s.cfg.qcap = 0) :
    mainStep s = .next (turnTrack s) := by
  simp [mainStep, mainDequeue, Queue.empty, hw, he]

theorem mainStep_of_nonempty {s : State} {b : Byte} (hw : s.ml.wait = false)
    (hne : (s.queue.get s.ml.track).occ s.cfg.qcap ≠ 0)
    (hb : (s.queue.get s.ml.track).buf.read ((s.queue.get s.ml.track).rd % s.cfg.qcap) = some b) :
    mainStep s = andThen (exec (.frame b) (rdAdvance s.ml.track s)) fun s' => .next (setWait true s') := by
  simp [mainStep, mainDequeue, Queue.empty, hw, hne, dequeue, qRead, slotOf, hb]

theorem mainStep_of_done {s : State} (hw : s.ml.wait = true) (hd : s.tx.done = true) :
    mainStep s = .next (setWait false s) := by
  simp [mainStep, hw, hd]

theorem mainStep_of_sending {s : State} (hw : s.ml.wait = true) (hd : s.tx.done = false) : mainStep s = .next s := by
  simp [mainStep, hw, hd]

/-- Settles O14: the step serves the main loop's turn, which finds a byte in the queue. -/
theorem mainStepRunsTheFrame : Obligations.MainStepRunsTheFrame := by
  intro s b es t q hev hw hne hb
  have hstep : step s = mainStep (s.setEvents es) := by simp only [step, hev, serve]
  rw [hstep, mainStep_of_nonempty (s := s.setEvents es) hw hne hb]
  rfl

/-- Settles O36: one equation of the turn for each of the four. -/
theorem mainLoopTurns : Obligations.MainLoopTurns := by
  intro s t q occ
  refine ⟨fun hw he => ?_, fun b hw hne hb hi => ?_, fun hw hd => ?_, mainStep_of_sending⟩
  · refine (mainStep_of_empty hw he).trans ?_
    simp only [turnTrack, hw]
    rfl
  · refine (mainStep_of_nonempty hw (Nat.pos_iff_ne_zero.1 hne) hb).trans ?_
    rw [exec_frame_of_idle b (show (rdAdvance s.ml.track s).tx.state = .idle from hi)]
    rfl
  · exact mainStep_of_done hw hd

/-! ## The bytes on their way (R185) -/

/-- The byte on the line: the frame's, from `send` to the end of the stop bit (R172, R176). -/
def Tx.onLine (x : Tx) : List Byte := if x.state = .idle then [] else [x.byte]

theorem Tx.onLine_of_idle {x : Tx} (h : x.state = .idle) : x.onLine = [] := if_pos h

theorem Tx.onLine_of_busy {x : Tx} (h : x.state ≠ .idle) : x.onLine = [x.byte] := if_neg h

/-- The bytes of track `t` on the link and on the line, oldest first. -/
def sentOf (t : Track) (s : State) : List Byte := (s.link ++ s.tx.onLine).filter fun b => decide (byteTrack b = t)

theorem pipeline_eq_map (t : Track) (s : State) : pipeline t s = (unread t s).map (sentOf t s ++ ·) := by
  simp only [pipeline, sentOf, Tx.onLine, List.filter_append]

theorem pipeline_of_unread {t : Track} {s : State} {l : List Byte} (h : unread t s = some l) :
    pipeline t s = some (sentOf t s ++ l) := by
  rw [pipeline_eq_map, h, Option.map_some]

/-- Only the queues, `QCAP`, the link and the byte on the line count. -/
theorem pipeline_congr {s s' : State} (hq : s'.queue = s.queue) (hc : s'.cfg = s.cfg)
    (hl : s'.link ++ s'.tx.onLine = s.link ++ s.tx.onLine) (t : Track) : pipeline t s' = pipeline t s := by
  simp only [pipeline_eq_map, unread, sentOf, hq, hc, hl]

/-! ### The timer and the main loop -/

/-- A Tick that ends the frame moves its byte from the line to the link (R176), and no other moves a byte. -/
theorem tick_sends (s : State) : (tick s).link ++ (tick s).tx.onLine = s.link ++ s.tx.onLine := by
  rcases tick_cases s with ⟨-, he⟩ | ⟨n, hx, hn, -, -, he⟩ | ⟨hx, he⟩ | ⟨hx, he⟩ <;> rw [he]
  · rw [Tx.onLine_of_busy hx]
    exact congrArg (s.link ++ ·) (Tx.onLine_of_busy (x := shiftOut n s.tx) hn)
  · rw [Tx.onLine_of_busy (x := s.tx) (by simp [hx])]
    rfl
  · rw [Tx.onLine_of_busy (x := s.tx) (by simp [hx])]
    exact List.append_nil _

theorem tick_queue (s : State) : (tick s).queue = s.queue := by
  rcases tick_cases s with ⟨-, he⟩ | ⟨n, -, -, -, -, he⟩ | ⟨-, he⟩ | ⟨-, he⟩ <;> rw [he] <;> rfl

theorem serveTick_pipeline (t : Track) (s : State) : pipeline t (serveTick s) = pipeline t s := by
  unfold serveTick
  split
  · have hcfg : (tick (takeInterrupt .tmr s)).cfg = s.cfg := congrArg HostSide.cfg (tick_captureFrame _).hostSide
    exact pipeline_congr (tick_queue _) hcfg (tick_sends _) t
  · rfl

/-- The byte taken off a queue is the oldest of its unread ones (R68). -/
theorem QueueInv.unread_rdAdvance {t : Track} {s : State} {b : Byte} (h : QueueInv t s.cfg.qcap (s.queue.get t))
    (hne : (s.queue.get t).occ s.cfg.qcap ≠ 0)
    (hb : (s.queue.get t).buf.read ((s.queue.get t).rd % s.cfg.qcap) = some b) :
    ∃ l, unread t s = some (b :: l) ∧ unread t (Machine.rdAdvance t s) = some l := by
  have hdeq : dequeue t s = some (b, Machine.rdAdvance t s) := by simp [dequeue, qRead, slotOf, hb]
  obtain ⟨m, hm⟩ := h.exists_unread
  cases m with
  | nil => exact absurd (unread_length hm).symm hne
  | cons v l =>
    have hcap : 1 ≤ s.cfg.qcap := by have := h.wrRange; omega
    obtain ⟨s1, hs1, hl, -⟩ := dequeueReturnsTheOldest s t v l hcap h.wrRange h.rdRange hm
    rw [hdeq, Option.some.injEq, Prod.mk.injEq] at hs1
    obtain ⟨rfl, rfl⟩ := hs1
    exact ⟨l, hm, hl⟩

/-- Another track's queue does not count. -/
theorem unread_setQueue_ne {t u : Track} (h : t ≠ u) (q : Queue) (s : State) : unread t (s.setQueue u q) = unread t s := by
  simp only [unread, State.setQueue_queue, State.setQueue_cfg, PerTrack.get_set_ne _ h]

/-- DEQUEUE moves the oldest byte of the queue in turn to the line (R182). -/
theorem dequeue_send_pipeline {u : Track} {s : State} {b : Byte} (h : QueueInv u s.cfg.qcap (s.queue.get u))
    (hi : s.tx.state = .idle) (hne : (s.queue.get u).occ s.cfg.qcap ≠ 0)
    (hb : (s.queue.get u).buf.read ((s.queue.get u).rd % s.cfg.qcap) = some b) (t : Track) :
    pipeline t (send b (rdAdvance u s)) = pipeline t s := by
  have hbu : byteTrack b = u := h.tagged (_, b) (Memory.mem_of_read hb)
  have hsent : sentOf t s = s.link.filter fun b => decide (byteTrack b = t) := by
    rw [sentOf, Tx.onLine_of_idle hi, List.append_nil]
  have hsent' : sentOf t (send b (rdAdvance u s)) = sentOf t s ++ [b].filter fun b => decide (byteTrack b = t) := by
    rw [hsent, ← List.filter_append]
    rfl
  by_cases ht : t = u
  · subst ht
    obtain ⟨l, hl, hl'⟩ := h.unread_rdAdvance hne hb
    rw [pipeline_of_unread hl, pipeline_of_unread (s := send b (rdAdvance t s)) hl', hsent',
      List.filter_singleton, hbu]
    simp
  · have hl : unread t (send b (rdAdvance u s)) = unread t s := unread_setQueue_ne ht _ s
    have hbt : byteTrack b ≠ t := by rw [hbu]; exact Ne.symm ht
    rw [pipeline_eq_map, pipeline_eq_map, hl, hsent']
    simp [hbt]

theorem mainStep_pipeline {s s' : State} (h : s.Inv) (hs : mainStep s = .next s') (t : Track) :
    pipeline t s' = pipeline t s := by
  rcases mainStep_cases hs with ⟨-, -, rfl⟩ | ⟨-, -, rfl⟩ | ⟨-, -, rfl⟩ | ⟨-, hne, hi, b, hb, rfl⟩
  · rfl
  · rfl
  · rfl
  · exact dequeue_send_pipeline (h.queue _) hi hne hb t

/-! ### The handlers -/

/-- The clock handler only offers bytes to the queue of its track and writes the channel (R132). -/
theorem sample_eq_enqueueAll (t : Track) (b : Bit) (s : State) :
    ∃ vs c, sample t b s = (enqueueAll t vs s).setChan t c := by
  by_cases h : (s.chan.get t).accCnt + 1 = s.cfg.g
  · exact ⟨_, _, sample_of_full h⟩
  · exact ⟨[], _, sample_of_room h⟩

/-- The card-present handler only offers bytes to the queue of its track and writes the channel (R137, R138). -/
theorem cardPresent_eq_enqueueAll (t : Track) (s : State) :
    ∃ vs c, cardPresent t s = (enqueueAll t vs s).setChan t c := by
  cases h : (s.chan.get t).cpSel with
  | falling => exact ⟨_, _, cardPresent_of_falling h⟩
  | rising => exact ⟨_, _, cardPresent_of_rising h⟩

/-- Bytes offered to a queue follow those on their way, as far as they fit (R67). -/
theorem enqueueAll_pipeline {s : State} (h : s.Inv) (t u : Track) (us : List Byte) :
    ∃ p vs, pipeline t s = some p ∧ pipeline t (enqueueAll u us s) = some (p ++ vs) := by
  obtain ⟨l, hl⟩ := (h.queue t).exists_unread
  obtain ⟨q, hq, -⟩ := enqueueAll_eq_setQueue u us s
  have hsent : sentOf t (enqueueAll u us s) = sentOf t s := by rw [hq]; rfl
  have hunread : ∃ vs, unread t (enqueueAll u us s) = some (l ++ vs) := by
    by_cases ht : t = u
    · subst ht
      have hholds : s.QueueHolds t l := ⟨(h.queue t).wrRange, (h.queue t).rdRange, (h.queue t).notOver, hl⟩
      exact ⟨_, (hholds.foldl_enqueue us).unread⟩
    · exact ⟨[], by rw [hq, unread_setQueue_ne ht, hl, List.append_nil]⟩
  obtain ⟨vs, hvs⟩ := hunread
  exact ⟨_, vs, pipeline_of_unread hl, by rw [pipeline_of_unread hvs, hsent, List.append_assoc]⟩

/-! ### The host -/

/-- No instruction writes the link: FRAME's byte reaches it ten Ticks later (R176). -/
theorem exec_link {i : Instr} {s s' : State} (h : exec i s = .next s') : s'.link = s.link := by
  rcases exec_cases h with ⟨b, -, -, rfl⟩ | ⟨t, -, ht, l, rfl, -⟩ | ⟨d, d', -, rfl, -⟩ <;> rfl

/-- A host that runs takes the head of a link that is not empty (R201). -/
theorem hostStep_of_link_cons {s s' : State} {b : Byte} {l : List Byte} (hd : s.dec = none) (hstop : s.hostStopped = false)
    (hsrc : s.cfg.rxSource = .link) (hl : s.link = b :: l) (h : hostStep s = .next s') : s'.link = l := by
  have hinput : hostInput s = some (b, s.setLink l) := by simp only [hostInput, hsrc, hl]
  simp only [hostStep, hstop, Bool.false_eq_true, if_false, hd, hinput] at h
  exact exec_link h

/-- The host takes the head of the link, which is the oldest byte of its track (R201). -/
theorem hostStep_pipeline {s s' : State} {b : Byte} {l : List Byte} (h : s.Inv) (hstop : s.hostStopped = false)
    (hsrc : s.cfg.rxSource = .link) (hl : s.link = b :: l) (hs : hostStep s = .next s') (t : Track) :
    ∃ p, pipeline t s' = some p ∧ pipeline t s = some (if byteTrack b = t then b :: p else p) := by
  obtain ⟨m, hm⟩ := (h.queue t).exists_unread
  have hframe : s'.captureSide = s.captureSide := (hostStep_hostFrame hs).captureSide
  have htx : s'.tx = s.tx := congrArg CaptureSide.tx hframe
  have hm' : unread t s' = some m := by
    rw [unread, show s'.queue = s.queue from congrArg CaptureSide.queue hframe,
      show s'.cfg = s.cfg from congrArg CaptureSide.cfg hframe]
    exact hm
  have hlink : s'.link = l := hostStep_of_link_cons h.dec hstop hsrc hl hs
  have hsent : sentOf t s = if byteTrack b = t then b :: sentOf t s' else sentOf t s' := by
    simp only [sentOf, hl, hlink, htx, List.cons_append, List.filter_cons, decide_eq_true_eq]
  refine ⟨_, pipeline_of_unread hm', ?_⟩
  rw [pipeline_of_unread hm, hsent]
  split <;> rfl

/-- Settles O54: each of the five events, by what it does to the link, the line and the queues. -/
theorem bytesKeepTheirOrderPerTrack : Obligations.BytesKeepTheirOrderPerTrack := by
  intro s s' t h
  refine ⟨?_, ?_, fun b l hstop hsrc hl hs => hostStep_pipeline h hstop hsrc hl hs t⟩
  · rintro e (rfl | rfl) hs
    · exact mainStep_pipeline h hs t
    · cases hs
      exact serveTick_pipeline t s
  · have hinv (src : IrqSource) : (takeInterrupt src s).Inv := h.of_parts rfl
    rintro u d (hs | hs) <;> cases hs
    · obtain ⟨us, c, he⟩ := sample_eq_enqueueAll u (!d) (takeInterrupt (.clk u) s)
      obtain ⟨p, vs, hp, hp'⟩ := enqueueAll_pipeline (hinv _) t u us
      exact ⟨p, vs, hp, (congrArg (pipeline t) he).trans hp'⟩
    · obtain ⟨us, c, he⟩ := cardPresent_eq_enqueueAll u (takeInterrupt (.cp u) s)
      obtain ⟨p, vs, hp, hp'⟩ := enqueueAll_pipeline (hinv _) t u us
      exact ⟨p, vs, hp, (congrArg (pipeline t) he).trans hp'⟩

end Sys2Proof.Machine

/-! SUPPORT. Proofs of the family 44_packet_reassembler: the four protocol bytes, the attempt that STOP decides in one
step against the walk that takes it turn by turn, and a byte stream as the two streams of its tracks. -/

namespace Sys2Proof

theorem fmtWidth_pos (f : Track) : 0 < fmtWidth f := by cases f <;> decide

theorem decodeSearch_eq (f : Track) (g : Group) :
    decodeSearch f g =
      if g = fmtSent f then .ok (match f with | .t2 => .sent2 | .t1 => .sent1) else .error .notSentinel := by
  cases f <;> rfl

end Sys2Proof

namespace Sys2Proof.Machine

/-! ## The four protocol bytes (R203 to R208) -/

theorem exec_start (t : Track) (s : State) :
    exec (.start t) s =
      .next (s.setHost t { tb := (s.host.get t).tb, rawLen := 0, pend := none, ovf := false }) := by
  simp [exec, execStart, setPend, tbClear, State.setHost]

theorem exec_size_of_none {t : Track} {s : State} (h : (s.host.get t).pend = none) (k : Nibble) :
    exec (.size t k) s = .next (setPend t (some k) s) := by
  simp only [exec, execSize, h]

theorem exec_bits_of_some {t : Track} {k : Nibble} {s : State} (h : (s.host.get t).pend = some k) (v : Nibble) :
    exec (.bits t v) s = .next (setPend t none (appendBits t (fieldBits v k.toNat) s)) := by
  simp only [exec, execBits, h]

theorem exec_stop_of_disabled {t : Track} {s : State} (h : s.cfg.outEn.get t = false) : exec (.stop t) s = .next s := by
  simp [exec, execStop, h]

/-- The event by which STOP reports a sequence (R204, R233, R234). -/
def reportEvent (m : OutMode) (t : Track) (seq : List Bit) : OutEvent :=
  match m with
  | .interpret =>
    match decodeTrack seq t with
    | .ok chars => .line t chars
    | .error _ => .unreadable t
  | .binary => .line t (binaryText seq)

theorem report_eq (t : Track) (seq : List Bit) (s : State) :
    report t seq s = emit (reportEvent s.cfg.outMode t seq) s := by
  unfold report reportEvent
  cases s.cfg.outMode with
  | binary => rfl
  | interpret => cases decodeTrack seq t <;> rfl

theorem reportEvent_of_ok {t : Track} {seq : List Bit} {chars : List Byte} (h : decodeTrack seq t = .ok chars) :
    reportEvent .interpret t seq = .line t chars := by
  simp only [reportEvent, h]

theorem reportEvent_of_error {t : Track} {seq : List Bit} {c : Cause × Cause} (h : decodeTrack seq t = .error c) :
    reportEvent .interpret t seq = .unreadable t := by
  simp only [reportEvent, h]

theorem reportEvent_track (m : OutMode) (t : Track) (seq : List Bit) : (reportEvent m t seq).track = t := by
  unfold reportEvent
  cases m with
  | binary => rfl
  | interpret => cases decodeTrack seq t <;> rfl

theorem exec_stop_of_enabled {t : Track} {l : List Bit} {s : State} (ho : s.cfg.outEn.get t = true)
    (hl : rawSeq t s = some l) : exec (.stop t) s = .next (emit (reportEvent s.cfg.outMode t l) s) := by
  simp only [exec, execStop, ho, if_true, hl, report_eq]

/-- Settles O16: TBClear and the write of `pend` are one write of the track. -/
theorem startEmptiesTheTrack : Obligations.StartEmptiesTheTrack := by
  intro s t
  exact exec_start t s

/-- Settles O17: SIZE is the write of `pend`. -/
theorem sizeStoresTheCount : Obligations.SizeStoresTheCount := by
  intro s t k h
  exact exec_size_of_none h k

/-- Settles O21: STOP of an enabled track emits the event of its mode. -/
theorem stopReportsTheSequence : Obligations.StopReportsTheSequence := by
  intro s t
  refine ⟨exec_stop_of_disabled, fun l chars ho hm hl hd => ?_, fun l c ho hm hl hd => ?_, fun l ho hm hl => ?_⟩ <;>
    rw [exec_stop_of_enabled ho hl, hm]
  · rw [reportEvent_of_ok hd, emit]
  · rw [reportEvent_of_error hd, emit]
  · rfl

/-! ### The appends of BITS (R206 to R208) -/

/-- The first bit that does not fit sets `ovf[t]` and is reported, and the others are lost silently (R74, R207, R252). -/
theorem appendBits_of_full {t : Track} {bs : List Bit} {s : State} (hne : bs ≠ []) (ho : (s.host.get t).ovf = false)
    (hfull : (s.host.get t).rawLen = s.cfg.tbcap) :
    appendBits t bs s = emit (.overflowDiag t) (s.setHost t { s.host.get t with ovf := true }) := by
  obtain ⟨b, bs, rfl⟩ := List.exists_cons_of_ne_nil hne
  have hfirst : tbAppend t b s = emit (.overflowDiag t) (s.setHost t { s.host.get t with ovf := true }) := by
    simp [tbAppend, ho, hfull, raise]
  rw [appendBits, hfirst, appendBits_of_ovf]
  simp

/-- Settles O18: the field has room, and clearing `pend` is part of the write of the track. -/
theorem bitsAppendsItsField : Obligations.BitsAppendsItsField := by
  intro s t v k l hp ho hl hroom
  rw [← fieldBits_eq_map]
  obtain ⟨h, he, -, hovf, hlen, hbits, hbytes⟩ :=
    appendBits_of_room t (fieldBits v k.toNat) s l ho hl (by rwa [fieldBits_length])
  rw [fieldBits_length] at hlen hbytes
  refine ⟨{ h with pend := none }, ?_, rfl, hovf, hlen, hbits, hbytes⟩
  rw [exec_bits_of_some hp, he]
  simp [setPend, State.setHost]

/-- Settles O19: the part of the field that fits is appended, and the first bit of the rest overflows. -/
theorem bitsOverflowKeepsWhatFitsAndReportsOnce : Obligations.BitsOverflowKeepsWhatFitsAndReportsOnce := by
  intro s t v k l hp ho hl hlen hover
  rw [← fieldBits_eq_map]
  set room := s.cfg.tbcap - (s.host.get t).rawLen with hr
  have hk : room < (fieldBits v k.toNat).length := by rw [fieldBits_length]; omega
  have hfit : ((fieldBits v k.toNat).take room).length = room := List.length_take_of_le hk.le
  obtain ⟨h, he, -, hovf, hlen', hbits, hbytes⟩ :=
    appendBits_of_room t ((fieldBits v k.toNat).take room) s l ho hl (by omega)
  rw [hfit] at hlen' hbytes
  have hcap : h.rawLen = s.cfg.tbcap := by omega
  refine ⟨{ h with pend := none, ovf := true }, ?_, rfl, rfl, hcap, hbits,
    fun a ha => hbytes a fun i hi => ha i (by omega)⟩
  have hrest : (fieldBits v k.toNat).drop room ≠ [] := by
    rw [Ne, List.drop_eq_nil_iff]
    omega
  rw [exec_bits_of_some hp, ← List.take_append_drop room (fieldBits v k.toNat), appendBits_append, he,
    appendBits_of_full hrest (by simpa using hovf) (by simpa using hcap)]
  simp [setPend, State.setHost, emit]

/-- Settles O20: nothing is appended to a track whose overflow flag is set. -/
theorem bitsAfterOverflowOnlyClearsPend : Obligations.BitsAfterOverflowOnlyClearsPend := by
  intro s t v k hp ho
  rw [exec_bits_of_some hp, appendBits_of_ovf t _ s ho]
  rfl

/-! ## The host's turn (R201, R45) -/

/-- A host that runs takes the first byte of its input, decodes it under `pend` and runs it (R201). -/
theorem hostStep_of_input {s s1 : State} {b : Byte} (hs : s.hostStopped = false) (hd : s.dec = none)
    (hi : hostInput s = some (b, s1)) : hostStep s = exec (decodeWire (pendOf s) b) s1 := by
  simp [hostStep, hs, hd, hi]

/-- Settles O13: the three inputs of the host give their first byte. -/
theorem hostStepRunsTheDecodedByte : Obligations.HostStepRunsTheDecodedByte := by
  intro s b l es i hev hs hd hdec
  rw [decode_wire_byte, Except.ok.injEq] at hdec
  have hstep : step s = hostStep (s.setEvents es) := by simp only [step, hev, serve]
  have hrun (s1 : State) (hi : hostInput (s.setEvents es) = some (b, s1)) : step s = exec i s1 := by
    rw [hstep, ← hdec]
    exact hostStep_of_input (s := s.setEvents es) hs hd hi
  refine ⟨fun hsrc hl => hrun _ ?_, fun hsrc hl => hrun _ ?_, fun hsrc hl hr hb => hrun _ ?_⟩
  · simp [hostInput, hsrc, hl, State.setLink, State.setEvents]
  · simp [hostInput, streamInput, hsrc, hl, State.setRx, State.setEvents]
  · simp [hostInput, streamInput, hsrc, hl, hr, hb, State.setRxTaken, State.setEvents]

/-! ## The decoder's functions at a position (R223 to R230) -/

/-- A window has no more bits than it spans (R222). -/
theorem win_lt (s : List Bit) (p w : Nat) : (win s p w).toNat < 2 ^ w := by
  have hval : bitsVal ((s.drop p).take w) < 2 ^ w :=
    (bitsVal_lt _).trans_le (Nat.pow_le_pow_right (by decide) (List.length_take_le _ _))
  exact (Nat.mod_le _ _).trans_lt hval

/-- No sentinel is found where no window is left (R223). -/
theorem findSentinel_of_short {f : Track} {s : List Bit} (h : s.length < fmtWidth f) : findSentinel f s = none := by
  induction s with
  | nil => rfl
  | cons b bs ih =>
    rw [findSentinel, if_neg (fun hc => absurd hc.1 (Nat.not_le.2 h)), ih (Nat.lt_of_succ_lt h), Option.map_none]

/-- The search from a position on (R223): it ends without a window, takes the sentinel, or slides on by one bit. -/
theorem findSentinel_drop (f : Track) (s : List Bit) (p : Nat) :
    findSentinel f (s.drop p) =
      if p + fmtWidth f ≤ s.length then
        if win s p (fmtWidth f) = fmtSent f then some 0 else (findSentinel f (s.drop (p + 1))).map (· + 1)
      else none := by
  have hpos := fmtWidth_pos f
  split_ifs with hwin hsent
  · rw [List.drop_eq_getElem_cons (show p < s.length by omega), findSentinel, ← List.drop_eq_getElem_cons]
    exact if_pos ⟨by rw [List.length_drop]; omega, hsent⟩
  · rw [List.drop_eq_getElem_cons (show p < s.length by omega), findSentinel, ← List.drop_eq_getElem_cons]
    exact if_neg fun hc => hsent hc.2
  · exact findSentinel_of_short (by rw [List.length_drop]; omega)

/-- A bound that suffices is as good as one more (R229: each group advances the position). -/
theorem groupLoop_bound_succ {f : Track} {s : List Bit} {n p : Nat} (h : s.length ≤ p + n) (chars : List Byte) :
    groupLoop f s (n + 1) p chars = groupLoop f s n p chars := by
  have hpos := fmtWidth_pos f
  induction n generalizing p chars with
  | zero =>
    have hshort : s.length < p + fmtWidth f := by omega
    simp only [groupLoop, hshort, if_true]
  | succ n ih =>
    rw [groupLoop, groupLoop]
    simp only [ih (show s.length ≤ p + fmtWidth f + n by omega)]

/-- One group of the group loop (R225 to R229), under the bound that `DecodeOne` sets. -/
theorem groupLoop_length (f : Track) (s : List Bit) (p : Nat) (chars : List Byte) :
    groupLoop f s s.length p chars =
      if s.length < p + fmtWidth f then .error .noTerminator
      else if groupValid (win s p (fmtWidth f)) then
        if win s p (fmtWidth f) = fmtTerm f then .ok (chars ++ [groupChar f (win s p (fmtWidth f))])
        else groupLoop f s s.length (p + fmtWidth f) (chars ++ [groupChar f (win s p (fmtWidth f))])
      else .error .parity := by
  have hpos := fmtWidth_pos f
  rw [← groupLoop_bound_succ (by omega), groupLoop]

theorem decodeTrack_of_forward {s : List Bit} {f : Track} {chars : List Byte} (h : decodeOne s f = .ok chars) :
    decodeTrack s f = .ok chars := by
  simp only [decodeTrack, h]

theorem decodeTrack_of_reversed {s : List Bit} {f : Track} {c : Cause} {chars : List Byte}
    (h : decodeOne s f = .error c) (h' : decodeOne (reverseSeq s) f = .ok chars) : decodeTrack s f = .ok chars := by
  simp only [decodeTrack, h, h']

theorem decodeTrack_of_neither {s : List Bit} {f : Track} {c c' : Cause} (h : decodeOne s f = .error c)
    (h' : decodeOne (reverseSeq s) f = .error c') : decodeTrack s f = .error (c, c') := by
  simp only [decodeTrack, h, h']

/-! ## The rows on the transients (R223 to R228) -/

theorem sentinelRow_of_search {d : Decoder} {s : State} (hd : s.dec = some d) (hp : d.phase = .search) :
    sentinelRow d.fmt s = .next (s.setDec (some d.sentinel)) := by
  simp [sentinelRow, hd, hp]

theorem groupRow_of_groups {d : Decoder} {s : State} (hd : s.dec = some d) (hp : d.phase = .groups) (g : Group) :
    groupRow d.fmt g s = .next (s.setDec (some (d.group g))) := by
  simp [groupRow, hd, hp]

/-- Whichever row a group of format `f` is, running it is the group row of that value (R225 to R228). -/
theorem exec_decodeGroup {f : Track} {g : Group} (h : g.toNat < 2 ^ fmtWidth f) (s : State) :
    exec (decodeGroup f g) s = groupRow f g s := by
  cases f with
  | t1 =>
    rw [decodeGroup_t1]
    split_ifs with hg
    · rw [hg]; rfl
    · exact congrArg (groupRow .t1 · s) (group1_extract g)
  | t2 =>
    rw [decodeGroup_t2]
    split_ifs with hg
    · rw [hg]; rfl
    · exact congrArg (groupRow .t2 · s) (group2_extract h)

/-! ## One orientation, turn by turn (R223 to R230) -/

/-- The transients after one turn of an orientation that has not ended; the ends stay. -/
def Decoder.next (d : Decoder) : Decoder :=
  match d.phase with
  | .search =>
    if d.hasWindow then
      if d.window = fmtSent d.fmt then d.sentinel else d.slide
    else d.fail .noSentinel
  | .groups => if d.hasWindow then d.group d.window else d.fail .noTerminator
  | .ok => d
  | .failed _ => d

/-- What the orientation comes to from its transients on. -/
def Decoder.result (d : Decoder) : Except Cause (List Byte) :=
  match d.phase with
  | .search =>
    match findSentinel d.fmt (d.seq.drop d.pos) with
    | none => .error .noSentinel
    | some i =>
      groupLoop d.fmt d.seq d.seq.length (d.pos + i + fmtWidth d.fmt) [groupChar d.fmt (fmtSent d.fmt)]
  | .groups => groupLoop d.fmt d.seq d.seq.length d.pos d.chars
  | .ok => .ok d.chars
  | .failed c => .error c

/-- A bound of the turns until the orientation ends, 0 at its end. -/
def Decoder.turnsLeft (d : Decoder) : Nat :=
  match d.phase with
  | .search => d.seq.length - d.pos + 1
  | .groups => d.seq.length - d.pos + 1
  | .ok => 0
  | .failed _ => 0

/-- What an orientation is of: its format, its direction and its sequence. -/
def Decoder.task (d : Decoder) : Track × Orientation × List Bit := (d.fmt, d.orient, d.seq)

theorem Decoder.hasWindow_iff {d : Decoder} :
    d.hasWindow = true ↔ d.pos + fmtWidth d.fmt ≤ d.seq.length := decide_eq_true_iff

theorem Decoder.result_start (f : Track) (o : Orientation) (l : List Bit) :
    (Decoder.start f o l).result = decodeOne l f := by
  cases h : findSentinel f l <;> simp [Decoder.result, Decoder.start, decodeOne, h]

theorem Decoder.task_start {d : Decoder} {f : Track} {o : Orientation} {l : List Bit}
    (h : d.task = (Decoder.start f o l).task) : d.fmt = f ∧ d.orient = o ∧ d.seq = l := by
  simpa [Decoder.task, Decoder.start] using h

theorem Decoder.running_cases {d : Decoder} (h : d.turnsLeft ≠ 0) : d.phase = .search ∨ d.phase = .groups := by
  cases hp : d.phase with
  | search => exact .inl rfl
  | groups => exact .inr rfl
  | ok => simp [Decoder.turnsLeft, hp] at h
  | failed c => simp [Decoder.turnsLeft, hp] at h

/-- An orientation that has ended shows its result. -/
theorem Decoder.ended_cases {d : Decoder} (h : d.turnsLeft = 0) :
    (d.phase = .ok ∧ d.result = .ok d.chars) ∨ ∃ c, d.phase = .failed c ∧ d.result = .error c := by
  cases hp : d.phase with
  | search => simp [Decoder.turnsLeft, hp] at h
  | groups => simp [Decoder.turnsLeft, hp] at h
  | ok => exact .inl ⟨rfl, by simp only [Decoder.result, hp]⟩
  | failed c => exact .inr ⟨c, rfl, by simp only [Decoder.result, hp]⟩

/-- The walk takes one turn of an orientation that is still running, whatever the rest of the state is. -/
theorem decoderStep_eq_next {d : Decoder} {s : State} (hd : s.dec = some d) (h : d.turnsLeft ≠ 0) :
    decoderStep d s = .next (s.setDec (some d.next)) := by
  rcases Decoder.running_cases h with hp | hp
  · simp only [decoderStep, Decoder.next, hp, decodeSearch_eq]
    split_ifs with hwin hsent
    · rw [← sentinelRow_of_search hd hp]
      cases d.fmt <;> rfl
    · rfl
    · rfl
  · simp only [decoderStep, Decoder.next, hp]
    split_ifs
    · exact (exec_decodeGroup (win_lt _ _ _) s).trans (groupRow_of_groups hd hp _)
    · rfl

theorem Decoder.next_task (d : Decoder) : d.next.task = d.task := by
  have hgroup (g : Group) : (d.group g).task = d.task := by
    unfold Decoder.group
    split_ifs <;> rfl
  unfold Decoder.next
  split
  · split_ifs <;> rfl
  · split_ifs
    · exact hgroup _
    · rfl
  · rfl
  · rfl

theorem Decoder.next_result (d : Decoder) : d.next.result = d.result := by
  cases hp : d.phase with
  | search =>
    have hfind := findSentinel_drop d.fmt d.seq d.pos
    simp only [Decoder.next, hp, Decoder.hasWindow_iff]
    split_ifs with hwin hsent
    · simp only [Decoder.window] at hsent
      simp [Decoder.result, hp, Decoder.sentinel, hfind, hwin, hsent]
    · simp only [Decoder.window] at hsent
      simp only [Decoder.result, hp, Decoder.slide, hfind, hwin, hsent, if_true, if_false]
      cases findSentinel d.fmt (d.seq.drop (d.pos + 1)) with
      | none => rfl
      | some i => simp only [Option.map_some, Nat.add_assoc, Nat.add_comm 1]
    · simp [Decoder.result, hp, Decoder.fail, hfind, hwin]
  | groups =>
    have hloop := groupLoop_length d.fmt d.seq d.pos d.chars
    simp only [Decoder.next, hp, Decoder.hasWindow_iff]
    split_ifs with hwin
    · rw [if_neg (Nat.not_lt.2 hwin)] at hloop
      simp only [Decoder.result, hp, hloop, Decoder.group, Decoder.window]
      split_ifs <;> simp [Decoder.fail]
    · rw [if_pos (Nat.not_le.1 hwin)] at hloop
      simp [Decoder.result, hp, hloop, Decoder.fail]
  | ok => simp only [Decoder.next, hp]
  | failed c => simp only [Decoder.next, hp]

theorem Decoder.turnsLeft_next_lt {d : Decoder} (h : d.turnsLeft ≠ 0) : d.next.turnsLeft < d.turnsLeft := by
  have hpos := fmtWidth_pos d.fmt
  rcases Decoder.running_cases h with hp | hp
  · simp only [Decoder.next, hp, Decoder.hasWindow_iff]
    split_ifs <;> simp only [Decoder.turnsLeft, hp, Decoder.sentinel, Decoder.slide, Decoder.fail] <;> omega
  · simp only [Decoder.next, hp, Decoder.hasWindow_iff, Decoder.group]
    split_ifs <;> simp only [Decoder.turnsLeft, hp, Decoder.fail] <;> omega

/-! ## The whole attempt (R204, R231, R232) -/

/-- Some number of turns of the host leads from `s` to `s'`. -/
def HostTurns (s s' : State) : Prop := ∃ n, serveAll (List.replicate n .host) s = .next s'

theorem HostTurns.refl (s : State) : HostTurns s s := ⟨0, rfl⟩

theorem HostTurns.of_hostStep {s s' : State} (h : hostStep s = .next s') : HostTurns s s' :=
  ⟨1, (serveAll_replicate_succ (n := 0) rfl).trans h⟩

theorem HostTurns.trans {s s1 s2 : State} (h : HostTurns s s1) (h' : HostTurns s1 s2) : HostTurns s s2 := by
  obtain ⟨n, hn⟩ := h
  obtain ⟨m, hm⟩ := h'
  refine ⟨n + m, ?_⟩
  rw [← List.replicate_append_replicate, serveAll_append, hn]
  exact hm

theorem hostStep_setDec {s : State} (hs : s.hostStopped = false) (d : Decoder) :
    hostStep (s.setDec (some d)) = decoderStep d (s.setDec (some d)) := by
  simp [hostStep, hs]

/-- The host's turns work an orientation off, and it ends as its result says. -/
theorem hostTurns_orientation (d : Decoder) {s : State} (hs : s.hostStopped = false) :
    ∃ d', HostTurns (s.setDec (some d)) (s.setDec (some d')) ∧ d'.task = d.task ∧ d'.result = d.result ∧
      d'.turnsLeft = 0 := by
  by_cases h : d.turnsLeft = 0
  · exact ⟨d, .refl _, rfl, rfl, h⟩
  · obtain ⟨d', hrun, htask, hresult, hend⟩ := hostTurns_orientation d.next hs
    have hturn := (hostStep_setDec hs d).trans (decoderStep_eq_next rfl h)
    exact ⟨d', (HostTurns.of_hostStep hturn).trans hrun, htask.trans d.next_task, hresult.trans d.next_result, hend⟩
termination_by d.turnsLeft
decreasing_by exact Decoder.turnsLeft_next_lt h

/-- A decoded sequence is reported as its line, and the transients are gone (R204, R46). -/
theorem hostTurns_of_decodeOne_ok {f : Track} {l : List Bit} {chars : List Byte} {s : State} (hs : s.hostStopped = false)
    (h : decodeOne l f = .ok chars) (o : Orientation) :
    HostTurns (s.setDec (some (Decoder.start f o l))) (emit (.line f chars) (s.setDec none)) := by
  obtain ⟨d, hrun, htask, hresult, hend⟩ := hostTurns_orientation (Decoder.start f o l) hs
  obtain ⟨rfl, -, -⟩ := Decoder.task_start htask
  rw [Decoder.result_start, h] at hresult
  rcases Decoder.ended_cases hend with ⟨hp, hr⟩ | ⟨c, -, hr⟩ <;> rw [hresult] at hr <;> cases hr
  refine hrun.trans (.of_hostStep ?_)
  simp only [hostStep_setDec hs, decoderStep, hp]
  rfl

/-- A sequence that does not decode is tried reversed, once: a failure of the reversed one is reported, and the
transients are gone (R231, R232, R46). -/
theorem hostTurns_of_decodeOne_error {f : Track} {l : List Bit} {c : Cause} {s : State} (hs : s.hostStopped = false)
    (h : decodeOne l f = .error c) (o : Orientation) :
    HostTurns (s.setDec (some (Decoder.start f o l)))
      (match o with
      | .forward => s.setDec (some (Decoder.start f .reversed (reverseSeq l)))
      | .reversed => emit (.unreadable f) (s.setDec none)) := by
  obtain ⟨d, hrun, htask, hresult, hend⟩ := hostTurns_orientation (Decoder.start f o l) hs
  obtain ⟨rfl, ho, rfl⟩ := Decoder.task_start htask
  rw [Decoder.result_start, h] at hresult
  rcases Decoder.ended_cases hend with ⟨-, hr⟩ | ⟨c', hp, hr⟩ <;> rw [hresult] at hr <;> cases hr
  refine hrun.trans (.of_hostStep ?_)
  cases o <;> simp only [hostStep_setDec hs, decoderStep, hp, ho] <;> rfl

/-- Settles O28: the forward orientation's turns, then, if it failed, those of the reversed one, and in each of the three
cases the report is STOP's. -/
theorem runningTheGroupsIsStop : Obligations.RunningTheGroupsIsStop := by
  intro s t l hdec hs ho hm hl
  have hnone : s.setDec none = s := by rw [State.setDec, ← hdec]
  suffices hrun : HostTurns (s.setDec (some (Decoder.start t .forward l))) (emit (reportEvent .interpret t l) s) by
    rw [exec_stop_of_enabled ho hl, hm]
    exact hrun
  cases hf : decodeOne l t with
  | ok chars =>
    rw [reportEvent_of_ok (decodeTrack_of_forward hf)]
    exact hnone ▸ hostTurns_of_decodeOne_ok hs hf .forward
  | error c =>
    refine (hostTurns_of_decodeOne_error hs hf .forward).trans ?_
    cases hr : decodeOne (reverseSeq l) t with
    | ok chars =>
      rw [reportEvent_of_ok (decodeTrack_of_reversed hf hr)]
      exact hnone ▸ hostTurns_of_decodeOne_ok hs hr .reversed
    | error c' =>
      rw [reportEvent_of_error (decodeTrack_of_neither hf hr)]
      exact hnone ▸ hostTurns_of_decodeOne_error hs hr .reversed

/-! ## A byte of the wire and its track (R93, R202) -/

/-- The host's work on one byte: it is decoded under `pend` and run (R201, R202). -/
def execByte (b : Byte) (s : State) : Host.Outcome State Fault Refusal := exec (decodeWire (pendOf s) b) s

theorem consume_cons (b : Byte) (bs : List Byte) (s : State) :
    consume (b :: bs) s = andThen (execByte b s) (consume bs) := rfl

theorem consume_append (as bs : List Byte) (s : State) :
    consume (as ++ bs) s = andThen (consume as s) (consume bs) := by
  induction as generalizing s with
  | nil => rfl
  | cons a as ih =>
    rw [List.cons_append, consume_cons, consume_cons]
    cases execByte a s with
    | next s1 => exact ih s1
    | fault r => rfl
    | refused r => rfl

/-- A data byte: a count while none is pending, and a field otherwise (R202, R205, R206). -/
def dataByte (t : Track) (n : Nibble) (s : State) : State :=
  match (s.host.get t).pend with
  | none => setPend t (some n) s
  | some k => setPend t none (appendBits t (fieldBits n k.toNat) s)

theorem dataByte_of_none {t : Track} {s : State} (h : (s.host.get t).pend = none) (n : Nibble) :
    dataByte t n s = setPend t (some n) s := by
  simp only [dataByte, h]

theorem dataByte_of_some {t : Track} {k : Nibble} {s : State} (h : (s.host.get t).pend = some k) (n : Nibble) :
    dataByte t n s = setPend t none (appendBits t (fieldBits n k.toNat) s) := by
  simp only [dataByte, h]

theorem pendOf_get (s : State) (t : Track) : (pendOf s).get t = (s.host.get t).pend := by cases t <;> rfl

theorem execByte_of_start {b : Byte} {t : Track} (h : decodeByte b = .start t) (s : State) :
    execByte b s = exec (.start t) s := by
  rw [execByte, decodeWire, h]

theorem execByte_of_stop {b : Byte} {t : Track} (h : decodeByte b = .stop t) (s : State) :
    execByte b s = exec (.stop t) s := by
  rw [execByte, decodeWire, h]

theorem execByte_of_data {b : Byte} {t : Track} {n : Nibble} (h : decodeByte b = .data t n) (s : State) :
    execByte b s = .next (dataByte t n s) := by
  rw [execByte, decodeWire_of_data _ h, pendOf_get]
  cases hp : (s.host.get t).pend with
  | none => rw [if_pos rfl, exec_size_of_none hp, dataByte_of_none hp]
  | some k => rw [if_neg (by simp), exec_bits_of_some hp, dataByte_of_some hp]

/-- The kind of a byte names the track of the byte (R93, R103). -/
theorem decodeByte_cases (b : Byte) :
    decodeByte b = .start (byteTrack b) ∨ decodeByte b = .stop (byteTrack b) ∨
      ∃ n, decodeByte b = .data (byteTrack b) n := by
  simp only [decodeByte, byteTrack]
  split_ifs
  · exact .inr (.inl rfl)
  · exact .inl rfl
  · exact .inr (.inr ⟨_, rfl⟩)

/-! ## What a byte reads and writes (R186, R213) -/

/-- The host state of track `t` becomes `h`, and the events `l` are emitted. -/
def State.change (t : Track) (h : HostTrack) (l : List OutEvent) (s : State) : State :=
  { s with host := s.host.set t h, out := s.out ++ l }

theorem State.change_change (t : Track) (h k : HostTrack) (l m : List OutEvent) (s : State) :
    (s.change t h l).change t k m = s.change t k (l ++ m) := by
  simp [State.change]

/-- Two states that track `t` of the host cannot tell apart, and whose output agrees on its events. -/
structure TrackAlike (t : Track) (s u : State) : Prop where
  cfg : u.cfg = s.cfg
  host : u.host.get t = s.host.get t
  out : outOf t u.out = outOf t s.out

namespace TrackAlike

variable {t v : Track} {s u w : State}

theorem refl (t : Track) (s : State) : TrackAlike t s s := ⟨rfl, rfl, rfl⟩

theorem symm (h : TrackAlike t s u) : TrackAlike t u s := ⟨h.cfg.symm, h.host.symm, h.out.symm⟩

theorem trans (h : TrackAlike t s u) (h' : TrackAlike t u w) : TrackAlike t s w :=
  ⟨h'.cfg.trans h.cfg, h'.host.trans h.host, h'.out.trans h.out⟩

/-- The same change keeps the states alike. -/
theorem change (h : TrackAlike t s u) (k : HostTrack) (l : List OutEvent) :
    TrackAlike t (s.change t k l) (u.change t k l) where
  cfg := h.cfg
  host := by simp [State.change]
  out := by
    have hout := h.out
    simp only [outOf] at hout
    simp only [State.change, outOf, List.filter_append, hout]

/-- A change of another track, with its events, does not show. -/
theorem change_of_ne (hne : t ≠ v) (k : HostTrack) {l : List OutEvent} (hl : ∀ e ∈ l, e.track = v) (s : State) :
    TrackAlike t s (s.change v k l) where
  cfg := rfl
  host := PerTrack.get_set_ne _ hne _
  out := by
    have hnone : outOf t l = [] := List.filter_eq_nil_iff.2 fun e he => by simpa [hl e he] using hne.symm
    simp only [outOf] at hnone
    simp only [State.change, outOf, List.filter_append, hnone, List.append_nil]

end TrackAlike

/-- What `f` does in `s` is a change of track `t` with events of that track, and it is the same change in every state that
the track cannot tell from `s`. -/
def ActsOn (t : Track) (s : State) (f : State → State) : Prop :=
  ∃ h l, (∀ e ∈ l, e.track = t) ∧ ∀ u, TrackAlike t s u → f u = u.change t h l

theorem ActsOn.of_setHost {t : Track} {s : State} {f : State → State} (h : HostTrack)
    (hf : ∀ u, TrackAlike t s u → f u = u.setHost t h) : ActsOn t s f :=
  ⟨h, [], by simp, fun u hu => by rw [hf u hu]; simp [State.change, State.setHost]⟩

theorem ActsOn.id (t : Track) (s : State) : ActsOn t s fun u => u :=
  .of_setHost (s.host.get t) fun u hu => by rw [← hu.host, State.setHost, PerTrack.set_get]

/-- One after the other. -/
theorem ActsOn.comp {t : Track} {s : State} {f g : State → State} (hf : ActsOn t s f) (hg : ActsOn t (f s) g) :
    ActsOn t s fun u => g (f u) := by
  obtain ⟨h, l, hl, hf⟩ := hf
  obtain ⟨k, m, hm, hg⟩ := hg
  rw [hf s (.refl t s)] at hg
  refine ⟨k, l ++ m, fun e he => (List.mem_append.1 he).elim (hl e) (hm e), fun u hu => ?_⟩
  change g (f u) = _
  rw [hf u hu, hg _ (hu.change h l), State.change_change]

theorem actsOn_setPend (t : Track) (p : Option Nibble) (s : State) : ActsOn t s (setPend t p) :=
  .of_setHost { s.host.get t with pend := p } fun u hu => by rw [setPend, hu.host]

theorem actsOn_tbAppend (t : Track) (b : Bit) (s : State) : ActsOn t s (tbAppend t b) := by
  have hu (u : State) (h : TrackAlike t s u) : tbAppend t b u =
      if (s.host.get t).ovf then u
      else if (s.host.get t).rawLen = s.cfg.tbcap then raise (.reassemblyOverflow t) u
      else u.setHost t { s.host.get t with
        tb := tbPut (s.host.get t).tb (s.host.get t).rawLen b, rawLen := (s.host.get t).rawLen + 1 } := by
    simp only [tbAppend, h.host, h.cfg]
  by_cases ho : (s.host.get t).ovf = true
  · simp only [ho, if_true] at hu
    obtain ⟨h, l, hl, hid⟩ := ActsOn.id t s
    exact ⟨h, l, hl, fun u h => (hu u h).trans (hid u h)⟩
  by_cases hfull : (s.host.get t).rawLen = s.cfg.tbcap
  · refine ⟨{ s.host.get t with ovf := true }, [.overflowDiag t], by simp [OutEvent.track], fun u h => ?_⟩
    rw [hu u h, if_neg ho, if_pos hfull, ← h.host]
    rfl
  · exact .of_setHost _ fun u h => by rw [hu u h, if_neg ho, if_neg hfull]

theorem actsOn_appendBits (t : Track) (bs : List Bit) (s : State) : ActsOn t s (appendBits t bs) := by
  induction bs generalizing s with
  | nil => exact .id t s
  | cons b bs ih => exact (actsOn_tbAppend t b s).comp (ih _)

theorem actsOn_dataByte (t : Track) (n : Nibble) (s : State) : ActsOn t s (dataByte t n) := by
  cases hp : (s.host.get t).pend with
  | none =>
    obtain ⟨h, l, hl, hset⟩ := actsOn_setPend t (some n) s
    exact ⟨h, l, hl, fun u hu => (dataByte_of_none (hu.host ▸ hp) n).trans (hset u hu)⟩
  | some k =>
    obtain ⟨h, l, hl, hfield⟩ := (actsOn_appendBits t (fieldBits n k.toNat) s).comp (actsOn_setPend t none _)
    exact ⟨h, l, hl, fun u hu => (dataByte_of_some (hu.host ▸ hp) n).trans (hfield u hu)⟩

/-- A byte is run by its own track alone: where it has a next state, the change that it makes is the same in every state
that the track cannot tell apart (R186). -/
theorem execByte_next {b : Byte} {s s' : State} (h : execByte b s = .next s') :
    ∃ f, ActsOn (byteTrack b) s f ∧ ∀ u, TrackAlike (byteTrack b) s u → execByte b u = .next (f u) := by
  rcases decodeByte_cases b with hb | hb | ⟨n, hb⟩
  · refine ⟨_, .of_setHost { tb := (s.host.get (byteTrack b)).tb, rawLen := 0, pend := none, ovf := false }
      fun u _ => rfl, fun u hu => ?_⟩
    rw [execByte_of_start hb, exec_start, hu.host]
  · rw [execByte_of_stop hb] at h
    rcases execStop_next h with ⟨ho, -⟩ | ⟨ho, seq, hseq, -⟩
    · refine ⟨_, .id _ s, fun u hu => ?_⟩
      rw [execByte_of_stop hb, exec_stop_of_disabled (by rwa [hu.cfg])]
    · refine ⟨emit (reportEvent s.cfg.outMode (byteTrack b) seq), ⟨s.host.get (byteTrack b),
        [reportEvent s.cfg.outMode (byteTrack b) seq], by simp [reportEvent_track], fun u hu => ?_⟩, fun u hu => ?_⟩
      · rw [← hu.host, State.change, PerTrack.set_get, emit]
      · rw [execByte_of_stop hb, exec_stop_of_enabled (by rwa [hu.cfg]) (by rwa [rawSeq, hu.host]), hu.cfg]
  · exact ⟨_, actsOn_dataByte _ n s, fun u _ => execByte_of_data hb u⟩

/-- Another track does not notice a byte (R186). -/
theorem TrackAlike.of_execByte {t : Track} {b : Byte} {s s' : State} (hb : byteTrack b ≠ t)
    (h : execByte b s = .next s') : TrackAlike t s s' := by
  obtain ⟨f, ⟨k, l, hl, hf⟩, he⟩ := execByte_next h
  rw [he s (.refl _ s), hf s (.refl _ s), Host.Outcome.next.injEq] at h
  rw [← h]
  exact .change_of_ne hb.symm k hl s

/-- States that its track cannot tell apart give a byte alike outcomes. -/
theorem TrackAlike.execByte {t : Track} {b : Byte} {s s' u : State} (hb : byteTrack b = t) (hu : TrackAlike t s u)
    (h : execByte b s = .next s') : ∃ u', execByte b u = .next u' ∧ TrackAlike t s' u' := by
  subst hb
  obtain ⟨f, ⟨k, l, -, hf⟩, he⟩ := execByte_next h
  rw [he s (.refl _ s), hf s (.refl _ s), Host.Outcome.next.injEq] at h
  exact ⟨f u, he u hu, by rw [← h, hf u hu]; exact hu.change k l⟩

/-! ## The two tracks of a byte stream (R186, R213) -/

/-- The bytes of track `t` in a byte stream. -/
def bytesOf (t : Track) (bs : List Byte) : List Byte := bs.filter fun b => decide (byteTrack b = t)

theorem bytesOf_cons_of_eq {t : Track} {b : Byte} (h : byteTrack b = t) (bs : List Byte) :
    bytesOf t (b :: bs) = b :: bytesOf t bs := by
  simp [bytesOf, h]

theorem bytesOf_cons_of_ne {t : Track} {b : Byte} (h : byteTrack b ≠ t) (bs : List Byte) :
    bytesOf t (b :: bs) = bytesOf t bs := by
  simp [bytesOf, h]

/-- What a byte stream does to track `t` is what the bytes of the track do alone. -/
theorem TrackAlike.consume_bytesOf {t : Track} {bs : List Byte} {s s' u : State} (hu : TrackAlike t s u)
    (h : consume bs s = .next s') : ∃ u', consume (bytesOf t bs) u = .next u' ∧ TrackAlike t s' u' := by
  induction bs generalizing s u with
  | nil =>
    cases h
    exact ⟨u, rfl, hu⟩
  | cons b bs ih =>
    obtain ⟨s1, hs1, hrest⟩ := andThen_next h
    by_cases hb : byteTrack b = t
    · obtain ⟨u1, hu1, halike⟩ := hu.execByte hb hs1
      rw [bytesOf_cons_of_eq hb, consume_cons, hu1]
      exact ih halike hrest
    · rw [bytesOf_cons_of_ne hb]
      exact ih ((TrackAlike.of_execByte hb hs1).symm.trans hu) hrest

/-- A byte stream is consumed whenever the bytes of each track are, alone. -/
theorem exists_consume_of_bytesOf {bs : List Byte} {s : State}
    (h : ∀ t, ∃ u u', TrackAlike t s u ∧ consume (bytesOf t bs) u = .next u') : ∃ s', consume bs s = .next s' := by
  induction bs generalizing s with
  | nil => exact ⟨s, rfl⟩
  | cons b bs ih =>
    obtain ⟨u, u', hu, hrun⟩ := h (byteTrack b)
    rw [bytesOf_cons_of_eq rfl] at hrun
    obtain ⟨u1, hu1, hrest⟩ := andThen_next hrun
    obtain ⟨s1, hs1, halike⟩ := hu.symm.execByte rfl hu1
    rw [consume_cons, hs1]
    refine ih fun t => ?_
    by_cases hb : byteTrack b = t
    · subst hb
      exact ⟨u1, u', halike.symm, hrest⟩
    · obtain ⟨v, v', hv, hrun⟩ := h t
      rw [bytesOf_cons_of_ne hb] at hrun
      exact ⟨v, v', (TrackAlike.of_execByte hb hs1).symm.trans hv, hrun⟩

/-- Settles O56: both streams do to each track what the bytes of the track do alone. -/
theorem interleavingDoesNotMatter : Obligations.InterleavingDoesNotMatter := by
  intro s s1 bs cs hfilter h
  have hbytes (t : Track) : bytesOf t bs = bytesOf t cs := hfilter t
  have halone (t : Track) : ∃ u, consume (bytesOf t cs) s = .next u ∧ TrackAlike t s1 u := by
    rw [← hbytes]
    exact (TrackAlike.refl t s).consume_bytesOf h
  obtain ⟨s2, hs2⟩ : ∃ s2, consume cs s = .next s2 :=
    exists_consume_of_bytesOf fun t => (halone t).elim fun u hu => ⟨s, u, .refl t s, hu.1⟩
  have halike (t : Track) : TrackAlike t s1 s2 := by
    obtain ⟨u, hu, h1⟩ := halone t
    obtain ⟨u', hu', h2⟩ := (TrackAlike.refl t s).consume_bytesOf hs2
    rw [hu, Host.Outcome.next.injEq] at hu'
    subst hu'
    exact h1.trans h2.symm
  exact ⟨s2, hs2, PerTrack.ext_get fun t => (halike t).host, fun t => (halike t).out⟩

/-! ## The bits of a swipe (R212) -/

/-- While every bit below `raw_len` can be read, each byte has a next state, and it stays so (R202, R70). -/
theorem exists_execByte {s : State} (h : AlikeBelowRawLen s s) (b : Byte) :
    ∃ s', execByte b s = .next s' ∧ AlikeBelowRawLen s' s' := by
  have hnext : ∃ s', execByte b s = .next s' := by
    rcases decodeByte_cases b with hb | hb | ⟨n, hb⟩
    · exact ⟨_, (execByte_of_start hb s).trans (exec_start _ s)⟩
    · rw [execByte_of_stop hb]
      obtain ⟨l, hl, -⟩ := (h.hostTrack (byteTrack b)).bits
      cases ho : s.cfg.outEn.get (byteTrack b) with
      | true => exact ⟨_, exec_stop_of_enabled ho hl⟩
      | false => exact ⟨s, exec_stop_of_disabled ho⟩
    · exact ⟨_, execByte_of_data hb s⟩
  obtain ⟨s', hs'⟩ := hnext
  obtain ⟨u', hu', halike⟩ := h.exec_decodeWire b s' hs'
  rw [show exec (decodeWire (pendOf s) b) s = .next s' from hs', Host.Outcome.next.injEq] at hu'
  exact ⟨s', hs', hu' ▸ halike⟩

theorem exists_consume {s : State} (h : AlikeBelowRawLen s s) (bs : List Byte) : ∃ s', consume bs s = .next s' := by
  induction bs generalizing s with
  | nil => exact ⟨s, rfl⟩
  | cons b bs ih =>
    obtain ⟨s1, hs1, h1⟩ := exists_execByte h b
    rw [consume_cons, hs1]
    exact ih h1

/-- The bits that a BITS byte with a group's number appends are the group (R132, R206). -/
theorem fieldBits_bitsValMsb {p : List Bit} (hp : p.length ≤ 4) :
    fieldBits (BitVec.ofNat 4 (bitsValMsb p)) p.length = p := by
  have hlt : bitsValMsb p < 2 ^ 4 := (bitsValMsb_lt p).trans_le (Nat.pow_le_pow_right (by decide) hp)
  have hbits : bitsMsb p.length (bitsValMsb p) = p := by
    rw [← List.reverse_inj, reverse_bitsMsb, bitsValMsb, ← List.length_reverse, bitsLsb_bitsVal]
  refine Eq.trans ?_ hbits
  rw [fieldBits_eq_map, bitsMsb]
  refine List.map_congr_left fun i _ => ?_
  rw [← BitVec.testBit_toNat, BitVec.toNat_setWidth, BitVec.toNat_ofNat, Nat.mod_eq_of_lt hlt,
    Nat.mod_eq_of_lt (hlt.trans (by decide))]

/-- Track `t` of the host holds the bits `l`, no count is pending and nothing was lost (R41 to R43). -/
structure State.Restored (s : State) (t : Track) (l : List Bit) : Prop where
  seq : rawSeq t s = some l
  pend : (s.host.get t).pend = none
  ovf : (s.host.get t).ovf = false

theorem State.Restored.rawLen {s : State} {t : Track} {l : List Bit} (h : s.Restored t l) :
    (s.host.get t).rawLen = l.length := (readBits_length h.seq).symm

theorem TrackAlike.restored {t : Track} {s u : State} {l : List Bit} (h : TrackAlike t s u) (hs : s.Restored t l) :
    u.Restored t l :=
  ⟨by rw [rawSeq, h.host]; exact hs.seq, by rw [h.host]; exact hs.pend, by rw [h.host]; exact hs.ovf⟩

theorem execByte_mkData (t : Track) (n : Nibble) (s : State) : execByte (mkData t n) s = .next (dataByte t n s) :=
  execByte_of_data (decodeByte_mkData t n) s

/-- START empties the track (R203). -/
theorem restored_mkStart (t : Track) (s : State) :
    ∃ s', execByte (mkStart t) s = .next s' ∧ s'.cfg = s.cfg ∧ s'.Restored t [] :=
  ⟨_, (execByte_of_start (decodeByte_mkStart t) s).trans (exec_start t s), rfl, by simp [rawSeq, readBits], by simp,
    by simp⟩

/-- SIZE and BITS of one group append the group (R205, R206). -/
theorem State.Restored.consume_flushBytes {s : State} {t : Track} {l p : List Bit} (h : s.Restored t l)
    (hp : p.length ≤ 4) (hroom : l.length + p.length ≤ s.cfg.tbcap) :
    ∃ s', consume (flushBytes t p.length (bitsValMsb p)) s = .next s' ∧ s'.cfg = s.cfg ∧ s'.Restored t (l ++ p) := by
  set k := BitVec.ofNat 4 p.length with hk
  have hkn : k.toNat = p.length := by rw [hk, BitVec.toNat_ofNat, Nat.mod_eq_of_lt (by omega)]
  obtain ⟨c, he, -, hovf, -, hbits, -⟩ := appendBits_of_room t p (setPend t (some k) s) l (by simpa [setPend] using h.ovf)
    (by simpa [setPend, rawSeq] using h.seq) (by simpa [setPend, h.rawLen] using hroom)
  refine ⟨setPend t none (appendBits t p (setPend t (some k) s)), ?_, ?_, ?_⟩
  · rw [flushBytes, consume_cons, execByte_mkData, dataByte_of_none h.pend, andThen, consume_cons, execByte_mkData,
      dataByte_of_some (k := k) (by simp [setPend, hk]), hkn, fieldBits_bitsValMsb hp]
    rfl
  · rw [he]; rfl
  · rw [he]
    exact ⟨by simpa [setPend, rawSeq] using hbits, by simp [setPend], by simpa [setPend] using hovf⟩

/-- The groups of a bit sequence append the sequence (R117, R212). -/
theorem State.Restored.consume_bitseqBytes {s : State} {t : Track} {l : List Bit} (h : s.Restored t l) {g : Nat}
    (hg : 1 ≤ g) (hg4 : g ≤ 4) (bits : List Bit) (hroom : l.length + bits.length ≤ s.cfg.tbcap) :
    ∃ s', consume (bitseqBytes g t bits) s = .next s' ∧ s'.Restored t (l ++ bits) := by
  by_cases hne : bits = []
  · subst hne
    exact ⟨s, rfl, by rwa [List.append_nil]⟩
  · have hpos : 0 < bits.length := List.length_pos_iff.2 hne
    have hlen : (bits.take g).length + (bits.drop g).length = bits.length := by
      rw [← List.length_append, List.take_append_drop]
    obtain ⟨s1, hs1, hcfg, h1⟩ := h.consume_flushBytes (p := bits.take g) ((List.length_take_le _ _).trans hg4) (by omega)
    obtain ⟨s', hs', h'⟩ := h1.consume_bitseqBytes hg hg4 (bits.drop g) (by rw [hcfg, List.length_append]; omega)
    rw [List.append_assoc, List.take_append_drop] at h'
    refine ⟨s', ?_, h'⟩
    rw [bitseqBytes_of_ne_nil hg t hne, consume_append, hs1]
    exact hs'
termination_by bits.length
decreasing_by rw [List.length_drop]; omega

/-- In a host that meets its invariant every bit below `raw_len` can be read (R70). -/
theorem alikeBelowRawLen_self {s : State} (h : ∀ t, HostInv s.cfg.tbcap (s.host.get t)) : AlikeBelowRawLen s s :=
  ⟨rfl, fun t => ⟨rfl, rfl, rfl, (Option.isSome_iff_exists.1 (readBits_isSome.2 (h t).written)).imp fun _ hl => ⟨hl, hl⟩⟩⟩

/-- Settles O55: the bytes of the track do to it what they do alone, and alone they restore the bits group by group. -/
theorem reassemblyRestoresTheBits : Obligations.ReassemblyRestoresTheBits := by
  intro s t g bits bs hg hg4 hinv hroom hbs
  obtain ⟨s', hs'⟩ := exists_consume (alikeBelowRawLen_self hinv) bs
  obtain ⟨u, hu, halike⟩ := (TrackAlike.refl t s).consume_bytesOf hs'
  obtain ⟨s0, hs0, hcfg, h0⟩ := restored_mkStart t s
  obtain ⟨u', hu', hrestored⟩ := h0.consume_bitseqBytes hg hg4 bits (by rw [hcfg]; simpa using hroom)
  rw [show bytesOf t bs = _ from hbs, consume_cons, hs0, andThen, hu', Host.Outcome.next.injEq] at hu
  subst hu
  have h := halike.symm.restored hrestored
  exact ⟨s', hs', h.seq, h.rawLen, h.pend, h.ovf⟩

end Sys2Proof.Machine

/-! SUPPORT. Proofs of the family 45_track_decoder: what the sentinel search, the group loop and the group rows give, and
the decoding of an encoded track in both directions. -/

namespace Sys2Proof

theorem fmtSent_lt (f : Track) : (fmtSent f).toNat < 2 ^ fmtWidth f := by cases f <;> decide

theorem fmtTerm_lt (f : Track) : (fmtTerm f).toNat < 2 ^ fmtWidth f := by cases f <;> decide

/-- Bit 0 of the sentinel is 1 in both formats (R223). -/
theorem fmtSent_odd (f : Track) : (fmtSent f).toNat % 2 = 1 := by cases f <;> rfl

end Sys2Proof

namespace Sys2Proof.Machine

/-! ## Groups: parity, character, window (R111 to R113) -/

theorem groupValid_iff {g : Group} : groupValid g = true ↔ popcount g % 2 = 1 := beq_iff_eq

theorem groupValid_fmtTerm (f : Track) : groupValid (fmtTerm f) = true := by cases f <;> rfl

/-- The terminator's character is `?` in both formats (R228). -/
theorem groupChar_fmtTerm (f : Track) : groupChar f (fmtTerm f) = 0x3F#8 := by cases f <;> rfl

/-- A flipped bit is one 1 bit more or one fewer (R226). -/
theorem popcount_flip (g : Group) (k : Fin 7) :
    popcount (g ^^^ (1#7 <<< k.val)) = popcount g + 1 ∨ popcount g = popcount (g ^^^ (1#7 <<< k.val)) + 1 := by
  revert g k; decide

/-- The window at a group's first bit is the group (R113, R222). -/
theorem win_append_groupStream {f : Track} {g : Group} (h : g.toNat < 2 ^ fmtWidth f) (a rest : List Bit) :
    win (a ++ (groupStream f g ++ rest)) a.length (fmtWidth f) = g := by
  rw [win, List.drop_left, List.take_left' (groupStream_length f g), groupStream, bitsVal_bitsLsb _ _ h,
    BitVec.ofNat_toNat, BitVec.setWidth_eq]

/-- A window that begins with a 0 is an even number (R222). -/
theorem win_even_of_first_false {s : List Bit} {p : Nat} (h : s[p]? = some false) (w : Nat) :
    (win s p w).toNat % 2 = 0 := by
  obtain ⟨hp, hbit⟩ := List.getElem?_eq_some_iff.1 h
  cases w with
  | zero => simp [win, bitsVal]
  | succ w =>
    rw [win, List.drop_eq_getElem_cons hp, hbit, List.take_succ_cons, bitsVal, BitVec.toNat_ofNat]
    simp only [Bool.toNat_false]
    omega

/-- Settles O11: a group's validity changes with each 1 bit more or fewer. -/
theorem oneFlippedBitBreaksParity : Obligations.OneFlippedBitBreaksParity := by
  intro g k hk hg
  rcases popcount_flip g ⟨k, hk⟩ with hmore | hfewer
  · simpa [hg] using groupValid_of_popcount_succ hmore
  · simpa [hg] using groupValid_of_popcount_succ hfewer

/-! ## The rows on the transients (R223 to R228) -/

theorem sentinelRow_anchors {f : Track} {d : Decoder} {s : State} (hd : s.dec = some d) (hp : d.phase = .search)
    (hf : d.fmt = f) :
    sentinelRow f s = .next { s with dec := some { d with
      phase := .groups, pos := d.pos + fmtWidth f, chars := [groupChar f (fmtSent f)] } } := by
  subst hf
  exact sentinelRow_of_search hd hp

theorem groupRow_of_character {f : Track} {g : Group} {d : Decoder} {s : State} (hd : s.dec = some d)
    (hp : d.phase = .groups) (hf : d.fmt = f) (hvalid : groupValid g = true) (hterm : g ≠ fmtTerm f) :
    groupRow f g s = .next { s with dec := some { d with
      pos := d.pos + fmtWidth f, chars := d.chars ++ [groupChar f g] } } := by
  subst hf
  rw [groupRow_of_groups hd hp, Decoder.group, if_pos hvalid, if_neg hterm]
  rfl

theorem groupRow_of_terminator {f : Track} {d : Decoder} {s : State} (hd : s.dec = some d) (hp : d.phase = .groups)
    (hf : d.fmt = f) :
    groupRow f (fmtTerm f) s = .next { s with dec := some { d with phase := .ok, chars := d.chars ++ [0x3F#8] } } := by
  subst hf
  rw [groupRow_of_groups hd hp, Decoder.group, if_pos (groupValid_fmtTerm _), if_pos rfl, groupChar_fmtTerm]
  rfl

theorem groupRow_of_even {f : Track} {g : Group} {d : Decoder} {s : State} (hd : s.dec = some d)
    (hp : d.phase = .groups) (hf : d.fmt = f) (heven : popcount g % 2 = 0) :
    groupRow f g s = .next { s with dec := some { d with phase := .failed .parity, chars := [] } } := by
  subst hf
  rw [groupRow_of_groups hd hp, Decoder.group, if_neg fun hvalid => by rw [groupValid_iff] at hvalid; omega]
  rfl

/-- Settles O23: both rows are the sentinel row of their format. -/
theorem sentinelRowsAnchorTheGroups : Obligations.SentinelRowsAnchorTheGroups :=
  fun _ _ hd hp => ⟨sentinelRow_anchors hd hp, sentinelRow_anchors hd hp⟩

/-- Settles O24: a well-formed character is a group other than the terminator. -/
theorem validCharacterRowsEmitTheirCharacter : Obligations.ValidCharacterRowsEmitTheirCharacter := by
  intro s d p hd hp
  constructor <;> intro x hf hwf hodd
  · rw [← groupChar_group2 p x]
    exact groupRow_of_character hd hp hf (groupValid_iff.2 hodd) (wf_char2_iff.1 hwf)
  · rw [← groupChar_group1 p x]
    exact groupRow_of_character hd hp hf (groupValid_iff.2 hodd) (wf_char1_iff.1 hwf)

/-- Settles O25: both rows are the group row of their format. -/
theorem evenGroupsFailTheOrientation : Obligations.EvenGroupsFailTheOrientation :=
  fun _ _ _ hd hp => ⟨fun _ hf => groupRow_of_even hd hp hf, fun _ hf => groupRow_of_even hd hp hf⟩

/-- Settles O26: both rows are the group row of the terminator. -/
theorem terminatorRowsEndTheTrack : Obligations.TerminatorRowsEndTheTrack :=
  fun _ _ hd hp => ⟨groupRow_of_terminator hd hp, groupRow_of_terminator hd hp⟩

/-- Settles O15: the host's turn is a step of the attempt, which decodes the window as the stream of its phase does. -/
theorem decoderStepRunsTheGroup : Obligations.DecoderStepRunsTheGroup := by
  intro s d es i hev hs hd hwin
  have hstep : step s = decoderStep d (s.setEvents es) := by simp [step, hev, serve, hostStep, hs, hd, State.setEvents]
  constructor <;> intro hp hdec
  · rw [decode_search (win_lt ..)] at hdec
    simp only [hstep, decoderStep, hp, Decoder.hasWindow_iff.2 hwin, if_true, Decoder.window, hdec]
    rfl
  · rw [decode_groups (win_lt ..), Except.ok.injEq] at hdec
    simp only [hstep, decoderStep, hp, Decoder.hasWindow_iff.2 hwin, if_true, Decoder.window, hdec]
    rfl

/-! ## The sentinel search (R223) -/

theorem findSentinel_eq_some_iff {f : Track} {s : List Bit} {i : Nat} :
    findSentinel f s = some i ↔
      i + fmtWidth f ≤ s.length ∧ win s i (fmtWidth f) = fmtSent f ∧ ∀ j, j < i → win s j (fmtWidth f) ≠ fmtSent f := by
  induction s generalizing i with
  | nil =>
    have hpos := fmtWidth_pos f
    exact iff_of_false (by simp [findSentinel]) fun ⟨hlen, _⟩ => by simp only [List.length_nil] at hlen; omega
  | cons b bs ih =>
    have hshift (j : Nat) : win (b :: bs) (j + 1) (fmtWidth f) = win bs j (fmtWidth f) := rfl
    rw [findSentinel]
    split_ifs with hfirst
    · obtain ⟨hlen, hsent⟩ := hfirst
      cases i with
      | zero => exact iff_of_true rfl ⟨by omega, hsent, fun _ hj => absurd hj (Nat.not_lt_zero _)⟩
      | succ i => exact iff_of_false (by simp) fun ⟨_, _, hleast⟩ => hleast 0 i.succ_pos hsent
    · cases i with
      | zero => exact iff_of_false (by simp) fun ⟨hlen, hsent, _⟩ => hfirst ⟨by omega, hsent⟩
      | succ i =>
        simp only [Option.map_eq_some_iff, Nat.add_right_cancel_iff, exists_eq_right, ih, Nat.forall_lt_succ_left, hshift,
          List.length_cons]
        constructor
        · rintro ⟨hlen, hsent, hleast⟩
          exact ⟨by omega, hsent, not_and.1 hfirst (by simp only [List.length_cons]; omega), hleast⟩
        · rintro ⟨hlen, hsent, -, hleast⟩
          exact ⟨by omega, hsent, hleast⟩

/-- Where there is a match there is a least one, which is found. -/
theorem findSentinel_eq_none_iff {f : Track} {s : List Bit} :
    findSentinel f s = none ↔ ∀ i, i + fmtWidth f ≤ s.length → win s i (fmtWidth f) ≠ fmtSent f := by
  constructor
  · intro hnone i
    induction i using Nat.strong_induction_on with
    | _ i ih =>
      intro hlen hsent
      have hfound := findSentinel_eq_some_iff.2 ⟨hlen, hsent, fun j hj => ih j hj (by omega)⟩
      simp [hnone] at hfound
  · intro habsent
    by_contra hfound
    obtain ⟨i, hi⟩ := Option.ne_none_iff_exists'.1 hfound
    obtain ⟨hlen, hsent, -⟩ := findSentinel_eq_some_iff.1 hi
    exact habsent i hlen hsent

theorem decodeOne_of_noSentinel {f : Track} {s : List Bit} (h : findSentinel f s = none) :
    decodeOne s f = .error .noSentinel := by
  simp only [decodeOne, h]

theorem decodeOne_of_sentinel {f : Track} {s : List Bit} {i : Nat} (h : findSentinel f s = some i) :
    decodeOne s f = groupLoop f s s.length (i + fmtWidth f) [groupChar f (fmtSent f)] := by
  simp only [decodeOne, h]

/-- Settles O29: the search finds a position when it is the least match, and none when there is no match. -/
theorem searchTakesTheFirstSentinel : Obligations.SearchTakesTheFirstSentinel :=
  fun _ _ => ⟨fun _ => findSentinel_eq_some_iff, findSentinel_eq_none_iff, decodeOne_of_noSentinel⟩

/-! ## The group loop (R225 to R230) -/

/-- A group loop that succeeds adds characters, the last of them the terminator's (R228). -/
theorem groupLoop_eq_ok {f : Track} {s : List Bit} {n p : Nat} {chars r : List Byte}
    (h : groupLoop f s n p chars = .ok r) : ∃ l, r = chars ++ l ++ [groupChar f (fmtTerm f)] := by
  induction n generalizing p chars with
  | zero => cases h
  | succ n ih =>
    simp only [groupLoop] at h
    split_ifs at h with hshort hvalid hterm
    · cases h
      exact ⟨[], by rw [hterm, List.append_nil]⟩
    · obtain ⟨l, hl⟩ := ih h
      exact ⟨groupChar f (win s p (fmtWidth f)) :: l, by simpa using hl⟩

/-- A successful result is the sentinel's character, further ones, and the terminator's (R230). -/
theorem decodeOne_eq_ok {f : Track} {s : List Bit} {chars : List Byte} (h : decodeOne s f = .ok chars) :
    ∃ l, chars = groupChar f (fmtSent f) :: l ++ [groupChar f (fmtTerm f)] := by
  cases hfind : findSentinel f s with
  | none => simp [decodeOne_of_noSentinel hfind] at h
  | some i => exact groupLoop_eq_ok (decodeOne_of_sentinel hfind ▸ h)

/-- Settles O30: the sentinel's character and the terminator's are `;` or `%`, and `?`. -/
theorem decodedTextIsBracketed : Obligations.DecodedTextIsBracketed := by
  intro s f chars h
  obtain ⟨l, rfl⟩ := decodeOne_eq_ok h
  refine ⟨by simp, ?_, ?_⟩
  · cases f <;> rfl
  · rw [List.getLast?_concat, groupChar_fmtTerm]

/-- The loop at a valid group of the sequence: the terminator ends it, any other group is passed (R227, R228). -/
theorem groupLoop_at_group {f : Track} {g : Group} (hvalid : groupValid g = true) (hlt : g.toNat < 2 ^ fmtWidth f)
    {s a rest : List Bit} (hs : s = a ++ (groupStream f g ++ rest)) (chars : List Byte) :
    groupLoop f s s.length a.length chars =
      if g = fmtTerm f then .ok (chars ++ [groupChar f g])
      else groupLoop f s s.length (a ++ groupStream f g).length (chars ++ [groupChar f g]) := by
  have hwin : win s a.length (fmtWidth f) = g := hs ▸ win_append_groupStream hlt a rest
  have hlen : ¬ s.length < a.length + fmtWidth f := by simp [hs]
  rw [groupLoop_length, if_neg hlen, hwin, if_pos hvalid, List.length_append, groupStream_length]

/-! ## Encoded tracks (R235) -/

/-- What R235 asks of the characters between the sentinel and the terminator: valid groups of the format's width, none of
them the terminator. -/
def TrackGroups (f : Track) (gs : List Group) : Prop :=
  ∀ g ∈ gs, groupValid g = true ∧ g ≠ fmtTerm f ∧ g.toNat < 2 ^ fmtWidth f

/-- From the first group after the sentinel the loop emits each group's character, up to the terminator's. -/
theorem groupLoop_encoded {f : Track} {gs : List Group} (hgs : TrackGroups f gs) {s a y : List Bit}
    (hs : s = a ++ (gs.flatMap (groupStream f) ++ (groupStream f (fmtTerm f) ++ y))) (chars : List Byte) :
    groupLoop f s s.length a.length chars = .ok (chars ++ (gs.map (groupChar f) ++ [groupChar f (fmtTerm f)])) := by
  induction gs generalizing a chars with
  | nil => rw [groupLoop_at_group (groupValid_fmtTerm f) (fmtTerm_lt f) hs, if_pos rfl]; rfl
  | cons g gs ih =>
    obtain ⟨⟨hvalid, hterm, hlt⟩, hrest⟩ := List.forall_mem_cons.1 hgs
    rw [List.flatMap_cons, List.append_assoc] at hs
    rw [groupLoop_at_group hvalid hlt hs, if_neg hterm, ih hrest (by rw [hs, List.append_assoc]), List.map_cons,
      List.append_assoc]
    rfl

/-- The exact half of R235: after a prefix without the sentinel an encoding decodes to its characters. -/
theorem decodeOne_encoded {f : Track} {gs : List Group} (hgs : TrackGroups f gs) {s z y : List Bit}
    (hs : s = z ++ (groupStream f (fmtSent f) ++ (gs.flatMap (groupStream f) ++ (groupStream f (fmtTerm f) ++ y))))
    (hz : ∀ j, j < z.length → win s j (fmtWidth f) ≠ fmtSent f) :
    decodeOne s f = .ok (groupChar f (fmtSent f) :: (gs.map (groupChar f) ++ [groupChar f (fmtTerm f)])) := by
  have hsent : win s z.length (fmtWidth f) = fmtSent f := hs ▸ win_append_groupStream (fmtSent_lt f) z _
  have hfind : findSentinel f s = some z.length := findSentinel_eq_some_iff.2 ⟨by simp [hs], hsent, hz⟩
  rw [decodeOne_of_sentinel hfind, ← groupStream_length f (fmtSent f), ← List.length_append]
  exact groupLoop_encoded hgs (by rw [hs, List.append_assoc]) _

/-- No window that begins in a prefix of zeros is the sentinel (R223, R235). -/
theorem win_ne_fmtSent_of_zeros {z : List Bit} (hz : ∀ b ∈ z, b = false) (rest : List Bit) (f : Track) {j : Nat}
    (hj : j < z.length) : win (z ++ rest) j (fmtWidth f) ≠ fmtSent f := by
  intro hsent
  have hbit : (z ++ rest)[j]? = some false := by
    rw [List.getElem?_append_left hj, List.getElem?_eq_getElem hj, hz _ (List.getElem_mem hj)]
  have heven := win_even_of_first_false hbit (fmtWidth f)
  rw [hsent, fmtSent_odd] at heven
  cases heven

/-- Settles O31: the forward attempt recovers the encoding, and reversing the reversal gives the encoding back. -/
theorem encodedTracksDecodeInBothDirections : Obligations.EncodedTracksDecodeInBothDirections := by
  intro f gs z y hgs s chars
  have hs : s = z ++ (groupStream f (fmtSent f) ++ (gs.flatMap (groupStream f) ++ (groupStream f (fmtTerm f) ++ y))) := by
    simp [s]
  refine ⟨fun hz j hj => hs ▸ win_ne_fmtSent_of_zeros hz _ f hj, fun hz => ?_⟩
  have hforward : decodeOne s f = .ok chars := decodeOne_encoded hgs hs hz
  have hback : decodeOne (reverseSeq s.reverse) f = .ok chars := by rwa [reverseSeq, List.reverse_reverse]
  exact ⟨hforward, decodeTrack_of_forward hforward, fun _ herr => decodeTrack_of_reversed herr hback,
    fun _ hok => decodeTrack_of_forward hok⟩

end Sys2Proof.Machine

/-! SUPPORT. Proofs of the family 60_exceptions: no step stops under the invariant, the overflow diagnostics between two
STARTs, and requests that find their latch set. -/

namespace Sys2Proof.Machine

/-! ## What a step serves (R262, R265, R266) -/

theorem step_of_event {s : State} {e : Event} {es : List Event} (h : s.events = e :: es) :
    step s = serve e (s.setEvents es) := by
  simp only [step, h]

theorem step_of_noEvent {s : State} (h : s.events = []) :
    step s = serve (idleEvent (Config.idleAgent s.choices)) (s.setChoices (s.choices + 1)) := by
  simp only [step, h]

theorem idleEvent_mem (a : IdleAgent) : idleEvent a ∈ [Event.tick, .main, .host] := by cases a <;> simp [idleEvent]

/-- Settles O12: the two equations of the step. -/
theorem stepServesTheNextEvent : Obligations.StepServesTheNextEvent := by
  intro s
  exact ⟨fun e es h => step_of_event h, fun h => ⟨_, idleEvent_mem _, step_of_noEvent h⟩⟩

/-! ## No step stops (R256, R202) -/

/-- The turn of the main loop under the invariant: the oldest unread slot has been written, and a main loop that does not
wait finds the transmitter idle (R69, R172, R182). -/
theorem mainStep_answers {s : State} (h : s.Inv) : Answers (mainStep s) := by
  cases hw : s.ml.wait with
  | true =>
    cases hd : s.tx.done with
    | true => exact ⟨_, mainStep_of_done hw hd⟩
    | false => exact ⟨_, mainStep_of_sending hw hd⟩
  | false =>
    by_cases hocc : (s.queue.get s.ml.track).occ s.cfg.qcap = 0
    · exact ⟨_, mainStep_of_empty hw hocc⟩
    · obtain ⟨b, hb⟩ := Option.isSome_iff_exists.1 ((h.queue s.ml.track).written 0 (Nat.pos_of_ne_zero hocc))
      have hidle : (rdAdvance s.ml.track s).tx.state = .idle := h.tx.wait hw
      rw [mainStep_of_nonempty hw hocc hb, exec_frame_of_idle b hidle]
      exact ⟨_, rfl⟩

theorem pendOf_of_hostInput {s s' : State} {b : Byte} (h : hostInput s = some (b, s')) : pendOf s' = pendOf s := by
  rcases hostInput_cases h with ⟨-, l, -, rfl⟩ | ⟨-, l, -, rfl⟩ | ⟨-, -, -, -, rfl⟩ <;> rfl

/-- The turn of the host under the invariant: no attempt is in progress, and whatever byte comes it selects a row that has
a next state (R46, R202, R103). -/
theorem hostStep_answers {s : State} (h : s.Inv) : Answers (hostStep s) := by
  cases hs : s.hostStopped with
  | true => exact ⟨s, hostStep_of_stopped hs⟩
  | false =>
    cases hi : hostInput s with
    | none => exact ⟨_, hostStep_of_noInput h.dec hs hi⟩
    | some p =>
      obtain ⟨b, s1⟩ := p
      obtain ⟨s', hs', -⟩ := exists_execByte (alikeBelowRawLen_self (hostInput_keeps_inv h hi).host) b
      rw [hostStep_of_input hs h.dec hi, ← pendOf_of_hostInput hi]
      exact ⟨s', hs'⟩

/-- Only the two loops have a turn that could stop. -/
theorem serve_answers (e : Event) {s : State} (h : s.Inv) : Answers (serve e s) := by
  cases e with
  | main => exact mainStep_answers h
  | host => exact hostStep_answers h
  | _ => exact ⟨_, rfl⟩

/-- Settles O50: a step serves an event, and the invariant says nothing of `events` and `choices`. -/
theorem noStepStopsUnderTheInvariant : Obligations.NoStepStopsUnderTheInvariant := by
  intro s h
  cases hev : s.events with
  | nil => rw [step_of_noEvent hev]; exact serve_answers _ (h.of_parts rfl)
  | cons e es => rw [step_of_event hev]; exact serve_answers e (h.of_parts rfl)

/-! ## The overflow diagnostics between two STARTs (R252, R74) -/

/-- What a track can tell of overflows from `s` to `s'` while no START clears its flag: each diagnostic of the track came
with a setting of `ovf[t]`, and the flag was kept (R252). -/
structure OverflowTold (t : Track) (s s' : State) : Prop where
  count : diagnostics t s'.out + (s.host.get t).ovf.toNat = diagnostics t s.out + (s'.host.get t).ovf.toNat
  kept : (s.host.get t).ovf = true → (s'.host.get t).ovf = true

namespace OverflowTold

variable {t : Track} {s s1 s' : State}

theorem refl (t : Track) (s : State) : OverflowTold t s s := ⟨rfl, id⟩

theorem trans (h : OverflowTold t s s1) (h' : OverflowTold t s1 s') : OverflowTold t s s' where
  count := by have := h.count; have := h'.count; omega
  kept := fun ho => h'.kept (h.kept ho)

/-- A flag is set at most once, since it is not cleared. -/
theorem diagnostics_le (h : OverflowTold t s s') : diagnostics t s'.out ≤ diagnostics t s.out + 1 := by
  have := h.count
  have := (s'.host.get t).ovf.toNat_le
  omega

theorem diagnostics_eq (h : OverflowTold t s s') (ho : (s.host.get t).ovf = true) :
    diagnostics t s'.out = diagnostics t s.out := by
  have hcount := h.count
  rw [ho, h.kept ho] at hcount
  exact Nat.add_right_cancel hcount

end OverflowTold

/-- The overflow diagnostics of a track are among the track's events. -/
theorem diagnostics_outOf (t : Track) (l : List OutEvent) : diagnostics t (outOf t l) = diagnostics t l := by
  rw [diagnostics, outOf, List.countP_filter]
  refine List.countP_congr fun e _ => ?_
  simp only [Bool.and_eq_true, decide_eq_true_eq, and_iff_left_iff_imp]
  rintro rfl
  rfl

/-- A track that notices nothing has nothing to tell. -/
theorem TrackAlike.overflowTold {t : Track} {s s' : State} (h : TrackAlike t s s') : OverflowTold t s s' where
  count := by rw [← diagnostics_outOf t s'.out, h.out, diagnostics_outOf, h.host]
  kept := fun ho => by rwa [h.host]

theorem setPend_overflowTold (t : Track) (p : Option Nibble) (s : State) : OverflowTold t s (setPend t p s) :=
  ⟨by simp [setPend], fun ho => by simpa [setPend] using ho⟩

/-- The appends of BITS emit a diagnostic exactly when they set the flag (R74, R207, R252). -/
theorem appendBits_overflowTold (t : Track) (bs : List Bit) (s : State) : OverflowTold t s (appendBits t bs s) := by
  obtain ⟨h, l, he, -, ⟨rfl, hovf⟩ | ⟨rfl, hclear, hset⟩⟩ := appendBits_cases t bs s <;> rw [he]
  · exact ⟨by simp [hovf], fun ho => by simpa [hovf] using ho⟩
  · exact ⟨by simp [diagnostics, hclear, hset], fun _ => by simpa using hset⟩

theorem dataByte_overflowTold (t : Track) (n : Nibble) (s : State) : OverflowTold t s (dataByte t n s) := by
  cases hp : (s.host.get t).pend with
  | none => rw [dataByte_of_none hp]; exact setPend_overflowTold t _ s
  | some k => rw [dataByte_of_some hp]; exact (appendBits_overflowTold t _ s).trans (setPend_overflowTold t _ _)

/-- STOP reports, but never an overflow (R204). -/
theorem execStop_overflowTold {t : Track} {s s' : State} (h : execStop t s = .next s') : OverflowTold t s s' := by
  rcases execStop_next h with ⟨-, rfl⟩ | ⟨-, seq, -, rfl⟩
  · exact .refl t _
  · obtain ⟨e, he, -, hne⟩ := report_cases t seq s
    rw [he]
    exact ⟨by simp [diagnostics, hne], id⟩

/-- Every byte but the track's START (R252). -/
theorem execByte_overflowTold {t : Track} {b : Byte} {s s' : State} (hb : decodeByte b ≠ .start t)
    (h : execByte b s = .next s') : OverflowTold t s s' := by
  by_cases ht : byteTrack b = t
  · subst ht
    rcases decodeByte_cases b with hstart | hstop | ⟨n, hdata⟩
    · exact absurd hstart hb
    · rw [execByte_of_stop hstop] at h
      exact execStop_overflowTold h
    · rw [execByte_of_data hdata] at h
      cases h
      exact dataByte_overflowTold _ n s
  · exact (TrackAlike.of_execByte ht h).overflowTold

theorem consume_overflowTold {t : Track} {bs : List Byte} {s s' : State} (hbs : ∀ b ∈ bs, decodeByte b ≠ .start t)
    (h : consume bs s = .next s') : OverflowTold t s s' := by
  induction bs generalizing s with
  | nil => cases h; exact .refl t _
  | cons b bs ih =>
    obtain ⟨hb, hrest⟩ := List.forall_mem_cons.1 hbs
    obtain ⟨s1, hs1, hs'⟩ := andThen_next h
    exact (execByte_overflowTold hb hs1).trans (ih hrest hs')

/-- Settles O59: without a START of the track the flag is set at most once, and each diagnostic sets it. -/
theorem oneDiagnosticBetweenStarts : Obligations.OneDiagnosticBetweenStarts := by
  intro s s' t bs h hbs
  have htold := consume_overflowTold hbs h
  exact ⟨htold.diagnostics_le, htold.diagnostics_eq⟩

/-! ## A request that finds its latch set (R267) -/

theorem IrqPend.set_get (i : IrqPend) (src : IrqSource) : i.set src (i.get src) = i := by
  cases src <;> simp [IrqPend.set, IrqPend.get]

theorem latch_of_set {src : IrqSource} {s : State} (h : s.irq.get src = true) : latch src s = s := by
  rw [latch, ← h, IrqPend.set_get]
  rfl

/-- Settles O48: an edge sets its latch or does nothing, and setting a set latch does nothing. -/
theorem secondEdgeBeforeServiceIsLost : Obligations.SecondEdgeBeforeServiceIsLost := by
  intro s t e
  refine ⟨fun h => ?_, fun h => ?_, fun h => ?_⟩
  · rw [serve, lineClkEdge, latch_of_set h, ite_self]
  · rw [serve, lineCpEdge, latch_of_set h, ite_self]
  · rw [serve, compareMatch, latch_of_set h, ite_self]

end Sys2Proof.Machine

/-! SUPPORT. Proofs of the family 70_reset_and_hazards: reset meets the invariant, quiescence lasts, and the reports that
the STOPs of a byte stream give. -/

namespace Sys2Proof.Machine

/-! ## Reset (R47, R291, R292) -/

/-- An empty queue has no unread entry, and no slot that could be out of place. -/
theorem QueueInv.reset (t : Track) {qcap : Nat} (h : 1 ≤ qcap) : QueueInv t qcap .reset :=
  have hocc : Queue.reset.occ qcap = 0 := by simp [Queue.occ, Queue.reset]
  { wrRange := Nat.mul_pos two_pos h
    rdRange := Nat.mul_pos two_pos h
    notOver := hocc ▸ Nat.zero_le _
    canonical := rfl
    slots := nofun
    tagged := nofun
    written := fun j hj => absurd hj (hocc ▸ Nat.not_lt_zero j) }

/-- The line is idle and the timer unarmed, whichever track has the turn. -/
theorem TxInv.reset (m : MainLoop) : TxInv .reset m where
  armed := by decide
  done := by decide
  lineIdle := fun _ => rfl
  lineBusy := fun h => absurd rfl h
  shift := fun h => absurd rfl h
  wait := fun _ => rfl

theorem HostInv.reset (tbcap : Nat) : HostInv tbcap .reset where
  len := Nat.zero_le _
  canonical := rfl
  bytes := nofun
  written := nofun
  overflow := nofun

/-- Settles O2: part by part, both tracks having the same reset value. -/
theorem resetMeetsTheInvariant : Obligations.ResetMeetsTheInvariant where
  cfg := by decide
  chan := fun t => by rw [State.reset, PerTrack.get_both]; exact .cleared (by decide) _
  queue := fun t => by rw [State.reset, PerTrack.get_both]; exact .reset t (by decide)
  tx := .reset _
  host := fun t => by rw [State.reset, PerTrack.get_both]; exact .reset _
  dec := rfl

/-! ## Quiescence (R311) -/

theorem forall_track_iff {p : Track → Prop} : (∀ t, p t) ↔ p .t1 ∧ p .t2 where
  mp h := ⟨h _, h _⟩
  mpr := fun ⟨h1, h2⟩ t => by cases t <;> assumption

theorem State.quiescent_iff {s : State} :
    s.quiescent = true ↔
      s.events = [] ∧ (∀ t, (s.queue.get t).occ s.cfg.qcap = 0) ∧ s.tx.state = .idle ∧ s.ml.wait = false := by
  simp [State.quiescent, Queue.empty, forall_track_iff, PerTrack.get, and_assoc]

/-- In a quiescent state the timer is unarmed, the turn of the main loop passes to the other track, and the host's turn is
not the capture side's (R182, R179, R20). -/
theorem serve_idleEvent_of_quiescent {a : IdleAgent} {s s' : State} (h : s.Inv) (hq : s.quiescent = true)
    (hs : serve (idleEvent a) s = .next s') :
    ∃ t, s'.captureSide = { s.captureSide with ml := { s.ml with track := t } } := by
  obtain ⟨-, hempty, hidle, hwait⟩ := State.quiescent_iff.1 hq
  cases a with
  | timer =>
    have harmed : s.tx.armed = false := Bool.eq_false_iff.2 fun ha => h.tx.armed.1 ha hidle
    cases (noTickWhileTheTimerIsUnarmed s harmed).1.symm.trans hs
    exact ⟨s.ml.track, rfl⟩
  | mainLoop =>
    cases (mainStep_of_empty hwait (hempty _)).symm.trans hs
    exact ⟨s.ml.track.other, rfl⟩
  | hostLoop => exact ⟨s.ml.track, (hostStep_hostFrame hs).captureSide⟩

/-- Settles O37: no event waits, so an agent moves, and quiescence speaks of no part that its move may change. -/
theorem quiescenceLasts : Obligations.QuiescenceLasts := by
  intro s s' h hq hs
  rw [step_of_noEvent (State.quiescent_iff.1 hq).1] at hs
  have h0 : (s.setChoices (s.choices + 1)).Inv := h.of_parts rfl
  obtain ⟨t, hside⟩ := serve_idleEvent_of_quiescent h0 hq hs
  simp only [State.captureSide, State.setChoices, CaptureSide.mk.injEq] at hside
  obtain ⟨hchan, hqueue, htx, hml, hirq, -, hcfg, hevents, -⟩ := hside
  refine ⟨?_, hchan, hqueue, htx, hirq, by rw [hml]⟩
  rw [← hq]
  simp only [State.quiescent, hevents, hqueue, hcfg, htx, hml]

/-! ## The reports of STOP (R312, R204) -/

theorem reports_append (t : Track) (l m : List OutEvent) : reports t (l ++ m) = reports t l + reports t m := by
  simp [reports, outOf]

/-- A track that notices nothing has reported nothing. -/
theorem TrackAlike.reports_eq {t : Track} {s s' : State} (h : TrackAlike t s s') :
    reports t s'.out = reports t s.out := by
  rw [reports, h.out, reports]

/-- A data byte may emit an overflow diagnostic, which is not a report (R207, R252). -/
theorem dataByte_reports (t : Track) (n : Nibble) (s : State) : reports t (dataByte t n s).out = reports t s.out := by
  cases hp : (s.host.get t).pend with
  | none => rw [dataByte_of_none hp]; rfl
  | some k =>
    rw [dataByte_of_some hp]
    obtain ⟨h, l, he, -, hl⟩ := appendBits_cases t (fieldBits n k.toNat) s
    have hnone : reports t l = 0 := by rcases hl with ⟨rfl, -⟩ | ⟨rfl, -⟩ <;> simp [reports, outOf]
    rw [he]
    exact (reports_append t s.out l).trans (by rw [hnone, Nat.add_zero])

/-- STOP of an enabled track emits one report of the track, STOP of a disabled track none (R204). -/
theorem execStop_reports {t : Track} {s s' : State} (h : execStop t s = .next s') :
    reports t s'.out = reports t s.out + if s.cfg.outEn.get t then 1 else 0 := by
  rcases execStop_next h with ⟨ho, rfl⟩ | ⟨ho, seq, -, rfl⟩
  · simp [ho]
  · obtain ⟨e, he, ht, hne⟩ := report_cases t seq s
    have hone : reports t [e] = 1 := by simp [reports, outOf, ht, hne]
    rw [he, emit, reports_append, hone, ho, if_pos rfl]

theorem byteTrack_of_decodeByte_stop {b : Byte} {t : Track} (h : decodeByte b = .stop t) : byteTrack b = t := by
  rcases decodeByte_cases b with hb | hb | ⟨n, hb⟩ <;> cases h.symm.trans hb
  rfl

/-- A byte makes its track report exactly when it is the STOP of the track and the track is enabled. -/
theorem execByte_reports (t : Track) {b : Byte} {s s' : State} (h : execByte b s = .next s') :
    reports t s'.out = reports t s.out + if s.cfg.outEn.get t ∧ decodeByte b = .stop t then 1 else 0 := by
  by_cases ht : byteTrack b = t
  · subst ht
    rcases decodeByte_cases b with hb | hb | ⟨n, hb⟩
    · rw [execByte_of_start hb, exec_start] at h
      cases h
      simp [hb]
    · rw [execByte_of_stop hb] at h
      simpa [hb] using execStop_reports h
    · rw [execByte_of_data hb] at h
      cases h
      simp [hb, dataByte_reports]
  · have hstop : decodeByte b ≠ .stop t := fun hb => ht (byteTrack_of_decodeByte_stop hb)
    simpa [hstop] using (TrackAlike.of_execByte ht h).reports_eq

theorem execByte_cfg {b : Byte} {s s' : State} (h : execByte b s = .next s') : s'.cfg = s.cfg :=
  congrArg CaptureSide.cfg (exec_hostFrame (decodeWire_ne_frame _ _) h).captureSide

/-- Settles O58: by induction on the bytes, whose reports add up; no byte changes which tracks are enabled. -/
theorem oneReportForEachStop : Obligations.OneReportForEachStop := by
  intro s s' t bs h
  induction bs generalizing s with
  | nil => cases h; simp
  | cons b bs ih =>
    obtain ⟨s1, hs1, hs'⟩ := andThen_next h
    rw [ih s1 hs', execByte_cfg hs1, execByte_reports t hs1, List.countP_cons]
    cases s.cfg.outEn.get t with
    | false => simp
    | true => simp only [if_true, true_and, decide_eq_true_eq]; omega

end Sys2Proof.Machine

/-! SUPPORT. Proofs of the family other: the sample words of the encodings. -/

namespace Sys2Proof

/-- The round trip (O3) read at a word: the word of an instruction decodes to it in a stream that reads it. -/
theorem decode_of_names {i : Instr} {st : Stream} {w : Nat} (h : i.Names st w) : decode st w = .ok i := by
  obtain ⟨hwf, hread, henc⟩ := h
  exact henc ▸ decodeOfEncodeIsTheInstruction i st hwf hread

/-- Settles O5: all but two of the words are the encodings of their instructions. The two are START with its reserved
bits set, which decodes as with them cleared (O8), and the frame whose stop bit is 0 (R105). -/
theorem sampleWordsDecode : Obligations.SampleWordsDecode := by
  have reservedSet : decode (.wire ⟨none, none⟩) 0b11011111 = .ok (.start .t2) :=
    (reservedBitsAreDecodedAsZero 0b11011111#8 _).trans (decode_of_names ⟨rfl, rfl, rfl⟩)
  have badStop : decode .line 0b0101100100 = .error .badStopBit := by decide
  refine ⟨?_, reservedSet, ?_, ?_, ?_, ?_, badStop, ?_, ?_, ?_, ?_, ?_, ?_⟩ <;>
    exact decode_of_names ⟨rfl, rfl, rfl⟩

end Sys2Proof
